-- ==== Sys2Proof/Word.lean ====
section
/-! DEFINITION. The word types of the engine: a byte, a 32-bit word (REG_W = ADDR_W = 32, rule R9), and the pixel
of rule R13. -/

namespace Sys2Proof

/-- A u8 (rule R11): a channel value or one byte of memory. -/
abbrev Byte := BitVec 8

/-- A u32 (rule R11): a register value or a bus address (rule R9, REG_W = ADDR_W = 32). -/
abbrev Word := BitVec 32

/-- A pixel, a 4-tuple of u8 (rule R13). Its derived equality is the pixel equality of rules R13 and R120. -/
structure Pixel where
  r : Byte
  g : Byte
  b : Byte
  a : Byte
deriving DecidableEq, Repr, Inhabited

end Sys2Proof
end

