-- ==== Sys2Proof/Config.lean ====
section
/-! DEFINITION. What is fixed for one engine: the parameters the source fixes (rule R8), the parameters a platform
chooses (rule R9), and the free values, constants without a body that stand for what the spec leaves unspecified. -/

namespace Sys2Proof.Config

/-! ### Parameters fixed by the source (rule R8) -/

/-- CACHE_SLOTS (rule R8). -/
def cacheSlots : Nat := 64

/-- PIXELS_MAX (rule R8). -/
def pixelsMax : Nat := 400000000

/-- RUN_MAX (rule R8). -/
def runMax : Nat := 62

/-- HEADER_LEN (rule R8). -/
def headerLen : Nat := 14

/-- FOOTER_LEN (rule R8). -/
def footerLen : Nat := 8

/-- MAGIC, the bytes of "qoif" (rules R8, R92). -/
def magic : List Byte := [0x71, 0x6F, 0x69, 0x66]

/-- FOOTER (rules R8, R94, R132). -/
def footer : List Byte := [0x00, 0x00, 0x00, 0x00, 0x00, 0x00, 0x00, 0x01]

/-- INIT_PIXEL (rules R8, R13, R32). -/
def initPixel : Pixel := { r := 0, g := 0, b := 0, a := 255 }

/-- The constant the ID register reads (rule R21). -/
def idValue : Word := 0x716F6966

/-- The size of the host's address space, 2^ADDR_W bytes (rules R9, R60). -/
def addressSpace : Nat := 4294967296

/-- The size of the register block (rule R20). -/
def registerBlock : Nat := 256

/-- What a byte of host memory that nothing has written reads as.
DESIGN CHOICE (log 4): the spec gives host memory no reset contents. Unsafe. -/
def unlistedByte : Byte := 0

/-! ### Parameters of the platform (rule R9) -/

/-- ENC_DELTA_MODE, the type of the encoder's channel subtraction (rules R9, R126). -/
inductive DeltaMode where
  /-- The difference mod 256, read as a signed byte. -/
  | wrap8
  /-- The exact integer difference. -/
  | wide
deriving DecidableEq, Repr, Inhabited

/-- The parameters rule R9 leaves open. They stand in State (`cfg`), no step changes them, and a statement about
every state is a statement about every choice of them (log 3). REG_BAD_ACCESS has no field: the model refuses such
an access (rule R65, log 11). -/
structure Params where
  /-- ENGINE_BASE (rules R9, R71). -/
  engineBase : Word
  /-- ENC_DELTA_MODE (rules R9, R126). -/
  deltaMode : DeltaMode
  /-- BUS_FAULTS (rules R9, R267). -/
  busFaults : Bool
deriving DecidableEq, Repr, Inhabited

/-- The parameters of the engine that `State.reset` describes: WRAP8 is the default rule R9 names; the base address
and the absence of bus errors are a DESIGN CHOICE (log 3). Unsafe. -/
def resetParams : Params := { engineBase := 0xF0000000, deltaMode := .wrap8, busFaults := false }

/-! ### Free values

Constants without a body. The step applies them to the counter `draws` of State, which it then advances, so each
draw is a fresh value of which nothing is known (log 23). -/

/-- An unspecified byte: a memory byte after an error (rule R266), after a reset in BUSY (rule R291), or after the
host broke a duty (rule R75). -/
opaque freeByte : Nat → Byte

/-- An unspecified word, the source of the latches, PREV, RUN and CACHE after an error (rule R266). -/
opaque freeWord : Nat → Word

/-- Whether the platform answers an engine access with a bus error, asked only where BUS_FAULTS holds
(rule R267). -/
opaque busError : Nat → Bool

end Sys2Proof.Config
end

