-- ==== Sys2Proof/Syntax.lean ====
section
/-! DEFINITION. The instructions: one constructor for each row of spec/opcode_table.json, with operands as rule R109
assembles them, and the places an instruction's bits come from. -/

namespace Sys2Proof

/-- CTRL.MODE (rule R22): 0 is encode, 1 is decode. -/
inductive Mode where
  | encode
  | decode
deriving DecidableEq, Repr, Inhabited

/-- The rows of spec/opcode_table.json: six stream chunks, two stream directives, four host commands. -/
inductive Instr where
  /-- RGB: raw r, g, b (rules R101, R198). -/
  | rgb (r g b : Byte)
  /-- RGBA: raw r, g, b, a (rules R102, R199). -/
  | rgba (r g b a : Byte)
  /-- INDEX: the cache slot (rules R97, R200). -/
  | index (idx : Fin 64)
  /-- DIFF: the three channel deltas, bias removed, each in -2..1 (rules R98, R202). -/
  | diff (dr dg db : Int)
  /-- LUMA: dg in -32..31, drg = dr - dg and dbg = db - dg in -8..7 (rules R99, R203). -/
  | luma (dg drg dbg : Int)
  /-- RUN: the run length, in 1..62, not the field (rules R100, R204). -/
  | run (len : Nat)
  /-- HEADER: width, height, channel count, colour-space tag (rules R91, R192). -/
  | header (w h : Word) (ch cs : Byte)
  /-- FOOTER (rules R94, R214). -/
  | footer
  /-- START_ENCODE: CTRL written with START = 1, MODE = 0 (rule R231). -/
  | startEncode (irqEn : Bool)
  /-- START_DECODE: CTRL written with START = 1, MODE = 1 (rule R231). -/
  | startDecode (irqEn : Bool)
  /-- SET_IRQ_EN: CTRL written with START = 0 (rule R235). -/
  | setIrqEn (mode : Mode) (irqEn : Bool)
  /-- CLEAR_STATUS: STATUS written; `done` and `err` are bits 1 and 2 of the value (rule R234). -/
  | clearStatus (done err : Bool)
deriving DecidableEq, Repr

/-- Where an instruction's bits stand. The engine's instructions come from three places of a stream (the bytes at
offset 0, at the cursor during the chunk loop, at the cursor after it; rule R90) and from host register writes
(rule R110); the same bytes mean different things in different places. -/
inductive Code where
  | header (bytes : List Byte)
  | chunk (bytes : List Byte)
  | footer (bytes : List Byte)
  | regWrite (offset : BitVec 8) (value : Word)
deriving DecidableEq, Repr

/-- Why a decoder rejects bits, by name. -/
inductive DecodeError where
  /-- The bytes end before the chunk, the header or the footer does. -/
  | short
  /-- The first four header bytes are not the magic (rule R92). -/
  | badMagic
  /-- The eight bytes are not the footer (rule R94). -/
  | badFooter
  /-- The register written is neither CTRL nor STATUS: the write is no command (rule R230). -/
  | notACommand
deriving DecidableEq, Repr

end Sys2Proof
end

