-- ==== Sys2Proof/WellFormed.lean ====
section
/-! DEFINITION. Which instructions can be spelled: the operand ranges of rules R107 and R109. An operand outside its
range "does not spell a chunk" (rule R107). -/

namespace Sys2Proof

/-- The range of a DIFF delta (rules R98, R107). -/
abbrev inDiffRange (d : Int) : Prop := -2 ≤ d ∧ d ≤ 1

/-- The range of LUMA's dg (rules R99, R107). -/
abbrev inLumaRange (d : Int) : Prop := -32 ≤ d ∧ d ≤ 31

/-- The range of LUMA's secondary deltas (rules R99, R107). -/
abbrev inSecondaryRange (d : Int) : Prop := -8 ≤ d ∧ d ≤ 7

/-- The range of a run length (rules R100, R107). -/
abbrev inRunRange (len : Nat) : Prop := 1 ≤ len ∧ len ≤ Config.runMax

/-- Rule R107, as an assembler checks it: every operand lies in its range. The operands of the other instructions
have no value outside their range (a slot is a Fin 64, a raw channel a byte, a header field a word or a byte, a
command bit a bit). -/
def Instr.wellFormed : Instr → Bool
  | .rgb _ _ _ => true
  | .rgba _ _ _ _ => true
  | .index _ => true
  | .diff dr dg db => decide (inDiffRange dr ∧ inDiffRange dg ∧ inDiffRange db)
  | .luma dg drg dbg => decide (inLumaRange dg ∧ inSecondaryRange drg ∧ inSecondaryRange dbg)
  | .run len => decide (inRunRange len)
  | .header _ _ _ _ => true
  | .footer => true
  | .startEncode _ => true
  | .startDecode _ => true
  | .setIrqEn _ _ => true
  | .clearStatus _ _ => true

/-- The instruction can be spelled (rule R107). -/
abbrev Instr.WellFormed (i : Instr) : Prop := i.wellFormed = true

end Sys2Proof
end

