-- ==== Sys2Proof/Decode.lean ====
section
/-! DEFINITION. The decoder (30_encoding.md rules R90 to R106, R109, R110), total on any bits, rejecting by name; then
the encoder, from the same tables; then the assembler's pseudo-instruction RUNS (rule R108); then the numbering of
spec/opcode_table.json. -/

namespace Sys2Proof

/-! ### Fields (rule R109) -/

/-- `v[lo + n - 1 : lo]` of a byte, as an unsigned number (rule R11). -/
def field (v : Byte) (lo n : Nat) : Nat := (v.extractLsb' lo n).toNat

/-- The operand of a biased field: the field zero-extended, less its bias (rules R109, R129). -/
def unbias (fld bias : Nat) : Int := (fld : Int) - (bias : Int)

/-- The 6-bit slot number of an INDEX tag (rule R97). -/
def slotField (t : Byte) : Fin 64 := Fin.ofNat 64 (field t 0 6)

/-- `be32(b0, b1, b2, b3)` (rules R11, R67). -/
def be32 (b0 b1 b2 b3 : Byte) : Word := b0 ++ b1 ++ b2 ++ b3

/-! ### The stream -/

/-- The length of the chunk whose tag byte is `t`, tag included, in the test order of rule R95 (rule R96). -/
def chunkLength (t : Byte) : Nat :=
  if t = 0xFE then 4
  else if t = 0xFF then 5
  else if field t 6 2 = 0b10 then 2
  else 1

/-- The payload of an RGB chunk (rule R101). -/
def decodeRgb : List Byte → Except DecodeError (Instr × List Byte)
  | r :: g :: b :: rest => .ok (.rgb r g b, rest)
  | _ => .error .short

/-- The payload of an RGBA chunk (rule R102). -/
def decodeRgba : List Byte → Except DecodeError (Instr × List Byte)
  | r :: g :: b :: a :: rest => .ok (.rgba r g b a, rest)
  | _ => .error .short

/-- A DIFF tag byte (rule R98). -/
def decodeDiff (t : Byte) : Instr :=
  .diff (unbias (field t 4 2) 2) (unbias (field t 2 2) 2) (unbias (field t 0 2) 2)

/-- A LUMA tag byte and its second byte (rule R99). -/
def decodeLuma (t : Byte) : List Byte → Except DecodeError (Instr × List Byte)
  | u :: rest => .ok (.luma (unbias (field t 0 6) 32) (unbias (field u 4 4) 8) (unbias (field u 0 4) 8), rest)
  | [] => .error .short

/-- A RUN tag byte: the length is the field plus one (rule R100). -/
def decodeRun (t : Byte) : Instr := .run (field t 0 6 + 1)

/-- The chunk at the head of a byte list, and the bytes after it: the tests of rule R95 in their order. -/
def decodeChunk : List Byte → Except DecodeError (Instr × List Byte)
  | [] => .error .short
  | t :: rest =>
    if t = 0xFE then decodeRgb rest
    else if t = 0xFF then decodeRgba rest
    else if field t 6 2 = 0b00 then .ok (.index (slotField t), rest)
    else if field t 6 2 = 0b01 then .ok (decodeDiff t, rest)
    else if field t 6 2 = 0b10 then decodeLuma t rest
    else .ok (decodeRun t, rest)

/-- The ten header bytes after the magic (rule R91). -/
def decodeHeaderFields : List Byte → Except DecodeError (Instr × List Byte)
  | w0 :: w1 :: w2 :: w3 :: h0 :: h1 :: h2 :: h3 :: ch :: cs :: rest =>
    .ok (.header (be32 w0 w1 w2 w3) (be32 h0 h1 h2 h3) ch cs, rest)
  | _ => .error .short

/-- The 14-byte header (rules R91, R92): the magic, then the fields. -/
def decodeHeader (bs : List Byte) : Except DecodeError (Instr × List Byte) :=
  if bs.length < Config.headerLen then .error .short
  else if bs.take 4 = Config.magic then decodeHeaderFields (bs.drop 4)
  else .error .badMagic

/-- The 8-byte footer (rule R94). -/
def decodeFooter (bs : List Byte) : Except DecodeError (Instr × List Byte) :=
  if bs.length < Config.footerLen then .error .short
  else if bs.take Config.footerLen = Config.footer then .ok (.footer, bs.drop Config.footerLen)
  else .error .badFooter

/-! ### Host commands (rules R22, R110, R230) -/

/-- The offset of CTRL (rule R20). -/
def ctrlOffset : BitVec 8 := 0x04

/-- The offset of STATUS (rule R20). -/
def statusOffset : BitVec 8 := 0x08

/-- The MODE bit (rule R22). -/
def modeOfBit (b : Bool) : Mode := if b then .decode else .encode

/-- A value written to CTRL (rules R22, R231, R235). Bits 31:3 are reserved and ignored. -/
def decodeCtrl (v : Word) : Instr :=
  if v.getLsbD 0 then
    if v.getLsbD 1 then .startDecode (v.getLsbD 2) else .startEncode (v.getLsbD 2)
  else .setIrqEn (modeOfBit (v.getLsbD 1)) (v.getLsbD 2)

/-- A value written to STATUS (rule R234). Bits 0 and 31:3 are ignored. -/
def decodeStatus (v : Word) : Instr := .clearStatus (v.getLsbD 1) (v.getLsbD 2)

/-- A host register write read as a command (rule R230): writes to CTRL and STATUS are commands, others are not. -/
def decodeRegWrite (offset : BitVec 8) (v : Word) : Except DecodeError Instr :=
  if offset = ctrlOffset then .ok (decodeCtrl v)
  else if offset = statusOffset then .ok (decodeStatus v)
  else .error .notACommand

/-! ### The decoder -/

/-- The instruction of a byte list, without the bytes after it. -/
def instrOf : Except DecodeError (Instr × List Byte) → Except DecodeError Instr
  | .ok (i, _) => .ok i
  | .error e => .error e

/-- The instruction the bits stand for in their place. -/
def decode : Code → Except DecodeError Instr
  | .header bs => instrOf (decodeHeader bs)
  | .chunk bs => instrOf (decodeChunk bs)
  | .footer bs => instrOf (decodeFooter bs)
  | .regWrite offset v => decodeRegWrite offset v

/-! ### The encoder -/

/-- A biased field of `n` bits: the operand plus its bias (rule R129). -/
def biased (n : Nat) (d : Int) (bias : Nat) : BitVec n := BitVec.ofInt n (d + (bias : Int))

/-- Byte 0 of a DIFF chunk (rule R98). -/
def diffByte (dr dg db : Int) : Byte := 0b01#2 ++ biased 2 dr 2 ++ biased 2 dg 2 ++ biased 2 db 2

/-- Byte 0 of a LUMA chunk (rule R99). -/
def lumaByte0 (dg : Int) : Byte := 0b10#2 ++ biased 6 dg 32

/-- Byte 1 of a LUMA chunk (rule R99). -/
def lumaByte1 (drg dbg : Int) : Byte := biased 4 drg 8 ++ biased 4 dbg 8

/-- The byte of an INDEX chunk (rule R97). -/
def indexByte (idx : Fin 64) : Byte := 0b00#2 ++ BitVec.ofNat 6 idx.val

/-- The byte of a RUN chunk of length `len` (rule R100). -/
def runByte (len : Nat) : Byte := 0b11#2 ++ BitVec.ofNat 6 (len - 1)

/-- The four bytes of a word, most significant first (rules R67, R91). -/
def be32Bytes (v : Word) : List Byte :=
  [v.extractLsb' 24 8, v.extractLsb' 16 8, v.extractLsb' 8 8, v.extractLsb' 0 8]

/-- HeaderBytes (rule R131). -/
def headerBytes (w h : Word) (ch cs : Byte) : List Byte :=
  Config.magic ++ be32Bytes w ++ be32Bytes h ++ [ch, cs]

/-- The value bits of a Boolean at bit `k` of a register. -/
def bitAt (b : Bool) (k : Nat) : Word := if b then BitVec.ofNat 32 (2 ^ k) else 0

/-- The MODE bit of a mode (rule R22). -/
def Mode.bit : Mode → Bool
  | .encode => false
  | .decode => true

/-- The bits of an instruction: a chunk's bytes (rules R97 to R102), the header's (rule R131), the footer's (rule
R132), a command's register write (rule R110). -/
def encode : Instr → Code
  | .rgb r g b => .chunk [0xFE, r, g, b]
  | .rgba r g b a => .chunk [0xFF, r, g, b, a]
  | .index idx => .chunk [indexByte idx]
  | .diff dr dg db => .chunk [diffByte dr dg db]
  | .luma dg drg dbg => .chunk [lumaByte0 dg, lumaByte1 drg dbg]
  | .run len => .chunk [runByte len]
  | .header w h ch cs => .header (headerBytes w h ch cs)
  | .footer => .footer Config.footer
  | .startEncode irqEn => .regWrite ctrlOffset (0x00000001 ||| bitAt irqEn 2)
  | .startDecode irqEn => .regWrite ctrlOffset (0x00000003 ||| bitAt irqEn 2)
  | .setIrqEn mode irqEn => .regWrite ctrlOffset (bitAt mode.bit 1 ||| bitAt irqEn 2)
  | .clearStatus done err => .regWrite statusOffset (bitAt done 1 ||| bitAt err 2)

/-- The stream bytes of an instruction; a host command has none. -/
def streamBytes (i : Instr) : List Byte :=
  match encode i with
  | .header bs => bs
  | .chunk bs => bs
  | .footer bs => bs
  | .regWrite _ _ => []

/-! ### The pseudo-instruction RUNS (rule R108) -/

/-- `RUNS n`, for n ≥ 1: the RUN chunks of n consecutive repeats of PREV (rule R108). -/
def expandRuns (n : Nat) : List Instr :=
  List.replicate ((n - 1) / 62) (.run 62) ++ [.run (n - 62 * ((n - 1) / 62))]

/-! ### The numbering of spec/opcode_table.json -/

/-- The first `n` bytes of a number, the least significant first: bit 0 of a table word is the least significant bit
of the first byte. -/
def bytesOf : Nat → Nat → List Byte
  | 0, _ => []
  | n + 1, w => BitVec.ofNat 8 w :: bytesOf n (w / 256)

/-- Where a table word's bits stand (log 14). The table numbers stream rows in bytes and command rows as a register
value, and gives no place; the width tells them apart: 112 bits are a header; 64 bits are the footer or a register
write (offset in bits 31:0, value in bits 63:32); 32 bits are a value written to CTRL unless the first byte is the
RGB tag; anything else is a chunk, followed by zeros. -/
def tableCode (nbits w : Nat) : Code :=
  let v := w % 2 ^ nbits
  if nbits = 112 then .header (bytesOf 14 v)
  else if nbits = 64 then
    if bytesOf 8 v = Config.footer then .footer (bytesOf 8 v)
    else .regWrite (BitVec.ofNat 8 v) (BitVec.ofNat 32 (v / 2 ^ 32))
  else if nbits = 32 ∧ BitVec.ofNat 8 v ≠ (0xFE : Byte) then .regWrite ctrlOffset (BitVec.ofNat 32 v)
  else .chunk (bytesOf 5 v)

/-- The instruction this decoder reads from a word of the opcode table. -/
def decodeTableWord (nbits w : Nat) : Option Instr :=
  match decode (tableCode nbits w) with
  | .ok i => some i
  | .error _ => none

end Sys2Proof
end

