-- ==== Sys2Proof/Machine/State.lean ====
section
/-! DEFINITION. The machine's state as plain data: the register block, the operation latches, the codec datapath, the
control state, host memory, the host's pending actions; the reasons a step can stop; and the state after reset. -/

namespace Sys2Proof.Machine

/-- The control states of rule R35. -/
inductive Fsm where
  | idle
  | encCheck
  | encHdr
  | encPix
  | encFtr
  | decCheck
  | decChunk
  | decFtr
deriving DecidableEq, Repr, Inhabited

/-- The error kinds of rule R261. -/
inductive ErrKind where
  | invalidDimensions
  | invalidChannelCount
  | bufferSizeMismatch
  | badMagic
  | truncatedStream
  | badFooter
  | outputOverflow
  | addressError
  | busError
deriving DecidableEq, Repr, Inhabited

/-- The width of a host access to the register block (rule R65). -/
inductive AccessSize where
  | byte
  | half
  | word
deriving DecidableEq, Repr, Inhabited

/-- The registers whose writes are commands (rule R230). -/
inductive CommandReg where
  | ctrl
  | status
deriving DecidableEq, Repr, Inhabited

/-- What the host does next (log 1). `engineTurn` lets the engine take one step. -/
inductive HostOp where
  /-- The host does nothing; the engine takes one step. -/
  | engineTurn
  /-- A write to the register block (rules R65, R237). -/
  | regWrite (offset : BitVec 8) (size : AccessSize) (value : Word)
  /-- A 32-bit write to CTRL or STATUS in the same cycle as one step of the engine (rule R270, log 26). -/
  | cycleWrite (reg : CommandReg) (value : Word)
  /-- A read of the register block (rules R65, R236). -/
  | regRead (offset : BitVec 8) (size : AccessSize)
  /-- The host writes one byte of its memory (rules R60, R75). -/
  | memWrite (addr : Word) (value : Byte)
  /-- The host reads one byte of its memory (rules R60, R75). -/
  | memRead (addr : Word)
  /-- RST is asserted and released (rules R290, R291). -/
  | rst
deriving DecidableEq, Repr, Inhabited

/-- The operation latches (rule R29). -/
structure Latches where
  mode : Mode
  w : Word
  h : Word
  ch : Byte
  cs : Byte
  npix : BitVec 64
  srcBase : Word
  srcLen : Word
  dstBase : Word
  dstCap : Word
  inPos : Word
  outPos : Word
  pix : Word
deriving DecidableEq, Repr, Inhabited

/-- Host memory (rule R60): address and byte pairs in the canonical form of `Memory.wf`. -/
abbrev Memory := List Host.Cell

/-- The machine. Every field but the last six is state the spec names; the last six are the model's own (log 23). -/
structure State where
  /-- The platform's parameters (rule R9); no step changes them (log 3). -/
  cfg : Config.Params
  /-- CTRL.MODE (rule R22). -/
  ctrlMode : Mode
  /-- CTRL.IRQ_EN (rule R22). -/
  irqEn : Bool
  /-- STATUS.BUSY (rule R23). -/
  busy : Bool
  /-- STATUS.DONE (rule R23). -/
  done : Bool
  /-- STATUS.ERR (rule R23). -/
  err : Bool
  /-- ERROR.CODE (rule R24). -/
  errCode : BitVec 4
  /-- WIDTH (rule R25). -/
  width : Word
  /-- HEIGHT (rule R25). -/
  height : Word
  /-- FORMAT.CHANNELS (rule R26). -/
  channels : Byte
  /-- FORMAT.COLORSPACE (rule R26). -/
  colorspace : Byte
  /-- SRC_BASE (rule R27). -/
  srcBase : Word
  /-- SRC_LEN (rule R27). -/
  srcLen : Word
  /-- DST_BASE (rule R27). -/
  dstBase : Word
  /-- DST_CAP (rule R27). -/
  dstCap : Word
  /-- OUT_LEN (rule R28). -/
  outLen : Word
  /-- The operation latches (rule R29). -/
  op : Latches
  /-- PREV (rule R31). -/
  prev : Pixel
  /-- RUN (rule R31). -/
  run : BitVec 6
  /-- CACHE (rules R31, R33). -/
  cache : Vector Pixel 64
  /-- The control state (rule R35). -/
  fsm : Fsm
  /-- Host memory (rule R60). -/
  mem : Memory
  /-- Model's own: what the host does next, the first entry first (log 1). -/
  hostQ : List HostOp
  /-- Model's own: the data the host's last read returned (log 21). -/
  rdata : Word
  /-- Model's own: how many free values have been drawn (log 23). -/
  draws : Nat
  /-- Model's own: how many leading bytes of the output window the operation has reached (log 7). -/
  reach : Nat
  /-- Model's own: the host has written the input window during BUSY (rule R75, log 10). -/
  inTaint : Bool
  /-- Model's own: the host has touched the output window during BUSY (rule R75, log 10). -/
  outTaint : Bool
deriving DecidableEq, Repr

/-- Why the machine stops with a fault. -/
inductive Fault where
  /-- An engine access formed an address at or above 2^32, which does not exist (rule R60). Raised by the engine's
  byte accesses. Safe: windows that pass rule R61 never form one (log 13). -/
  | outsideAddressSpace
deriving DecidableEq, Repr

/-- Why the model gives no meaning. -/
inductive Refusal where
  /-- An instruction without a meaning in this model; no arm of `exec` answers it. Safe. -/
  | notModelled (mnemonic : String)
  /-- A register access that is not 32-bit aligned (rule R65: "A model refuses such an access", log 11). Raised by
  the host's register and memory accesses. Safe. -/
  | badRegisterAccess
  /-- A non-empty window overlaps the register block (rule R71: "The model refuses a non-empty window that overlaps",
  log 12). Raised by the check steps. Safe. -/
  | windowOverRegisters
deriving DecidableEq, Repr

/-- What a step answers. -/
abbrev Answer := Host.Outcome State Fault Refusal

/-- The latches after reset. DESIGN CHOICE (log 5): rule R290 leaves them unspecified; zero. Unsafe. -/
def resetLatches : Latches :=
  { mode := .encode, w := 0, h := 0, ch := 0, cs := 0, npix := 0, srcBase := 0, srcLen := 0, dstBase := 0,
    dstCap := 0, inPos := 0, outPos := 0, pix := 0 }

/-- A pixel register after reset. DESIGN CHOICE (log 5): rule R290 leaves PREV and CACHE unspecified; zero. Unsafe. -/
def resetPixel : Pixel := { r := 0, g := 0, b := 0, a := 0 }

/-- The machine right after reset (rule R290). The latches, PREV, RUN and CACHE are unspecified there: log 5. Memory
lists nothing: log 4. The parameters: log 3. -/
def State.reset : State :=
  { cfg := Config.resetParams
    ctrlMode := .encode
    irqEn := false
    busy := false
    done := false
    err := false
    errCode := 0
    width := 0
    height := 0
    channels := 0
    colorspace := 0
    srcBase := 0
    srcLen := 0
    dstBase := 0
    dstCap := 0
    outLen := 0
    op := resetLatches
    prev := resetPixel
    run := 0
    cache := Vector.replicate 64 resetPixel
    fsm := .idle
    mem := []
    hostQ := []
    rdata := 0
    draws := 0
    reach := 0
    inTaint := false
    outTaint := false }

end Sys2Proof.Machine
end

