-- ==== Sys2Proof/Machine/Flags.lean ====
section
/-! DEFINITION. The engine's flags: BUSY, DONE and ERR of STATUS, its only ones (rule R23), the interrupt level
computed from them (rule R36), the error codes (rule R261), and the words the CTRL and STATUS registers read as. -/

namespace Sys2Proof.Machine

/-- The number of an error kind in ERROR.CODE (rule R261). -/
def errorCode : ErrKind → BitVec 4
  | .invalidDimensions => 1
  | .invalidChannelCount => 2
  | .bufferSizeMismatch => 3
  | .badMagic => 4
  | .truncatedStream => 5
  | .badFooter => 6
  | .outputOverflow => 7
  | .addressError => 8
  | .busError => 9

/-- `IRQ = CTRL.IRQ_EN and (STATUS.DONE or STATUS.ERR)` (rules R36, R269). -/
def irq (s : State) : Bool := s.irqEn && (s.done || s.err)

/-- The flags when an operation starts (rule R231). -/
def flagsStart (s : State) : State := { s with busy := true, done := false, err := false, errCode := 0 }

/-- The flags when an operation completes (rule R233). -/
def flagsDone (s : State) : State := { s with busy := false, done := true, errCode := 0 }

/-- The flags when an operation ends with error `e` (rule R266). -/
def flagsError (e : ErrKind) (s : State) : State :=
  { s with busy := false, done := false, err := true, errCode := errorCode e }

/-- Write-one-to-clear of DONE and ERR (rules R23, R234). ERROR.CODE is kept. -/
def flagsClear (clearDone clearErr : Bool) (s : State) : State :=
  { s with done := s.done && !clearDone, err := s.err && !clearErr }

/-- A value written to STATUS in the same cycle as the engine step from `s` to `t`: it cannot clear a DONE or ERR that
step raised, which the host has not seen (rule R270, log 26). -/
def keepRaised (s t : State) (v : Word) : Word :=
  v &&& ~~~(bitAt (t.done && !s.done) 1 ||| bitAt (t.err && !s.err) 2)

/-- The word CTRL reads as: START reads 0 (rules R22, R236). -/
def ctrlWord (s : State) : Word := bitAt s.ctrlMode.bit 1 ||| bitAt s.irqEn 2

/-- The word STATUS reads as (rules R23, R236). -/
def statusWord (s : State) : Word := bitAt s.busy 0 ||| bitAt s.done 1 ||| bitAt s.err 2

end Sys2Proof.Machine
end

