-- ==== Sys2Proof/Machine/Operands.lean ====
section
/-! DEFINITION. Operand forms and the arithmetic of the shared primitives (40_shared_primitives.md rules R120 to R133):
the packed pixel, the hash, the dimension check, the predictor's deltas and their range predicates, pixel bytes. -/

namespace Sys2Proof.Machine

/-! ### Pixels -/

/-- The 32-bit SRAM word of a pixel, `r || g || b || a` (rule R33). -/
def packPixel (p : Pixel) : Word := p.r ++ p.g ++ p.b ++ p.a

/-- The pixel in an SRAM word (rule R33). -/
def unpackPixel (v : Word) : Pixel :=
  { r := v.extractLsb' 24 8, g := v.extractLsb' 16 8, b := v.extractLsb' 8 8, a := v.extractLsb' 0 8 }

/-- `hash(p) = (3*p.r + 5*p.g + 7*p.b + 11*p.a) mod 64` (rule R122). -/
def pixelHash (p : Pixel) : Fin 64 :=
  Fin.ofNat 64 (3 * p.r.toNat + 5 * p.g.toNat + 7 * p.b.toNat + 11 * p.a.toNat)

/-- PixelBytes (rule R133). -/
def pixelBytes (p : Pixel) (ch : Byte) : List Byte :=
  if ch = 4 then [p.r, p.g, p.b, p.a] else [p.r, p.g, p.b]

/-- The pixel of the bytes fetched for it (rule R121): with three channels alpha is 255. -/
def pixelOfBytes : List Byte → Pixel
  | [r, g, b, a] => { r := r, g := g, b := b, a := a }
  | [r, g, b] => { r := r, g := g, b := b, a := 255 }
  | _ => Config.initPixel

/-! ### Dimensions -/

/-- `npix(w, h)`, the exact product (rule R124). -/
def pixelCount (w h : Word) : BitVec 64 := w.zeroExtend 64 * h.zeroExtend 64

/-- `DimsOK(w, h)` (rule R124). -/
def dimsOk (w h : Word) : Bool :=
  decide (1 ≤ w.toNat ∧ 1 ≤ h.toNat ∧ w.toNat * h.toNat ≤ Config.pixelsMax)

/-- The channel counts the engine takes (rules R93, R152, R193). -/
def channelsOk (ch : Byte) : Bool := decide (ch = 3 ∨ ch = 4)

/-! ### The delta predictor -/

/-- `add8(c, d) = (c + d) mod 256` (rule R125). -/
def add8 (c : Byte) (d : Int) : Byte := BitVec.ofInt 8 ((c.toNat : Int) + d)

/-- `delta(c, q)` under ENC_DELTA_MODE (rule R126). -/
def delta (m : Config.DeltaMode) (c q : Byte) : Int :=
  match m with
  | .wrap8 => (c - q).toInt
  | .wide => (c.toNat : Int) - (q.toNat : Int)

/-- `DiffOK(dr, dg, db)` (rule R128). -/
def diffOk (dr dg db : Int) : Bool := decide (inDiffRange dr ∧ inDiffRange dg ∧ inDiffRange db)

/-- `LumaOK(dr, dg, db)` (rule R128), with the secondary deltas of rule R127. -/
def lumaOk (dr dg db : Int) : Bool :=
  decide (inLumaRange dg ∧ inSecondaryRange (dr - dg) ∧ inSecondaryRange (db - dg))

/-- The pixel a DIFF chunk decodes to (rule R202). -/
def diffPixel (prev : Pixel) (dr dg db : Int) : Pixel :=
  { r := add8 prev.r dr, g := add8 prev.g dg, b := add8 prev.b db, a := prev.a }

/-- The pixel a LUMA chunk decodes to (rule R203). -/
def lumaPixel (prev : Pixel) (dg drg dbg : Int) : Pixel :=
  { r := add8 prev.r (dg + drg), g := add8 prev.g dg, b := add8 prev.b (dg + dbg), a := prev.a }

end Sys2Proof.Machine
end

