-- ==== Sys2Proof/Machine/Ops.lean ====
section
/-! DEFINITION. The named operations over memory and registers: reading and writing host memory, the engine's byte
accesses with the platform's answer, starting an operation, error termination (`raise`, rule R266) and completion
(`complete`, rule R233). -/

namespace Sys2Proof.Machine

/-! ### Host memory (rule R60) -/

/-- The byte at an address; an unlisted address reads as `Config.unlistedByte` (log 4). -/
def Memory.read : Memory → Nat → Byte
  | [], _ => Config.unlistedByte
  | (k, v) :: m, a => if a = k then v else Memory.read m a

/-- Write one byte, keeping the canonical form. -/
def Memory.write : Memory → Nat → Byte → Memory
  | [], a, b => if b = Config.unlistedByte then [] else [(a, b)]
  | (k, v) :: m, a, b =>
    if a < k then (if b = Config.unlistedByte then (k, v) :: m else (a, b) :: (k, v) :: m)
    else if a = k then (if b = Config.unlistedByte then m else (a, b) :: m)
    else (k, v) :: Memory.write m a b

/-- Bytes at consecutive addresses from `a` on. -/
def Memory.store : List Byte → Nat → Memory → Memory
  | [], _, m => m
  | b :: bs, a, m => Memory.store bs (a + 1) (Memory.write m a b)

/-- Write `f 0 … f (n-1)` at `base …`, passing over the addresses of `keep`. -/
def Memory.fill (keep : Nat → Bool) (f : Nat → Byte) (base : Nat) : Nat → Memory → Memory
  | 0, m => m
  | n + 1, m =>
    if keep (base + n) then Memory.fill keep f base n m
    else Memory.write (Memory.fill keep f base n m) (base + n) (f n)

/-- The canonical form: addresses strictly rising and inside the address space, no entry equal to what an unlisted
address reads as. -/
abbrev Memory.wf (m : Memory) : Prop :=
  m.Pairwise (fun c d => c.1 < d.1) ∧ ∀ c ∈ m, c.2 ≠ Config.unlistedByte ∧ c.1 < Config.addressSpace

/-! ### The windows (rules R60, R61, R71) -/

/-- The address lies in the input window of the operation (rule R60). -/
def inSrcWindow (s : State) (a : Nat) : Bool :=
  decide (s.op.srcBase.toNat ≤ a ∧ a < s.op.srcBase.toNat + s.op.srcLen.toNat)

/-- The address lies in the output window of the operation (rule R60). -/
def inDstWindow (s : State) (a : Nat) : Bool :=
  decide (s.op.dstBase.toNat ≤ a ∧ a < s.op.dstBase.toNat + s.op.dstCap.toNat)

/-- The three conditions of rule R61 under which an operation ends with AddressError. -/
def windowsIllegal (op : Latches) : Bool :=
  decide (op.srcBase.toNat + op.srcLen.toNat > Config.addressSpace) ||
  decide (op.dstBase.toNat + op.dstCap.toNat > Config.addressSpace) ||
  decide (op.srcLen.toNat > 0 ∧ op.dstCap.toNat > 0 ∧
    op.srcBase.toNat < op.dstBase.toNat + op.dstCap.toNat ∧ op.dstBase.toNat < op.srcBase.toNat + op.srcLen.toNat)

/-- The address lies in the register block (rules R20, R71). -/
def inRegisterBlock (p : Config.Params) (a : Nat) : Bool :=
  decide (p.engineBase.toNat ≤ a ∧ a < p.engineBase.toNat + Config.registerBlock)

/-- A non-empty window [base, base + len) overlaps the register block (rule R71). -/
def overRegisters (p : Config.Params) (base len : Word) : Bool :=
  decide (len.toNat > 0 ∧ base.toNat < p.engineBase.toNat + Config.registerBlock ∧
    p.engineBase.toNat < base.toNat + len.toNat)

/-- One of the windows overlaps the register block (rule R71). -/
def windowsOverRegisters (s : State) : Bool :=
  overRegisters s.cfg s.op.srcBase s.op.srcLen || overRegisters s.cfg s.op.dstBase s.op.dstCap

/-! ### Unspecified values -/

/-- Give the first `n` bytes of the output window free values, but for the addresses of `keep` and those outside the
address space (rules R75, R266, R291). -/
def scrambleOutput (keep : Nat → Bool) (n : Nat) (s : State) : State :=
  { s with
    mem := Memory.fill (fun a => keep a || decide (Config.addressSpace ≤ a))
      (fun i => Config.freeByte (s.draws + i)) s.op.dstBase.toNat n s.mem
    draws := s.draws + n }

/-- Latches of free values, the draws from `k` on (rule R266). -/
def freeLatches (k : Nat) : Latches :=
  { mode := modeOfBit ((Config.freeWord k).getLsbD 0)
    w := Config.freeWord (k + 1)
    h := Config.freeWord (k + 2)
    ch := (Config.freeWord (k + 3)).truncate 8
    cs := (Config.freeWord (k + 4)).truncate 8
    npix := Config.freeWord (k + 5) ++ Config.freeWord (k + 6)
    srcBase := Config.freeWord (k + 7)
    srcLen := Config.freeWord (k + 8)
    dstBase := Config.freeWord (k + 9)
    dstCap := Config.freeWord (k + 10)
    inPos := Config.freeWord (k + 11)
    outPos := Config.freeWord (k + 12)
    pix := Config.freeWord (k + 13) }

/-- "The latches, PREV, RUN and CACHE are left with unspecified values" (rule R266): free values (log 8). -/
def scrambleCodec (s : State) : State :=
  { s with
    op := freeLatches s.draws
    prev := unpackPixel (Config.freeWord (s.draws + 14))
    run := (Config.freeWord (s.draws + 15)).truncate 6
    cache := Vector.ofFn (fun i => unpackPixel (Config.freeWord (s.draws + 16 + i.val)))
    draws := s.draws + 80 }

/-! ### The ends of an operation -/

/-- The operation is over: the engine is IDLE and the model's record of the operation is closed. -/
def closeOperation (s : State) : State :=
  { s with fsm := .idle, reach := 0, inTaint := false, outTaint := false }

/-- How many leading bytes of the output window are unspecified after an error: those the operation reached (rule
R266, log 7); all of them if the host touched the window during BUSY (rule R75, log 10). -/
def unspecifiedOutput (s : State) : Nat := if s.outTaint then s.op.dstCap.toNat else s.reach

/-- Error termination, the one way an operation ends with an error (rule R266). OUT_LEN, WIDTH, HEIGHT and FORMAT
keep their values. There is no handler and nothing to restore: the return is the next START or CLEAR_STATUS (rule
R268). Where overlapping windows end with AddressError after the host touched the output window, a byte in both windows
is a free value too: the model's choice between rule R75 and rules R62, R217 (log 10). -/
def raise (e : ErrKind) (s : State) : State :=
  closeOperation (flagsError e (scrambleCodec (scrambleOutput (fun _ => false) (unspecifiedOutput s) s)))

/-- The final contents of the output window at completion: unspecified if the host touched it (rule R75, log 10). -/
def settleOutput (s : State) : State :=
  if s.outTaint then scrambleOutput (fun _ => false) s.op.dstCap.toNat s else s

/-- Completion, the one way an operation ends without error (rule R233). PREV, RUN, CACHE and the latches are kept
(log 16). -/
def complete (len : Word) (s : State) : State :=
  closeOperation { flagsDone (settleOutput s) with outLen := len }

/-! ### Bus accesses of the engine (rules R62, R64, R267) -/

/-- The outcome of an engine access: it completed, it ends the operation with an error, or the machine faults. -/
inductive Acc (α : Type) where
  | ok (x : α) (s : State)
  | raised (e : ErrKind) (s : State)
  | fault (f : Fault)

/-- Go on after an access that completed. -/
def Acc.bind {α β : Type} (x : Acc α) (k : α → State → Acc β) : Acc β :=
  match x with
  | .ok a s => k a s
  | .raised e s => .raised e s
  | .fault f => .fault f

/-- End a step after its accesses: an error terminates the operation (rule R266). -/
def Acc.finish {α : Type} (x : Acc α) (k : α → State → Answer) : Answer :=
  match x with
  | .ok a s => k a s
  | .raised e s => .next (raise e s)
  | .fault f => .fault f

/-- The platform's answer to one engine access: where BUS_FAULTS holds it may be a bus error, a free choice for each
access (rule R267, log 6). -/
def busAnswer (s : State) : Acc Unit :=
  if s.cfg.busFaults then
    if Config.busError s.draws then .raised .busError { s with draws := s.draws + 1 }
    else .ok () { s with draws := s.draws + 1 }
  else .ok () s

/-- The value of one read of the input window: the byte in memory, or, after the host wrote the window during BUSY,
a free value for each read (rule R75, log 10). -/
def srcByte (a : Nat) (s : State) : Acc Byte :=
  if s.inTaint then .ok (Config.freeByte s.draws) { s with draws := s.draws + 1 }
  else .ok (Memory.read s.mem a) s

/-- `IN[off]` (rule R12). -/
def readIn (off : Nat) (s : State) : Acc Byte :=
  if Config.addressSpace ≤ s.op.srcBase.toNat + off then .fault .outsideAddressSpace
  else (busAnswer s).bind fun _ s1 => srcByte (s.op.srcBase.toNat + off) s1

/-- `OUT[off] <- v` (rule R12). An access that the platform answers with an error has reached the byte (log 7). -/
def writeOut (off : Nat) (v : Byte) (s : State) : Acc Unit :=
  if Config.addressSpace ≤ s.op.dstBase.toNat + off then .fault .outsideAddressSpace
  else (busAnswer { s with reach := max s.reach (off + 1) }).bind fun _ s1 =>
    .ok () { s1 with mem := Memory.write s1.mem (s.op.dstBase.toNat + off) v }

/-- `n` bytes of the input window from offset `off`, in increasing offset (rule R64). -/
def readBytes : Nat → Nat → State → Acc (List Byte)
  | 0, _, s => .ok [] s
  | n + 1, off, s =>
    (readIn off s).bind fun b s1 => (readBytes n (off + 1) s1).bind fun bs s2 => .ok (b :: bs) s2

/-- Bytes to the output window from offset `off`, in increasing offset (rule R64). -/
def writeBytes : List Byte → Nat → State → Acc Unit
  | [], _, s => .ok () s
  | b :: bs, off, s => (writeOut off b s).bind fun _ s1 => writeBytes bs (off + 1) s1

/-- `emit(b)` (rule R12). -/
def emit (b : Byte) (s : State) : Acc Unit :=
  (writeOut s.op.outPos.toNat b s).bind fun _ s1 =>
    .ok () { s1 with op := { s1.op with outPos := s1.op.outPos + 1 } }

/-- Emit bytes in order (rule R170). -/
def emitAll : List Byte → State → Acc Unit
  | [], s => .ok () s
  | b :: bs, s => (emit b s).bind fun _ s1 => emitAll bs s1

/-! ### The start of an operation -/

/-- The codec state at the start of every operation (rules R32, R293). -/
def initCodec (s : State) : State :=
  { s with prev := Config.initPixel, run := 0, cache := Vector.replicate 64 Config.initPixel }

/-- The latches START loads (rules R29, R231). -/
def startLatches (mode : Mode) (s : State) : Latches :=
  let common := { s.op with
    mode := mode, srcBase := s.srcBase, srcLen := s.srcLen, dstBase := s.dstBase, dstCap := s.dstCap,
    inPos := 0, outPos := 0, pix := 0 }
  match mode with
  | .encode => { common with
      w := s.width, h := s.height, ch := s.channels, cs := s.colorspace, npix := pixelCount s.width s.height }
  | .decode => common

/-- The control state START moves to (rule R231). -/
def startFsm : Mode → Fsm
  | .encode => .encCheck
  | .decode => .decCheck

/-- START, the atomic register update of rule R231. -/
def startOperation (mode : Mode) (irqEn : Bool) (s : State) : State :=
  { flagsStart s with
    ctrlMode := mode, irqEn := irqEn, outLen := 0, op := startLatches mode s, fsm := startFsm mode,
    reach := 0, inTaint := false, outTaint := false }

end Sys2Proof.Machine
end

