-- ==== Sys2Proof/Machine/Chunks.lean ====
section
/-! DEFINITION. The meanings of the six stream chunks (42_decoder.md rules R196 to R210): each forms its pixel and its
count and hands them to the shared DECODE_CHUNK tail. -/

namespace Sys2Proof.Machine

/-- WRITE_PIXELS with the count already cut to the pixels left (rules R205, R206). -/
def writePixels (p : Pixel) : Nat → State → Acc Unit
  | 0, s => .ok () s
  | m + 1, s =>
    (writeBytes (pixelBytes p s.op.ch) (s.op.ch.toNat * s.op.pix.toNat) s).bind fun _ s1 =>
      writePixels p m { s1 with op := { s1.op with pix := s1.op.pix + 1 } }

/-- Rule R201: `CACHE[hash(p)] <- p; PREV <- p`. -/
def cacheUpdate (p : Pixel) (s : State) : State :=
  { s with cache := s.cache.set (pixelHash p) p, prev := p }

/-- The cursor after a chunk of `len` bytes (rule R30). -/
def advanceCursor (len : Nat) (s : State) : State :=
  { s with op := { s.op with inPos := s.op.inPos + BitVec.ofNat 32 len } }

/-- The pixels left to decode (rule R205). -/
def pixelsLeft (s : State) : Nat := s.op.npix.toNat - s.op.pix.toNat

/-- The control state after a chunk (rules R197, R297). -/
def afterChunk (s : State) : State :=
  { s with fsm := if s.op.pix.toNat < s.op.npix.toNat then .decChunk else .decFtr }

/-- The tail of DECODE_CHUNK (rule R196) for a chunk of `len` bytes, tag included, that stands for `cnt` pixels `p`:
`need` (rule R210), the cursor, the cache and PREV (rule R201), the output (rule R206), the next state (rule R297). -/
def decodeTail (len : Nat) (p : Pixel) (cnt : Nat) (s : State) : Answer :=
  if s.op.inPos.toNat + len > s.op.srcLen.toNat then .next (raise .truncatedStream s)
  else (writePixels p (min cnt (pixelsLeft s)) (cacheUpdate p (advanceCursor len s))).finish
    fun _ s1 => .next (afterChunk s1)

/-- RGB: alpha is PREV.a (rule R198). -/
def execRgb (r g b : Byte) (s : State) : Answer :=
  decodeTail 4 { r := r, g := g, b := b, a := s.prev.a } 1 s

/-- RGBA (rule R199), in three-channel streams too (rule R208). -/
def execRgba (r g b a : Byte) (s : State) : Answer :=
  decodeTail 5 { r := r, g := g, b := b, a := a } 1 s

/-- INDEX: the slot's pixel, verbatim (rule R200). -/
def execIndex (idx : Fin 64) (s : State) : Answer :=
  decodeTail 1 (s.cache.get idx) 1 s

/-- DIFF (rule R202). -/
def execDiff (dr dg db : Int) (s : State) : Answer :=
  decodeTail 1 (diffPixel s.prev dr dg db) 1 s

/-- LUMA (rule R203). -/
def execLuma (dg drg dbg : Int) (s : State) : Answer :=
  decodeTail 2 (lumaPixel s.prev dg drg dbg) 1 s

/-- RUN: `len` copies of PREV, the excess over the pixels left dropped (rules R204, R205). -/
def execRun (len : Nat) (s : State) : Answer :=
  decodeTail 1 s.prev len s

end Sys2Proof.Machine
end

