-- ==== Sys2Proof/Machine/Commands.lean ====
section
/-! DEFINITION. The meanings of the host commands (43_host_commands.md rules R231 to R235). -/

namespace Sys2Proof.Machine

/-- A write to CTRL with START = 1: it starts an operation (rule R231), or while BUSY changes IRQ_EN only (rule
R232). -/
def writeStart (mode : Mode) (irqEn : Bool) (s : State) : Answer :=
  if s.busy then .next { s with irqEn := irqEn } else .next (startOperation mode irqEn s)

/-- START_ENCODE (rules R231, R232). -/
def execStartEncode (irqEn : Bool) (s : State) : Answer := writeStart .encode irqEn s

/-- START_DECODE (rules R231, R232). -/
def execStartDecode (irqEn : Bool) (s : State) : Answer := writeStart .decode irqEn s

/-- SET_IRQ_EN: IRQ_EN always, MODE only while BUSY = 0 (rules R22, R235). -/
def execSetIrqEn (mode : Mode) (irqEn : Bool) (s : State) : Answer :=
  .next { s with irqEn := irqEn, ctrlMode := if s.busy then s.ctrlMode else mode }

/-- CLEAR_STATUS (rule R234). -/
def execClearStatus (clearDone clearErr : Bool) (s : State) : Answer :=
  .next (flagsClear clearDone clearErr s)

end Sys2Proof.Machine
end

