-- ==== Sys2Proof/Machine/Stream.lean ====
section
/-! DEFINITION. The meanings of the stream directives in a decode: HEADER (42_decoder.md rules R192 to R195) and FOOTER
(rules R214 to R218). -/

namespace Sys2Proof.Machine

/-- The first check of rules R193 and R194 that fails, in their order (rule R264). -/
def headerError (w h : Word) (ch : Byte) (dstCap : Word) : Option ErrKind :=
  if !dimsOk w h then some .invalidDimensions
  else if !channelsOk ch then some .invalidChannelCount
  else if dstCap.toNat < (pixelCount w h).toNat * ch.toNat then some .outputOverflow
  else none

/-- The latches a header loads (rules R192, R195). -/
def headerLatches (w h : Word) (ch cs : Byte) (op : Latches) : Latches :=
  { op with w := w, h := h, ch := ch, cs := cs, npix := pixelCount w h,
            inPos := BitVec.ofNat 32 Config.headerLen, pix := 0 }

/-- HEADER: the field load (rule R192), the checks (rules R193, R194), the initialisation (rules R195, R32). -/
def execHeader (w h : Word) (ch cs : Byte) (s : State) : Answer :=
  match headerError w h ch s.op.dstCap with
  | some e => .next (raise e s)
  | none => .next { initCodec s with op := headerLatches w h ch cs s.op, fsm := .decChunk }

/-- The result registers of a decode (rule R216). -/
def writeResult (s : State) : State :=
  { s with width := s.op.w, height := s.op.h, channels := s.op.ch, colorspace := s.op.cs }

/-- The output length of a decode (rule R218). -/
def decodedLength (s : State) : Word := BitVec.ofNat 32 (s.op.npix.toNat * s.op.ch.toNat)

/-- FOOTER: `need(8)` (rule R214), the strict end (rule R215), completion (rules R216, R218, R233). -/
def execFooter (s : State) : Answer :=
  if s.op.inPos.toNat + Config.footerLen > s.op.srcLen.toNat then .next (raise .truncatedStream s)
  else if s.op.inPos.toNat + Config.footerLen ≠ s.op.srcLen.toNat then .next (raise .badFooter s)
  else .next (complete (decodedLength s) (writeResult s))

end Sys2Proof.Machine
end

