-- ==== Sys2Proof/Machine/Dispatch.lean ====
section
/-! DEFINITION. The meaning of each instruction, one arm a row of spec/opcode_table.json. -/

namespace Sys2Proof.Machine

def exec (i : Instr) (s : State) : Host.Outcome State Fault Refusal :=
  match i with
  -- stream chunks
  | .rgb r g b => Sys2Proof.Machine.execRgb r g b s
  | .rgba r g b a => Sys2Proof.Machine.execRgba r g b a s
  | .index idx => Sys2Proof.Machine.execIndex idx s
  | .diff dr dg db => Sys2Proof.Machine.execDiff dr dg db s
  | .luma dg drg dbg => Sys2Proof.Machine.execLuma dg drg dbg s
  | .run len => Sys2Proof.Machine.execRun len s
  -- stream directives
  | .header w h ch cs => Sys2Proof.Machine.execHeader w h ch cs s
  | .footer => Sys2Proof.Machine.execFooter s
  -- host commands
  | .startEncode irqEn => Sys2Proof.Machine.execStartEncode irqEn s
  | .startDecode irqEn => Sys2Proof.Machine.execStartDecode irqEn s
  | .setIrqEn mode irqEn => Sys2Proof.Machine.execSetIrqEn mode irqEn s
  | .clearStatus done err => Sys2Proof.Machine.execClearStatus done err s

end Sys2Proof.Machine
end

