-- ==== Sys2Proof/Machine/Fetch.lean ====
section
/-! DEFINITION. Fetching the decoder's instructions from the input window (42_decoder.md rules R190 to R196, R210,
R214): the checks before a byte is read, the bytes, the decoder; and placing an instruction where the next step
fetches it. The functions take the meaning of an instruction, `run`, as an argument. -/

namespace Sys2Proof.Machine

/-- Run what the decoder answered; bits it rejects end the operation with error `e`. -/
def runDecoded (run : Instr → State → Answer) (e : ErrKind) (x : Except DecodeError (Instr × List Byte)) (s : State) :
    Answer :=
  match x with
  | .ok (i, _) => run i s
  | .error _ => .next (raise e s)

/-- The window checks that stand first in every operation: AddressError (rule R61), then the refusal of a window over
the register block (rule R71, log 12). -/
def checkWindows (s : State) (k : Answer) : Answer :=
  if windowsIllegal s.op then .next (raise .addressError s)
  else if windowsOverRegisters s then .refused .windowOverRegisters
  else k

/-- DEC_CHECK: the windows, the length (rule R191), the magic (rule R192), then the header runs. All four magic bytes
are read before they are compared, so a bus error on a later one wins over a wrong earlier one: the model's choice (log
24). -/
def decCheck (run : Instr → State → Answer) (s : State) : Answer :=
  checkWindows s
    (if s.op.srcLen.toNat < Config.headerLen + Config.footerLen then .next (raise .truncatedStream s)
     else (readBytes 4 0 s).finish fun m s1 =>
       if m ≠ Config.magic then .next (raise .badMagic s1)
       else (readBytes 10 4 s1).finish fun bs s2 => runDecoded run .badMagic (decodeHeader (m ++ bs)) s2)

/-- DEC_CHUNK: the tag (rule R196), the payload its length asks for (rules R96, R210), then the chunk runs. -/
def decChunk (run : Instr → State → Answer) (s : State) : Answer :=
  if s.op.inPos.toNat + 1 > s.op.srcLen.toNat then .next (raise .truncatedStream s)
  else (readIn s.op.inPos.toNat s).finish fun t s1 =>
    if s1.op.inPos.toNat + chunkLength t > s1.op.srcLen.toNat then .next (raise .truncatedStream s1)
    else (readBytes (chunkLength t - 1) (s1.op.inPos.toNat + 1) s1).finish fun bs s2 =>
      runDecoded run .truncatedStream (decodeChunk (t :: bs)) s2

/-- DEC_FTR: `need(8)` and the eight bytes (rule R214), then the footer runs. All eight bytes are read before they are
compared, so a bus error on a later one wins over a wrong earlier one: the model's choice (log 24). -/
def decFooter (run : Instr → State → Answer) (s : State) : Answer :=
  if s.op.inPos.toNat + Config.footerLen > s.op.srcLen.toNat then .next (raise .truncatedStream s)
  else (readBytes Config.footerLen s.op.inPos.toNat s).finish fun bs s1 =>
    runDecoded run .badFooter (decodeFooter bs) s1

/-! ### Placing an instruction (log 15) -/

/-- A base address below which and above which the placed windows miss the register block. -/
def placeBase (p : Config.Params) : Word := if p.engineBase.toNat < 0x2000 then 0x10000 else 0

/-- The latches of a decode of a 64 x 1, four-channel image whose input window has `len` bytes, the cursor at `pos`,
`pix` pixels decoded. -/
def placeLatches (p : Config.Params) (len pos pix : Word) : Latches :=
  { mode := .decode, w := 64, h := 1, ch := 4, cs := 0, npix := 64,
    srcBase := placeBase p, srcLen := len, dstBase := placeBase p + 0x1000, dstCap := 256,
    inPos := pos, outPos := 0, pix := pix }

/-- `s` in the middle of a decode, in control state `fsm` with the latches `op`, with `bytes` at the cursor. -/
def placeStream (fsm : Fsm) (op : Latches) (bytes : List Byte) (s : State) : State :=
  { initCodec s with
    hostQ := [], ctrlMode := .decode, busy := true, done := false, err := false, errCode := 0, outLen := 0,
    fsm := fsm, op := op, reach := 0, inTaint := false, outTaint := false,
    mem := Memory.store bytes (op.srcBase.toNat + op.inPos.toNat) s.mem }

/-- `s` with the bits placed where the next step fetches them: a register write at the head of the host's queue, or
bytes of a stream at the cursor of a decode. -/
def placeCode (c : Code) (s : State) : State :=
  match c with
  | .header bs => placeStream .decCheck (placeLatches s.cfg 22 0 0) bs s
  | .chunk bs => placeStream .decChunk (placeLatches s.cfg 27 14 0) bs s
  | .footer bs => placeStream .decFtr (placeLatches s.cfg 22 14 64) bs s
  | .regWrite offset v => { s with hostQ := .regWrite offset .word v :: s.hostQ }

end Sys2Proof.Machine
end

