-- ==== Sys2Proof/Machine/Encoder.lean ====
section
/-! DEFINITION. The encode operation's steps (41_encoder.md rules R150 to R170): the checks, the header, one pixel,
the footer. The chunks are those of Instr, emitted by the encoder of Decode.lean. -/

namespace Sys2Proof.Machine

/-- The first configuration check that fails, in the order of rules R151 and R263 (rules R152, R153). -/
def encodeError (op : Latches) : Option ErrKind :=
  if !dimsOk op.w op.h then some .invalidDimensions
  else if !channelsOk op.ch then some .invalidChannelCount
  else if op.srcLen.toNat ≠ op.npix.toNat * op.ch.toNat then some .bufferSizeMismatch
  else if op.dstCap.toNat < 22 + op.npix.toNat * (op.ch.toNat + 1) then some .outputOverflow
  else none

/-- ENC_CHECK: the windows, the configuration, then the per-operation initialisation (rules R150, R151, R32). -/
def encCheck (s : State) : Answer :=
  checkWindows s
    (match encodeError s.op with
     | some e => .next (raise e s)
     | none => .next { initCodec s with op := { s.op with outPos := 0 }, fsm := .encHdr })

/-- ENC_HDR: the header bytes (rule R155). -/
def encHeader (s : State) : Answer :=
  (emitAll (headerBytes s.op.w s.op.h s.op.ch s.op.cs) s).finish fun _ s1 => .next { s1 with fsm := .encPix }

/-- Emit a RUN chunk for the current run and reset RUN (rules R157, R158). -/
def emitRun (s : State) : Acc Unit :=
  (emitAll (streamBytes (.run s.run.toNat)) s).bind fun _ s1 => .ok () { s1 with run := 0 }

/-- RUN continuation (rule R157): count, and flush at 62 or at the last pixel. -/
def continueRun (last : Bool) (s : State) : Acc Unit :=
  let s1 := { s with run := s.run + 1 }
  if s1.run.toNat = Config.runMax ∨ last then emitRun s1 else .ok () s1

/-- RUN flush before a differing pixel (rule R158). -/
def flushRun (s : State) : Acc Unit :=
  if s.run.toNat > 0 then emitRun s else .ok () s

/-- The delta chunk of a pixel that is not in its slot (rules R161 to R165, R167). -/
def deltaChunk (m : Config.DeltaMode) (prev p : Pixel) : Instr :=
  let dr := delta m p.r prev.r
  let dg := delta m p.g prev.g
  let db := delta m p.b prev.b
  if p.a = prev.a then
    if diffOk dr dg db then .diff dr dg db
    else if lumaOk dr dg db then .luma dg (dr - dg) (db - dg)
    else .rgb p.r p.g p.b
  else .rgba p.r p.g p.b p.a

/-- The chunk of a pixel that differs from PREV: INDEX if its slot holds it, else a delta chunk (rules R159, R167). -/
def chooseChunk (p : Pixel) (s : State) : Instr :=
  if s.cache.get (pixelHash p) = p then .index (pixelHash p) else deltaChunk s.cfg.deltaMode s.prev p

/-- The encoder's only cache write: a pixel its slot does not hold (rules R159, R160). -/
def storeColour (p : Pixel) (s : State) : State :=
  if s.cache.get (pixelHash p) = p then s else { s with cache := s.cache.set (pixelHash p) p }

/-- A pixel that differs from PREV (rules R158 to R166). -/
def encodeDiffering (p : Pixel) (s : State) : Acc Unit :=
  (flushRun s).bind fun _ s1 =>
    (emitAll (streamBytes (chooseChunk p s1)) (storeColour p s1)).bind fun _ s2 => .ok () { s2 with prev := p }

/-- ENCODE_PIXEL (rule R156). -/
def encodePixel (p : Pixel) (last : Bool) (s : State) : Acc Unit :=
  if p = s.prev then continueRun last s else encodeDiffering p s

/-- PixelAt(op.pix) (rule R121). -/
def fetchPixel (s : State) : Acc Pixel :=
  (readBytes s.op.ch.toNat (s.op.ch.toNat * s.op.pix.toNat) s).bind fun bs s1 => .ok (pixelOfBytes bs) s1

/-- The pixel at op.pix is the image's last (rule R156). -/
def isLastPixel (s : State) : Bool := decide (s.op.pix.toNat + 1 = s.op.npix.toNat)

/-- After a pixel: op.pix, the cursor of rule R30, the next control state (rule R297). -/
def afterPixel (s : State) : State :=
  let pix := s.op.pix + 1
  { s with
    op := { s.op with pix := pix, inPos := BitVec.ofNat 32 (s.op.ch.toNat * pix.toNat) }
    fsm := if pix.toNat < s.op.npix.toNat then .encPix else .encFtr }

/-- ENC_PIX: one pixel (rules R156, R297). -/
def encPixel (s : State) : Answer :=
  (fetchPixel s).finish fun p s1 => (encodePixel p (isLastPixel s1) s1).finish fun _ s2 => .next (afterPixel s2)

/-- ENC_FTR: the footer bytes and completion (rules R169, R170). -/
def encFooter (s : State) : Answer :=
  (emitAll Config.footer s).finish fun _ s1 => .next (complete s1.op.outPos s1)

end Sys2Proof.Machine
end

