-- ==== Sys2Proof/Machine/HostPort.lean ====
section
/-! DEFINITION. The host's side: register reads and writes (10_state.md rules R20 to R28, 43_host_commands.md rules
R236 and R237), accesses to host memory (rule R75) and RST (rules R290, R291). -/

namespace Sys2Proof.Machine

/-- A register access the model gives a meaning: 32-bit, at a multiple of 4 (rule R65). -/
def goodAccess (offset : BitVec 8) (size : AccessSize) : Bool :=
  decide (size = .word ∧ offset.toNat % 4 = 0)

/-- The word a register read returns (rules R20 to R28, R236). -/
def readReg (offset : BitVec 8) (s : State) : Word :=
  match offset.toNat with
  | 0x00 => Config.idValue
  | 0x04 => ctrlWord s
  | 0x08 => statusWord s
  | 0x0C => s.errCode.zeroExtend 32
  | 0x10 => s.width
  | 0x14 => s.height
  | 0x18 => (s.colorspace ++ s.channels).zeroExtend 32
  | 0x1C => s.srcBase
  | 0x20 => s.srcLen
  | 0x24 => s.dstBase
  | 0x28 => s.dstCap
  | 0x2C => s.outLen
  | _ => 0

/-- A write to a register that is not CTRL or STATUS: the RW registers take it while BUSY = 0, the others ignore it
(rules R20, R25 to R28, R38, R237). -/
def writeConfig (offset : BitVec 8) (v : Word) (s : State) : State :=
  if s.busy then s
  else match offset.toNat with
  | 0x10 => { s with width := v }
  | 0x14 => { s with height := v }
  | 0x18 => { s with channels := v.extractLsb' 0 8, colorspace := v.extractLsb' 8 8 }
  | 0x1C => { s with srcBase := v }
  | 0x20 => { s with srcLen := v }
  | 0x24 => { s with dstBase := v }
  | 0x28 => { s with dstCap := v }
  | _ => s

/-- A host write to the register block: a command runs as its instruction, another write configures (rules R65,
R230, R237). -/
def hostRegWrite (run : Instr → State → Answer) (offset : BitVec 8) (size : AccessSize) (v : Word) (s : State) :
    Answer :=
  if goodAccess offset size then
    match decodeRegWrite offset v with
    | .ok i => run i s
    | .error _ => .next (writeConfig offset v s)
  else .refused .badRegisterAccess

/-- The offset of a command register (rule R20). -/
def commandOffset : CommandReg → BitVec 8
  | .ctrl => ctrlOffset
  | .status => statusOffset

/-- The value a command register takes when it is written in the same cycle as the engine step from `s` to `t` (rule
R270, log 26). -/
def cycleValue (reg : CommandReg) (s t : State) (v : Word) : Word :=
  match reg with
  | .ctrl => v
  | .status => keepRaised s t v

/-- A write to CTRL or STATUS in the same cycle as an engine step, which answered `x`: the write is ordered after the
engine's update (rule R270, log 26). -/
def hostCycleWrite (run : Instr → State → Answer) (reg : CommandReg) (v : Word) (s : State) (x : Answer) : Answer :=
  match x with
  | .next t => hostRegWrite run (commandOffset reg) .word (cycleValue reg s t v) t
  | .fault f => .fault f
  | .refused r => .refused r

/-- A host read of the register block (rules R65, R236). -/
def hostRegRead (offset : BitVec 8) (size : AccessSize) (s : State) : Answer :=
  if goodAccess offset size then .next { s with rdata := readReg offset s } else .refused .badRegisterAccess

/-- A host write of one byte of memory. During BUSY a write to the input window makes the engine's later reads of it
unspecified, and a write to the output window its final contents (rule R75, log 10). A byte access to the register
block is refused (rule R65, log 11). -/
def hostMemWrite (addr : Word) (v : Byte) (s : State) : Answer :=
  if inRegisterBlock s.cfg addr.toNat then .refused .badRegisterAccess
  else .next { s with
    mem := Memory.write s.mem addr.toNat v
    inTaint := s.inTaint || (s.busy && inSrcWindow s addr.toNat)
    outTaint := s.outTaint || (s.busy && inDstWindow s addr.toNat) }

/-- A host read of one byte of memory. During BUSY a read of the output window returns an unspecified value, and the
window's final contents are unspecified (rule R75, log 10). -/
def hostMemRead (addr : Word) (s : State) : Answer :=
  if inRegisterBlock s.cfg addr.toNat then .refused .badRegisterAccess
  else if s.busy && inDstWindow s addr.toNat then
    .next { s with rdata := (Config.freeByte s.draws).zeroExtend 32, draws := s.draws + 1, outTaint := true }
  else .next { s with rdata := (Memory.read s.mem addr.toNat).zeroExtend 32 }

/-- Memory after RST: during BUSY every byte of the output window is unspecified and the input window is unchanged
(rules R291, R292, log 9). -/
def resetOutput (s : State) : State :=
  if s.busy then scrambleOutput (inSrcWindow s) s.op.dstCap.toNat s else s

/-- RST asserted and released (rules R290 to R292). The parameters, host memory and the host's own state stay. -/
def hostReset (s : State) : State :=
  { State.reset with
    cfg := s.cfg, mem := (resetOutput s).mem, draws := (resetOutput s).draws, hostQ := s.hostQ, rdata := s.rdata }

end Sys2Proof.Machine
end

