-- ==== Sys2Proof/Machine/Engine.lean ====
section
/-! DEFINITION. One turn of the machine: the step table of 70_reset_and_hazards.md rule R297 for the engine, and the
host's action at the head of its queue. The meaning of an instruction, `run`, is an argument. -/

namespace Sys2Proof.Machine

/-- One step of the engine from its control state (rules R35, R297). In IDLE the engine has no step: nothing
changes (log 2). -/
def engineTurn (run : Instr → State → Answer) (s : State) : Answer :=
  match s.fsm with
  | .idle => .next s
  | .encCheck => encCheck s
  | .encHdr => encHeader s
  | .encPix => encPixel s
  | .encFtr => encFooter s
  | .decCheck => decCheck run s
  | .decChunk => decChunk run s
  | .decFtr => decFooter run s

/-- One action of the host, already taken off its queue. -/
def hostTurn (run : Instr → State → Answer) (op : HostOp) (s : State) : Answer :=
  match op with
  | .engineTurn => engineTurn run s
  | .regWrite offset size v => hostRegWrite run offset size v s
  | .cycleWrite reg v => hostCycleWrite run reg v s (engineTurn run s)
  | .regRead offset size => hostRegRead offset size s
  | .memWrite addr v => hostMemWrite addr v s
  | .memRead addr => hostMemRead addr s
  | .rst => .next (hostReset s)

/-- One turn: the host's next action, or, when it has none, the engine's step (log 1). -/
def turn (run : Instr → State → Answer) (s : State) : Answer :=
  match s.hostQ with
  | [] => engineTurn run s
  | op :: rest => hostTurn run op { s with hostQ := rest }

end Sys2Proof.Machine
end

