-- ==== Sys2Proof/Machine/Step.lean ====
section
/-! DEFINITION. The step of the machine, and placing an instruction where the next step fetches it. -/

namespace Sys2Proof.Machine

/-- One step: one turn of the host or the engine, with `exec` the meaning of instructions. -/
def step (s : State) : Host.Outcome State Fault Refusal := turn exec s

/-- `s` with the instruction of a table word placed where the next step fetches it (log 15). -/
def State.withFetchWord (s : State) (nbits w : Nat) : State := placeCode (tableCode nbits w) s

end Sys2Proof.Machine
end

