-- ==== Sys2Proof/Safety.lean ====
section
/-! DEFINITION. The terms claims are stated in: when the engine's accesses complete, what a chunk does to the state, the
invariant of the machine, and the relation between an encoder and a decoder at the same point of a stream. -/

namespace Sys2Proof.Machine

/-! ### Accesses -/

/-- The platform answers each of the next `n` engine accesses without a bus error: trivially where BUS_FAULTS is
false (rule R267). -/
def AccessesAnswered (s : State) (n : Nat) : Prop :=
  s.cfg.busFaults = true → ∀ k, k < n → Config.busError (s.draws + k) = false

/-- The `n` bytes of the input window from offset `off`, as memory holds them. -/
def srcBytes (s : State) (off n : Nat) : List Byte :=
  (List.range n).map fun k => Memory.read s.mem (s.op.srcBase.toNat + off + k)

/-- Every engine read of the input window returns the byte in memory: no bus errors, the window inside the address
space, and the host has kept its duty (rules R61, R73, R75, R267). -/
structure ReadsMemory (s : State) : Prop where
  noFaults : s.cfg.busFaults = false
  inSpace : s.op.srcBase.toNat + s.op.srcLen.toNat ≤ Config.addressSpace
  dutyKept : s.inTaint = false

/-! ### The effect of a chunk -/

/-- The output of the operation fits its window (rules R61, R93, R194), and no more pixels are decoded than there
are. -/
structure OutputFits (op : Latches) : Prop where
  channels : op.ch = 3 ∨ op.ch = 4
  count : op.npix.toNat ≤ Config.pixelsMax
  capacity : op.npix.toNat * op.ch.toNat ≤ op.dstCap.toNat
  inSpace : op.dstBase.toNat + op.dstCap.toNat ≤ Config.addressSpace
  sofar : op.pix.toNat ≤ op.npix.toNat

/-- The state `t` is `s` after a chunk of `len` bytes that stands for `cnt` pixels `p` (rules R201, R205, R206): the
fields named change as given, every other field is as in `s`; `mem`, `draws` and `reach` are described by the other
clauses or are the model's own. -/
structure ChunkEffect (s t : State) (len : Nat) (p : Pixel) (cnt : Nat) : Prop where
  fields : t = { s with
    prev := p
    cache := s.cache.set (pixelHash p) p
    op := { s.op with
      inPos := BitVec.ofNat 32 (s.op.inPos.toNat + len)
      pix := BitVec.ofNat 32 (min (s.op.pix.toNat + cnt) s.op.npix.toNat) }
    fsm := if s.op.pix.toNat + cnt < s.op.npix.toNat then .decChunk else .decFtr
    mem := t.mem
    draws := t.draws
    reach := t.reach }
  written : ∀ i j, s.op.pix.toNat + i < min (s.op.pix.toNat + cnt) s.op.npix.toNat → j < s.op.ch.toNat →
    Memory.read t.mem (s.op.dstBase.toNat + s.op.ch.toNat * (s.op.pix.toNat + i) + j)
      = [p.r, p.g, p.b, p.a].getD j 0
  elsewhere : ∀ a, (a < s.op.dstBase.toNat + s.op.ch.toNat * s.op.pix.toNat ∨
      s.op.dstBase.toNat + s.op.ch.toNat * min (s.op.pix.toNat + cnt) s.op.npix.toNat ≤ a) →
    Memory.read t.mem a = Memory.read s.mem a

/-- When a chunk of `len` bytes and `cnt` pixels executes to its end: its bytes are there (rule R210), the output
fits, the platform answers the writes, and memory is in its canonical form. -/
structure ChunkReady (s : State) (len cnt : Nat) : Prop where
  bytes : s.op.inPos.toNat + len ≤ s.op.srcLen.toNat
  fits : OutputFits s.op
  answered : AccessesAnswered s (s.op.ch.toNat * min cnt (s.op.npix.toNat - s.op.pix.toNat))
  mem : Memory.wf s.mem

/-! ### What the encoder does with a pixel -/

/-- The bytes `bs` were emitted from `s` (rule R12): they stand at the output cursor, which moved past them, and every
other byte of memory is as before. -/
structure Emitted (s t : State) (bs : List Byte) : Prop where
  cursor : t.op.outPos.toNat = s.op.outPos.toNat + bs.length
  written : ∀ i, i < bs.length →
    Memory.read t.mem (s.op.dstBase.toNat + s.op.outPos.toNat + i) = bs.getD i 0
  elsewhere : ∀ a, (a < s.op.dstBase.toNat + s.op.outPos.toNat ∨
      s.op.dstBase.toNat + s.op.outPos.toNat + bs.length ≤ a) →
    Memory.read t.mem a = Memory.read s.mem a

/-- The chunks ENCODE_PIXEL emits for pixel `p` (rules R156 to R159, R167). -/
def pixelChunks (p : Pixel) (last : Bool) (s : State) : List Instr :=
  if p = s.prev then
    if s.run.toNat + 1 = 62 ∨ last = true then [.run (s.run.toNat + 1)] else []
  else (if s.run.toNat > 0 then [.run s.run.toNat] else []) ++ [chooseChunk p s]

/-- The bytes of a list of chunks. -/
def bytesOfChunks (is : List Instr) : List Byte := (is.map streamBytes).flatten

/-- Execute chunks one after another, as the decoder does with the chunks of a stream. -/
def execAll : List Instr → State → Answer
  | [], s => .next s
  | i :: is, s =>
    match exec i s with
    | .next t => execAll is t
    | .fault f => .fault f
    | .refused r => .refused r

/-- `d` is the encoder's delta of channel value `c` against `q` (rule R126): under WRAP8 the signed byte congruent to
`c - q` mod 256, under WIDE the difference itself. -/
def IsDelta (m : Config.DeltaMode) (c q : Byte) (d : Int) : Prop :=
  match m with
  | .wrap8 => -128 ≤ d ∧ d ≤ 127 ∧ ((c.toNat : Int) - q.toNat - d) % 256 = 0
  | .wide => d = (c.toNat : Int) - q.toNat

/-- Pixel number `n` of the input buffer, as memory holds it (rules R68, R121). -/
def pixelAt (s : State) (n : Nat) : Pixel :=
  let base := s.op.srcBase.toNat + s.op.ch.toNat * n
  { r := Memory.read s.mem base
    g := Memory.read s.mem (base + 1)
    b := Memory.read s.mem (base + 2)
    a := if s.op.ch = 4 then Memory.read s.mem (base + 3) else 255 }

/-- Rule R34, item 3: the last RUN input pixels all equal PREV. -/
def PendingRun (s : State) : Prop :=
  ∀ i, i < s.run.toNat → i < s.op.pix.toNat → pixelAt s (s.op.pix.toNat - 1 - i) = s.prev

/-- The output window has room, inside the address space, for `n` more emitted bytes. -/
def RoomFor (s : State) (n : Nat) : Prop :=
  s.op.outPos.toNat + n ≤ s.op.dstCap.toNat ∧ s.op.dstBase.toNat + s.op.dstCap.toNat ≤ Config.addressSpace

/-! ### The invariant -/

/-- The checks of an operation have passed (rules R61, R93, R152, R193). -/
structure Checked (op : Latches) : Prop where
  windows : windowsIllegal op = false
  dims : dimsOk op.w op.h = true
  channels : op.ch = 3 ∨ op.ch = 4
  count : op.npix = pixelCount op.w op.h

/-- Rule R34, items 1 and 4: the slot of PREV holds PREV, and a slot holds the initial pixel or a pixel that hashes
to it. -/
structure CodecOk (s : State) : Prop where
  own : s.cache.get (pixelHash s.prev) = s.prev
  slots : ∀ k, s.cache.get k = Config.initPixel ∨ pixelHash (s.cache.get k) = k

/-- What holds of a running encode whose checks have passed. -/
structure EncodeOk (s : State) : Prop where
  mode : s.op.mode = .encode
  checked : Checked s.op
  input : s.op.srcLen.toNat = s.op.npix.toNat * s.op.ch.toNat
  output : 22 + s.op.npix.toNat * (s.op.ch.toNat + 1) ≤ s.op.dstCap.toNat
  codec : CodecOk s
  opaqueAlpha : s.op.ch = 3 → s.prev.a = 255
  reached : s.reach = s.op.outPos.toNat

/-- What holds of a running decode whose checks have passed. -/
structure DecodeOk (s : State) : Prop where
  mode : s.op.mode = .decode
  checked : Checked s.op
  output : s.op.npix.toNat * s.op.ch.toNat ≤ s.op.dstCap.toNat
  codec : CodecOk s
  cursor : 14 ≤ s.op.inPos.toNat ∧ s.op.inPos.toNat ≤ s.op.srcLen.toNat
  runUnused : s.run = 0
  reached : s.reach = s.op.ch.toNat * s.op.pix.toNat

/-- What holds in each control state (rules R30, R34, R168, R197). -/
def PhaseOk (s : State) : Prop :=
  match s.fsm with
  | .idle => s.reach = 0 ∧ s.inTaint = false ∧ s.outTaint = false
  | .encCheck => s.op.mode = .encode ∧ s.op.npix = pixelCount s.op.w s.op.h ∧
      s.op.inPos = 0 ∧ s.op.outPos = 0 ∧ s.op.pix = 0 ∧ s.reach = 0
  | .encHdr => EncodeOk s ∧ s.op.inPos = 0 ∧ s.op.outPos = 0 ∧ s.op.pix = 0 ∧ s.run = 0
  | .encPix => EncodeOk s ∧ s.op.pix.toNat < s.op.npix.toNat ∧ s.run.toNat ≤ 61 ∧
      s.op.inPos.toNat = s.op.ch.toNat * s.op.pix.toNat ∧ 14 ≤ s.op.outPos.toNat ∧
      s.op.outPos.toNat + (if s.run.toNat = 0 then 0 else 1) ≤ 14 + s.op.pix.toNat * (s.op.ch.toNat + 1)
  | .encFtr => EncodeOk s ∧ s.op.pix.toNat = s.op.npix.toNat ∧ s.run = 0 ∧
      14 ≤ s.op.outPos.toNat ∧ s.op.outPos.toNat ≤ 14 + s.op.npix.toNat * (s.op.ch.toNat + 1)
  | .decCheck => s.op.mode = .decode ∧ s.op.inPos = 0 ∧ s.op.outPos = 0 ∧ s.op.pix = 0 ∧ s.reach = 0
  | .decChunk => DecodeOk s ∧ s.op.pix.toNat < s.op.npix.toNat
  | .decFtr => DecodeOk s ∧ s.op.pix.toNat = s.op.npix.toNat

/-- The invariant of the machine: memory is in its canonical form; at most one of BUSY, DONE and ERR is 1 (rule R23);
BUSY says that the engine is not IDLE (rule R35); no reserved error code appears (rules R24, R261); a running
operation shows no result (rules R24, R28, R236); and the phase is in order. -/
structure Inv (s : State) : Prop where
  mem : Memory.wf s.mem
  exclusive : (s.busy && s.done) = false ∧ (s.busy && s.err) = false ∧ (s.done && s.err) = false
  busyIff : s.busy = true ↔ s.fsm ≠ .idle
  code : s.errCode.toNat ≤ 9
  codeOk : (s.busy = true ∨ s.done = true → s.errCode = 0) ∧ (s.err = true → s.errCode ≠ 0)
  noResult : s.busy = true ∨ s.err = true → s.outLen = 0
  latched : s.busy = true → s.ctrlMode = s.op.mode
  phase : PhaseOk s

/-! ### Encoder and decoder at the same point of a stream -/

/-- The decoder `d` has executed every chunk the encoder `e` has emitted: their PREV and caches agree, and the decoder
lacks only the pixels of the run the encoder has not flushed (rule R34, item 5). -/
structure InStep (e d : State) : Prop where
  prev : d.prev = e.prev
  cache : d.cache = e.cache
  pixels : d.op.pix.toNat + e.run.toNat = e.op.pix.toNat

/-- The host registers an operation does not read (rules R29, R38). -/
structure HostRegs where
  ctrlMode : Mode
  irqEn : Bool
  width : Word
  height : Word
  channels : Byte
  colorspace : Byte
  srcBase : Word
  srcLen : Word
  dstBase : Word
  dstCap : Word
deriving DecidableEq, Repr

/-- `s` with other values in the host registers. -/
def withHostRegs (r : HostRegs) (s : State) : State :=
  { s with
    ctrlMode := r.ctrlMode, irqEn := r.irqEn, width := r.width, height := r.height, channels := r.channels,
    colorspace := r.colorspace, srcBase := r.srcBase, srcLen := r.srcLen, dstBase := r.dstBase, dstCap := r.dstCap }

/-- The same change made to the next state of an answer. -/
def mapNext (f : State → State) : Answer → Answer
  | .next s => .next (f s)
  | .fault r => .fault r
  | .refused r => .refused r

end Sys2Proof.Machine
end

