-- ==== Sys2Proof/Certificates/Slice0/Obligations.lean ====
section
/-! DEFINITION. The statements for the provers, from the numbered rules of spec/. -/

open Sys2Proof Sys2Proof.Machine

/-! ### Encoding (30_encoding.md) -/

/-- Words written out from rules R91, R94, R97 to R102 and R110 decode to what they stand for. -/
def Obligations.WrittenOutWordsDecode : Prop :=
  decode (.chunk [0xFE, 0x05, 0xC8, 0x07]) = .ok (.rgb 5 200 7) ∧
  decode (.chunk [0xFF, 0x00, 0x00, 0xFF, 0x80]) = .ok (.rgba 0 0 255 128) ∧
  decode (.chunk [0b00110101]) = .ok (.index 53) ∧
  decode (.chunk [0b01001011]) = .ok (.diff (-2) 0 1) ∧
  decode (.chunk [0b10011111, 0b01111010]) = .ok (.luma (-1) (-1) 2) ∧
  decode (.chunk [0b11111101]) = .ok (.run 62) ∧
  decode (.header [0x71, 0x6F, 0x69, 0x66, 0x00, 0x00, 0x4E, 0x20, 0x00, 0x00, 0x4E, 0x21, 0x03, 0x01])
    = .ok (.header 20000 20001 3 1) ∧
  decode (.footer [0, 0, 0, 0, 0, 0, 0, 1]) = .ok .footer ∧
  decode (.regWrite 0x04 0x05) = .ok (.startEncode true) ∧
  decode (.regWrite 0x04 0x03) = .ok (.startDecode false) ∧
  decode (.regWrite 0x04 0x04) = .ok (.setIrqEn .encode true) ∧
  decode (.regWrite 0x08 0x06) = .ok (.clearStatus true true)

/-- Rules R95, R103 and R109: the 256 tag bytes split among the six chunk kinds, with their operands and lengths. -/
def Obligations.TagByteSelectsChunk : Prop :=
  ∀ (t u v x y : Byte) (rest : List Byte),
    decodeChunk (t :: u :: v :: x :: y :: rest) =
      if t.toNat ≤ 0x3F then .ok (.index (Fin.ofNat 64 t.toNat), u :: v :: x :: y :: rest)
      else if t.toNat ≤ 0x7F then
        .ok (.diff ((t.toNat / 16 % 4 : Nat) - 2) ((t.toNat / 4 % 4 : Nat) - 2) ((t.toNat % 4 : Nat) - 2),
          u :: v :: x :: y :: rest)
      else if t.toNat ≤ 0xBF then
        .ok (.luma ((t.toNat % 64 : Nat) - 32) ((u.toNat / 16 : Nat) - 8) ((u.toNat % 16 : Nat) - 8),
          v :: x :: y :: rest)
      else if t.toNat ≤ 0xFD then .ok (.run (t.toNat % 64 + 1), u :: v :: x :: y :: rest)
      else if t.toNat = 0xFE then .ok (.rgb u v x, y :: rest)
      else .ok (.rgba u v x y, rest)

/-- Decoding what the encoder writes for a well-formed instruction gives it back, with every operand at every value. -/
def Obligations.DecodeOfEncode : Prop :=
  ∀ i : Instr, i.WellFormed → decode (encode i) = .ok i

/-- What the stream decoders answer is well-formed, and its bytes are the bytes that were read. -/
def Obligations.EncodeOfDecode : Prop :=
  ∀ (bs rest : List Byte) (i : Instr),
    decodeChunk bs = .ok (i, rest) ∨ decodeHeader bs = .ok (i, rest) ∨ decodeFooter bs = .ok (i, rest) →
      i.WellFormed ∧ streamBytes i ++ rest = bs

/-- Rule R104: a chunk is rejected only because its bytes run past the end of the input. -/
def Obligations.OnlyMissingBytesRejectAChunk : Prop :=
  ∀ (bs : List Byte) (e : DecodeError),
    decodeChunk bs = .error e ↔
      e = .short ∧ (bs = [] ∨ ∃ t rest, bs = t :: rest ∧ rest.length + 1 < chunkLength t)

/-- Rule R129: a biased field is the operand plus its bias, the operand is the field less its bias, and each map is a
bijection between its range and its field; a RUN's field is its length less one. -/
def Obligations.BiasedFieldsAreBijections : Prop :=
  (∀ d : Int, -2 ≤ d → d ≤ 1 → ((biased 2 d 2).toNat : Int) = d + 2 ∧ unbias (biased 2 d 2).toNat 2 = d) ∧
  (∀ d : Int, -32 ≤ d → d ≤ 31 → ((biased 6 d 32).toNat : Int) = d + 32 ∧ unbias (biased 6 d 32).toNat 32 = d) ∧
  (∀ d : Int, -8 ≤ d → d ≤ 7 → ((biased 4 d 8).toNat : Int) = d + 8 ∧ unbias (biased 4 d 8).toNat 8 = d) ∧
  (∀ len : Nat, 1 ≤ len → len ≤ 62 → field (runByte len) 0 6 = len - 1 ∧ len - 1 ≤ 61) ∧
  (∀ f : BitVec 2, -2 ≤ unbias f.toNat 2 ∧ unbias f.toNat 2 ≤ 1 ∧ biased 2 (unbias f.toNat 2) 2 = f) ∧
  (∀ f : BitVec 6, -32 ≤ unbias f.toNat 32 ∧ unbias f.toNat 32 ≤ 31 ∧ biased 6 (unbias f.toNat 32) 32 = f) ∧
  (∀ f : BitVec 4, -8 ≤ unbias f.toNat 8 ∧ unbias f.toNat 8 ≤ 7 ∧ biased 4 (unbias f.toNat 8) 8 = f) ∧
  (∀ f : Nat, f ≤ 61 → 1 ≤ f + 1 ∧ f + 1 ≤ 62 ∧ field (runByte (f + 1)) 0 6 = f)

/-- Rule R108: RUNS n is floor((n-1)/62) copies of RUN 62, then one RUN of the length left, which is in 1..62. -/
def Obligations.RunsExpansion : Prop :=
  ∀ n : Nat, 1 ≤ n →
    expandRuns n = List.replicate ((n - 1) / 62) (Instr.run 62) ++ [Instr.run (n - 62 * ((n - 1) / 62))] ∧
    1 ≤ n - 62 * ((n - 1) / 62) ∧ n - 62 * ((n - 1) / 62) ≤ 62 ∧ ∀ i ∈ expandRuns n, i.WellFormed

/-! ### Shared primitives (40_shared_primitives.md) -/

/-- Rule R123: the hash may be computed at any width of at least 6 bits, wrapping after each operation. -/
def Obligations.HashAtAnyWidth : Prop :=
  ∀ (k : Nat) (p : Pixel), 6 ≤ k →
    (pixelHash p).val =
      (BitVec.ofNat k 3 * BitVec.ofNat k p.r.toNat + BitVec.ofNat k 5 * BitVec.ofNat k p.g.toNat +
        BitVec.ofNat k 7 * BitVec.ofNat k p.b.toNat + BitVec.ofNat k 11 * BitVec.ofNat k p.a.toNat).toNat % 64

/-- Rule R130: in both delta modes, the deltas the encoder would send bring PREV back to the pixel. -/
def Obligations.PredictorRoundTrip : Prop :=
  ∀ (m : Config.DeltaMode) (p prev : Pixel) (dr dg db : Int),
    IsDelta m p.r prev.r dr → IsDelta m p.g prev.g dg → IsDelta m p.b prev.b db →
    delta m p.r prev.r = dr ∧ delta m p.g prev.g = dg ∧ delta m p.b prev.b = db ∧
    (p.a = prev.a → diffOk dr dg db = true → diffPixel prev dr dg db = p) ∧
    (p.a = prev.a → lumaOk dr dg db = true → lumaPixel prev dg (dr - dg) (db - dg) = p)

/-! ### A step runs the decoded instruction -/

/-- When the engine reads memory and the bytes of the stream where it stands decode to an instruction, the step is
that instruction's `exec`, with nothing around it: a chunk at the cursor, the header of a stream whose windows are
legal and whose length is at least 22, the footer at the cursor. -/
def Obligations.StepRunsStreamInstruction : Prop :=
  ∀ (s : State) (i : Instr) (rest : List Byte), s.hostQ = [] → ReadsMemory s →
    (s.fsm = .decChunk →
      decodeChunk (srcBytes s s.op.inPos.toNat (s.op.srcLen.toNat - s.op.inPos.toNat)) = .ok (i, rest) →
      step s = exec i s) ∧
    (s.fsm = .decCheck → windowsIllegal s.op = false → windowsOverRegisters s = false → 22 ≤ s.op.srcLen.toNat →
      decodeHeader (srcBytes s 0 14) = .ok (i, rest) → step s = exec i s) ∧
    (s.fsm = .decFtr → s.op.inPos.toNat + 8 ≤ s.op.srcLen.toNat →
      decodeFooter (srcBytes s s.op.inPos.toNat 8) = .ok (i, rest) → step s = exec i s)

/-- A 32-bit host write to an aligned offset that decodes to a command: the step takes it off the host's queue (the
model's own, log 1) and is the command's `exec`. A write to CTRL or STATUS in the same cycle as an engine step is the
command's `exec` after that step (rule R270); a write to STATUS does not then clear what the step raised (log 26). -/
def Obligations.StepRunsHostCommand : Prop :=
  (∀ (s : State) (offset : BitVec 8) (v : Word) (rest : List HostOp) (i : Instr),
    s.hostQ = .regWrite offset .word v :: rest → offset.toNat % 4 = 0 → decodeRegWrite offset v = .ok i →
    step s = exec i { s with hostQ := rest }) ∧
  ∀ (s u : State) (v : Word) (rest : List HostOp), engineTurn exec { s with hostQ := rest } = .next u →
    (∀ i, s.hostQ = .cycleWrite .ctrl v :: rest → decodeRegWrite 0x04 v = .ok i → step s = exec i u) ∧
    (s.hostQ = .cycleWrite .status v :: rest →
      step s = exec (.clearStatus (v.getLsbD 1 && !(u.done && !s.done)) (v.getLsbD 2 && !(u.err && !s.err))) u)

/-- Bytes the decoder turns away: a stream shorter than 22 bytes, a wrong magic, a chunk or a footer cut short, eight
bytes that are not the footer (rules R191, R192, R210, R214). -/
def Obligations.DecoderRejectsBadStreams : Prop :=
  ∀ s : State, s.hostQ = [] → ReadsMemory s →
    (s.fsm = .decCheck → windowsIllegal s.op = false → windowsOverRegisters s = false → s.op.srcLen.toNat < 22 →
      step s = .next (raise .truncatedStream s)) ∧
    (s.fsm = .decCheck → windowsIllegal s.op = false → windowsOverRegisters s = false → 22 ≤ s.op.srcLen.toNat →
      srcBytes s 0 4 ≠ [0x71, 0x6F, 0x69, 0x66] → step s = .next (raise .badMagic s)) ∧
    (s.fsm = .decChunk → s.op.srcLen.toNat < s.op.inPos.toNat + 1 → step s = .next (raise .truncatedStream s)) ∧
    (s.fsm = .decChunk → s.op.inPos.toNat + 1 ≤ s.op.srcLen.toNat →
      s.op.srcLen.toNat < s.op.inPos.toNat +
        chunkLength (Memory.read s.mem (s.op.srcBase.toNat + s.op.inPos.toNat)) →
      step s = .next (raise .truncatedStream s)) ∧
    (s.fsm = .decFtr → s.op.srcLen.toNat < s.op.inPos.toNat + 8 → step s = .next (raise .truncatedStream s)) ∧
    (s.fsm = .decFtr → s.op.inPos.toNat + 8 ≤ s.op.srcLen.toNat →
      srcBytes s s.op.inPos.toNat 8 ≠ [0, 0, 0, 0, 0, 0, 0, 1] → step s = .next (raise .badFooter s))

/-! ### Chunks (42_decoder.md) -/

/-- RGB (rule R198): tag 0xFE and three raw bytes; alpha is PREV.a; TruncatedStream if the payload is missing. -/
def Obligations.RgbChunk : Prop :=
  (∀ (r g b : Byte) (rest : List Byte), decodeChunk (0xFE :: r :: g :: b :: rest) = .ok (.rgb r g b, rest)) ∧
  ∀ (s : State) (r g b : Byte),
    (ChunkReady s 4 1 → ∃ t, exec (.rgb r g b) s = .next t ∧ ChunkEffect s t 4 { r := r, g := g, b := b, a := s.prev.a } 1) ∧
    (s.op.srcLen.toNat < s.op.inPos.toNat + 4 → exec (.rgb r g b) s = .next (raise .truncatedStream s))

/-- RGBA (rule R199): tag 0xFF and four raw bytes, whatever the channel count. -/
def Obligations.RgbaChunk : Prop :=
  (∀ (r g b a : Byte) (rest : List Byte),
    decodeChunk (0xFF :: r :: g :: b :: a :: rest) = .ok (.rgba r g b a, rest)) ∧
  ∀ (s : State) (r g b a : Byte),
    (ChunkReady s 5 1 → ∃ t, exec (.rgba r g b a) s = .next t ∧ ChunkEffect s t 5 { r := r, g := g, b := b, a := a } 1) ∧
    (s.op.srcLen.toNat < s.op.inPos.toNat + 5 → exec (.rgba r g b a) s = .next (raise .truncatedStream s))

/-- INDEX (rule R200): tags 0x00 to 0x3F; the slot's pixel verbatim, stored again at its own hash. -/
def Obligations.IndexChunk : Prop :=
  (∀ (t : Byte) (rest : List Byte), t.toNat ≤ 0x3F →
    decodeChunk (t :: rest) = .ok (.index (Fin.ofNat 64 t.toNat), rest)) ∧
  ∀ (s : State) (idx : Fin 64),
    ChunkReady s 1 1 → ∃ t, exec (.index idx) s = .next t ∧ ChunkEffect s t 1 (s.cache.get idx) 1

/-- DIFF (rule R202): tags 0x40 to 0x7F; each channel wraps mod 256, alpha is PREV.a. -/
def Obligations.DiffChunk : Prop :=
  (∀ (t : Byte) (rest : List Byte), 0x40 ≤ t.toNat → t.toNat ≤ 0x7F →
    decodeChunk (t :: rest) =
      .ok (.diff ((t.toNat / 16 % 4 : Nat) - 2) ((t.toNat / 4 % 4 : Nat) - 2) ((t.toNat % 4 : Nat) - 2), rest)) ∧
  ∀ (s : State) (dr dg db : Int),
    ChunkReady s 1 1 → ∃ t p, exec (.diff dr dg db) s = .next t ∧ ChunkEffect s t 1 p 1 ∧
      (p.r.toNat : Int) = (s.prev.r.toNat + dr) % 256 ∧ (p.g.toNat : Int) = (s.prev.g.toNat + dg) % 256 ∧
      (p.b.toNat : Int) = (s.prev.b.toNat + db) % 256 ∧ p.a = s.prev.a

/-- LUMA (rule R203): tags 0x80 to 0xBF and one byte; red and blue move by dg plus their secondary deltas;
TruncatedStream if the second byte is missing. -/
def Obligations.LumaChunk : Prop :=
  (∀ (t u : Byte) (rest : List Byte), 0x80 ≤ t.toNat → t.toNat ≤ 0xBF →
    decodeChunk (t :: u :: rest) =
      .ok (.luma ((t.toNat % 64 : Nat) - 32) ((u.toNat / 16 : Nat) - 8) ((u.toNat % 16 : Nat) - 8), rest)) ∧
  ∀ (s : State) (dg drg dbg : Int),
    (ChunkReady s 2 1 → ∃ t p, exec (.luma dg drg dbg) s = .next t ∧ ChunkEffect s t 2 p 1 ∧
      (p.r.toNat : Int) = (s.prev.r.toNat + dg + drg) % 256 ∧ (p.g.toNat : Int) = (s.prev.g.toNat + dg) % 256 ∧
      (p.b.toNat : Int) = (s.prev.b.toNat + dg + dbg) % 256 ∧ p.a = s.prev.a) ∧
    (s.op.srcLen.toNat < s.op.inPos.toNat + 2 → exec (.luma dg drg dbg) s = .next (raise .truncatedStream s))

/-- RUN (rules R204, R205): tags 0xC0 to 0xFD, length the field plus one; copies of PREV, the excess over the pixels
left dropped. -/
def Obligations.RunChunk : Prop :=
  (∀ (t : Byte) (rest : List Byte), 0xC0 ≤ t.toNat → t.toNat ≤ 0xFD →
    decodeChunk (t :: rest) = .ok (.run (t.toNat % 64 + 1), rest)) ∧
  ∀ (s : State) (len : Nat),
    ChunkReady s 1 len → ∃ t, exec (.run len) s = .next t ∧ ChunkEffect s t 1 s.prev len

/-- Rule R207: where PREV's slot holds PREV, a RUN leaves the cache unchanged. -/
def Obligations.RunLeavesCacheUnchanged : Prop :=
  ∀ (s : State) (len : Nat), CodecOk s → ChunkReady s 1 len →
    ∃ t, exec (.run len) s = .next t ∧ t.cache = s.cache ∧ t.prev = s.prev

/-- Rule R208: the channel count changes only the bytes written; PREV, the cache, the cursor, the pixel count and the
control state after a chunk are the same for 3 and 4 channels. -/
def Obligations.ChannelCountChangesOnlyOutput : Prop :=
  ∀ (s t t' : State) (i : Instr) (bs rest : List Byte), decodeChunk bs = .ok (i, rest) →
    exec i { s with op := { s.op with ch := 3 } } = .next t →
    exec i { s with op := { s.op with ch := 4 } } = .next t' → t.err = s.err → t'.err = s.err → s.err = false →
    t'.prev = t.prev ∧ t'.cache = t.cache ∧ t'.fsm = t.fsm ∧ t'.op = { t.op with ch := 4 }

/-! ### Header and footer of a decode (42_decoder.md) -/

/-- HEADER accepted (rules R192, R195): the fields are latched and the codec state is initialised. RUN, which rule R195
says the decoder does not use, is set as rule R32 says (log 20). -/
def Obligations.HeaderAccepted : Prop :=
  ∀ (s : State) (w h : Word) (ch cs : Byte),
    1 ≤ w.toNat → 1 ≤ h.toNat → w.toNat * h.toNat ≤ 400000000 → ch = 3 ∨ ch = 4 →
    w.toNat * h.toNat * ch.toNat ≤ s.op.dstCap.toNat →
    exec (.header w h ch cs) s = .next { s with
      prev := { r := 0, g := 0, b := 0, a := 255 }
      run := 0
      cache := Vector.replicate 64 { r := 0, g := 0, b := 0, a := 255 }
      op := { s.op with
        w := w, h := h, ch := ch, cs := cs, npix := BitVec.ofNat 64 (w.toNat * h.toNat), inPos := 14, pix := 0 }
      fsm := .decChunk }

/-- HEADER rejected (rules R193, R194): dimensions, then channels, then the output capacity. -/
def Obligations.HeaderRejected : Prop :=
  ∀ (s : State) (w h : Word) (ch cs : Byte),
    (¬(1 ≤ w.toNat ∧ 1 ≤ h.toNat ∧ w.toNat * h.toNat ≤ 400000000) →
      exec (.header w h ch cs) s = .next (raise .invalidDimensions s)) ∧
    (1 ≤ w.toNat ∧ 1 ≤ h.toNat ∧ w.toNat * h.toNat ≤ 400000000 → ¬(ch = 3 ∨ ch = 4) →
      exec (.header w h ch cs) s = .next (raise .invalidChannelCount s)) ∧
    (1 ≤ w.toNat ∧ 1 ≤ h.toNat ∧ w.toNat * h.toNat ≤ 400000000 → ch = 3 ∨ ch = 4 →
      s.op.dstCap.toNat < w.toNat * h.toNat * ch.toNat →
      exec (.header w h ch cs) s = .next (raise .outputOverflow s))

/-- FOOTER at the end of the stream (rules R216, R218, R233): the decode completes and the result registers are
written. The output window is unspecified only if the host touched it during the operation (rule R75). `draws`, `reach`
and the taint flags are the model's own (log 10, log 23); the latches are kept (log 16). -/
def Obligations.FooterCompletes : Prop :=
  ∀ s : State, s.op.inPos.toNat + 8 = s.op.srcLen.toNat →
    ∃ t, exec .footer s = .next t ∧
      t = { s with
        width := s.op.w, height := s.op.h, channels := s.op.ch, colorspace := s.op.cs
        outLen := BitVec.ofNat 32 (s.op.npix.toNat * s.op.ch.toNat)
        busy := false, done := true, errCode := 0, fsm := .idle
        mem := t.mem, draws := t.draws, reach := 0, inTaint := false, outTaint := false } ∧
      (s.outTaint = false → t.mem = s.mem) ∧
      ∀ a, (a < s.op.dstBase.toNat ∨ s.op.dstBase.toNat + s.op.dstCap.toNat ≤ a) →
        Memory.read t.mem a = Memory.read s.mem a

/-- FOOTER elsewhere: TruncatedStream if fewer than 8 bytes remain (rule R214), BadFooter if bytes follow it (rule
R215). -/
def Obligations.FooterRejected : Prop :=
  ∀ s : State,
    (s.op.srcLen.toNat < s.op.inPos.toNat + 8 → exec .footer s = .next (raise .truncatedStream s)) ∧
    (s.op.inPos.toNat + 8 < s.op.srcLen.toNat → exec .footer s = .next (raise .badFooter s))

/-! ### Host commands (43_host_commands.md) -/

/-- START (rule R231): one atomic register update; an encode latches WIDTH, HEIGHT and FORMAT, a decode does not.
`reach` and the taint flags are the model's own record of the operation (log 23). -/
def Obligations.StartLatchesConfiguration : Prop :=
  ∀ (s : State) (irqEn : Bool), s.busy = false →
    exec (.startEncode irqEn) s = .next { s with
      ctrlMode := .encode, irqEn := irqEn, busy := true, done := false, err := false, errCode := 0, outLen := 0
      fsm := .encCheck
      op := { mode := .encode, w := s.width, h := s.height, ch := s.channels, cs := s.colorspace,
              npix := BitVec.ofNat 64 (s.width.toNat * s.height.toNat),
              srcBase := s.srcBase, srcLen := s.srcLen, dstBase := s.dstBase, dstCap := s.dstCap,
              inPos := 0, outPos := 0, pix := 0 }
      reach := 0, inTaint := false, outTaint := false } ∧
    exec (.startDecode irqEn) s = .next { s with
      ctrlMode := .decode, irqEn := irqEn, busy := true, done := false, err := false, errCode := 0, outLen := 0
      fsm := .decCheck
      op := { s.op with
              mode := .decode,
              srcBase := s.srcBase, srcLen := s.srcLen, dstBase := s.dstBase, dstCap := s.dstCap,
              inPos := 0, outPos := 0, pix := 0 }
      reach := 0, inTaint := false, outTaint := false }

/-- Rule R232: a write to CTRL with START = 1 while BUSY changes IRQ_EN and nothing else. -/
def Obligations.StartWhileBusyIgnored : Prop :=
  (∀ v : Word, v.getLsbD 0 = true →
    decodeRegWrite 0x04 v = .ok (if v.getLsbD 1 = true then .startDecode (v.getLsbD 2) else .startEncode (v.getLsbD 2))) ∧
  ∀ (s : State) (irqEn : Bool), s.busy = true →
    exec (.startEncode irqEn) s = .next { s with irqEn := irqEn } ∧
    exec (.startDecode irqEn) s = .next { s with irqEn := irqEn }

/-- Rule R235: SET_IRQ_EN, a write to CTRL with START = 0, and the interrupt line that follows it at once. -/
def Obligations.SetIrqEnCommand : Prop :=
  (∀ v : Word, v.getLsbD 0 = false →
    decodeRegWrite 0x04 v = .ok (.setIrqEn (if v.getLsbD 1 = true then .decode else .encode) (v.getLsbD 2))) ∧
  ∀ (s : State) (mode : Mode) (irqEn : Bool),
    ∃ t, exec (.setIrqEn mode irqEn) s = .next t ∧
      t = { s with irqEn := irqEn, ctrlMode := if s.busy = true then s.ctrlMode else mode } ∧
      irq t = (irqEn && (s.done || s.err))

/-- Rule R234: CLEAR_STATUS clears what bits 1 and 2 of the value say, keeps ERROR.CODE, ignores the other bits. -/
def Obligations.ClearStatusCommand : Prop :=
  ∀ (s : State) (v : Word),
    ∃ t, decodeRegWrite 0x08 v = .ok (.clearStatus (v.getLsbD 1) (v.getLsbD 2)) ∧
      exec (.clearStatus (v.getLsbD 1) (v.getLsbD 2)) s = .next t ∧
      t = { s with
        done := if v.getLsbD 1 = true then false else s.done
        err := if v.getLsbD 2 = true then false else s.err } ∧
      irq t = (s.irqEn && (t.done || t.err))

/-- Rule R36: the interrupt line is `IRQ_EN and (DONE or ERR)`, so it follows IRQ_EN when an operation ends, with or
without error, and is low after START. -/
def Obligations.InterruptLevel : Prop :=
  ∀ (s : State) (e : ErrKind) (len : Word) (mode : Mode) (irqEn : Bool),
    irq s = (s.irqEn && (s.done || s.err)) ∧ irq (raise e s) = s.irqEn ∧ irq (complete len s) = s.irqEn ∧
    irq (startOperation mode irqEn s) = false

/-! ### Register access (10_state.md, 43_host_commands.md) -/

/-- Rule R237: host writes to the other registers. While BUSY they are ignored; else the RW registers take the value
(FORMAT its low 16 bits), and ID, ERROR, OUT_LEN and the reserved offsets ignore it. -/
def Obligations.ConfigurationWrites : Prop :=
  ∀ (s : State) (offset : BitVec 8) (v : Word) (rest : List HostOp),
    s.hostQ = .regWrite offset .word v :: rest → offset.toNat % 4 = 0 → offset.toNat ≠ 0x04 → offset.toNat ≠ 0x08 →
    (s.busy = true → step s = .next { s with hostQ := rest }) ∧
    (s.busy = false → offset.toNat = 0x10 → step s = .next { s with hostQ := rest, width := v }) ∧
    (s.busy = false → offset.toNat = 0x14 → step s = .next { s with hostQ := rest, height := v }) ∧
    (s.busy = false → offset.toNat = 0x18 → step s = .next { s with
      hostQ := rest, channels := BitVec.ofNat 8 v.toNat, colorspace := BitVec.ofNat 8 (v.toNat / 256) }) ∧
    (s.busy = false → offset.toNat = 0x1C → step s = .next { s with hostQ := rest, srcBase := v }) ∧
    (s.busy = false → offset.toNat = 0x20 → step s = .next { s with hostQ := rest, srcLen := v }) ∧
    (s.busy = false → offset.toNat = 0x24 → step s = .next { s with hostQ := rest, dstBase := v }) ∧
    (s.busy = false → offset.toNat = 0x28 → step s = .next { s with hostQ := rest, dstCap := v }) ∧
    (s.busy = false → offset.toNat = 0x00 ∨ offset.toNat = 0x0C ∨ offset.toNat = 0x2C ∨ 0x30 ≤ offset.toNat →
      step s = .next { s with hostQ := rest })

/-- Rules R20 to R28 and R236: a 32-bit aligned register read returns the register and changes nothing else (the value
stands in `rdata`, the model's own record of the host's last read). -/
def Obligations.RegisterReads : Prop :=
  ∀ (s : State) (offset : BitVec 8) (rest : List HostOp),
    s.hostQ = .regRead offset .word :: rest → offset.toNat % 4 = 0 →
    ∃ v : Word, step s = .next { s with hostQ := rest, rdata := v } ∧
      (offset.toNat = 0x00 → v = 0x716F6966) ∧
      (offset.toNat = 0x04 → v.toNat = 2 * s.ctrlMode.bit.toNat + 4 * s.irqEn.toNat) ∧
      (offset.toNat = 0x08 → v.toNat = s.busy.toNat + 2 * s.done.toNat + 4 * s.err.toNat) ∧
      (offset.toNat = 0x0C → v.toNat = s.errCode.toNat) ∧
      (offset.toNat = 0x10 → v = s.width) ∧ (offset.toNat = 0x14 → v = s.height) ∧
      (offset.toNat = 0x18 → v.toNat = s.channels.toNat + 256 * s.colorspace.toNat) ∧
      (offset.toNat = 0x1C → v = s.srcBase) ∧ (offset.toNat = 0x20 → v = s.srcLen) ∧
      (offset.toNat = 0x24 → v = s.dstBase) ∧ (offset.toNat = 0x28 → v = s.dstCap) ∧
      (offset.toNat = 0x2C → v = s.outLen) ∧ (0x30 ≤ offset.toNat → v = 0)

/-- Rule R236: while BUSY, STATUS reads BUSY only, and ERROR and OUT_LEN read 0. -/
def Obligations.ReadsWhileBusy : Prop :=
  ∀ s : State, Inv s → s.busy = true → readReg 0x08 s = 1 ∧ readReg 0x0C s = 0 ∧ readReg 0x2C s = 0

/-- Rule R65: a register access that is not 32-bit, or not at a multiple of 4, is refused; so is a one-byte host access
to the register block (log 11). -/
def Obligations.BadRegisterAccessRefused : Prop :=
  ∀ (s : State) (offset : BitVec 8) (size : AccessSize) (v : Word) (a : Word) (b : Byte) (rest : List HostOp),
    (size ≠ .word ∨ offset.toNat % 4 ≠ 0 → s.hostQ = .regWrite offset size v :: rest →
      step s = .refused .badRegisterAccess) ∧
    (size ≠ .word ∨ offset.toNat % 4 ≠ 0 → s.hostQ = .regRead offset size :: rest →
      step s = .refused .badRegisterAccess) ∧
    (s.cfg.engineBase.toNat ≤ a.toNat → a.toNat < s.cfg.engineBase.toNat + 256 →
      s.hostQ = .memWrite a b :: rest ∨ s.hostQ = .memRead a :: rest → step s = .refused .badRegisterAccess)

/-! ### The check steps (20_memory.md, 41_encoder.md) -/

/-- Rule R61: either operation ends with AddressError if a window crosses 2^32 or the windows overlap, before any
other check. -/
def Obligations.WindowLegality : Prop :=
  ∀ s : State, s.hostQ = [] → s.fsm = .encCheck ∨ s.fsm = .decCheck →
    (s.op.srcBase.toNat + s.op.srcLen.toNat > 2 ^ 32 ∨ s.op.dstBase.toNat + s.op.dstCap.toNat > 2 ^ 32 ∨
      (s.op.srcLen.toNat > 0 ∧ s.op.dstCap.toNat > 0 ∧
        s.op.srcBase.toNat < s.op.dstBase.toNat + s.op.dstCap.toNat ∧
        s.op.dstBase.toNat < s.op.srcBase.toNat + s.op.srcLen.toNat)) →
    step s = .next (raise .addressError s)

/-- Rule R71: legal windows, one of them non-empty and over the register block, are refused. That the refusal comes
right after the window check is the model's choice (log 12). -/
def Obligations.WindowOverRegistersRefused : Prop :=
  ∀ (s : State) (base len : Word), s.hostQ = [] → s.fsm = .encCheck ∨ s.fsm = .decCheck →
    windowsIllegal s.op = false →
    (base = s.op.srcBase ∧ len = s.op.srcLen) ∨ (base = s.op.dstBase ∧ len = s.op.dstCap) →
    len.toNat > 0 → base.toNat < s.cfg.engineBase.toNat + 256 → s.cfg.engineBase.toNat < base.toNat + len.toNat →
    step s = .refused .windowOverRegisters

/-- Rules R151 to R153: the encode checks after the windows, each the first that fails. -/
def Obligations.EncodeChecksInOrder : Prop :=
  ∀ s : State, s.hostQ = [] → s.fsm = .encCheck → windowsIllegal s.op = false → windowsOverRegisters s = false →
    (¬(1 ≤ s.op.w.toNat ∧ 1 ≤ s.op.h.toNat ∧ s.op.w.toNat * s.op.h.toNat ≤ 400000000) →
      step s = .next (raise .invalidDimensions s)) ∧
    (1 ≤ s.op.w.toNat ∧ 1 ≤ s.op.h.toNat ∧ s.op.w.toNat * s.op.h.toNat ≤ 400000000 →
      (¬(s.op.ch = 3 ∨ s.op.ch = 4) → step s = .next (raise .invalidChannelCount s)) ∧
      (s.op.ch = 3 ∨ s.op.ch = 4 →
        (s.op.srcLen.toNat ≠ s.op.npix.toNat * s.op.ch.toNat → step s = .next (raise .bufferSizeMismatch s)) ∧
        (s.op.srcLen.toNat = s.op.npix.toNat * s.op.ch.toNat →
          (s.op.dstCap.toNat < 22 + s.op.npix.toNat * (s.op.ch.toNat + 1) →
            step s = .next (raise .outputOverflow s)) ∧
          (22 + s.op.npix.toNat * (s.op.ch.toNat + 1) ≤ s.op.dstCap.toNat →
            step s = .next { s with
              prev := { r := 0, g := 0, b := 0, a := 255 }
              run := 0
              cache := Vector.replicate 64 { r := 0, g := 0, b := 0, a := 255 }
              op := { s.op with outPos := 0 }
              fsm := .encHdr }))))

/-! ### The encode steps (41_encoder.md) -/

/-- Rule R155: the header step emits the 14 header bytes. -/
def Obligations.EncodeHeaderStep : Prop :=
  ∀ s : State, s.hostQ = [] → s.fsm = .encHdr → Memory.wf s.mem → AccessesAnswered s 14 → RoomFor s 14 →
    ∃ t, step s = .next t ∧
      t = { s with
        fsm := .encPix, op := { s.op with outPos := BitVec.ofNat 32 (s.op.outPos.toNat + 14) }
        mem := t.mem, draws := t.draws, reach := t.reach } ∧
      Emitted s t ([0x71, 0x6F, 0x69, 0x66] ++
        [BitVec.ofNat 8 (s.op.w.toNat / 2 ^ 24), BitVec.ofNat 8 (s.op.w.toNat / 2 ^ 16),
          BitVec.ofNat 8 (s.op.w.toNat / 2 ^ 8), BitVec.ofNat 8 s.op.w.toNat] ++
        [BitVec.ofNat 8 (s.op.h.toNat / 2 ^ 24), BitVec.ofNat 8 (s.op.h.toNat / 2 ^ 16),
          BitVec.ofNat 8 (s.op.h.toNat / 2 ^ 8), BitVec.ofNat 8 s.op.h.toNat] ++ [s.op.ch, s.op.cs])

/-- Rules R156 to R160 and R166: a pixel step emits the chunks of its pixel, and updates RUN, the cache and PREV. -/
def Obligations.EncodePixelStep : Prop :=
  ∀ s : State, s.hostQ = [] → s.fsm = .encPix → Memory.wf s.mem → ReadsMemory s → RoomFor s 6 →
    s.op.ch = 3 ∨ s.op.ch = 4 → s.op.pix.toNat < s.op.npix.toNat → s.op.npix.toNat ≤ 400000000 →
    s.op.npix.toNat * s.op.ch.toNat ≤ s.op.srcLen.toNat → s.run.toNat ≤ 61 →
    ∃ t, step s = .next t ∧
      t = { s with
        prev := pixelAt s s.op.pix.toNat
        run :=
          if pixelAt s s.op.pix.toNat = s.prev ∧ s.run.toNat + 1 < 62 ∧ s.op.pix.toNat + 1 < s.op.npix.toNat
          then s.run + 1 else 0
        cache :=
          if pixelAt s s.op.pix.toNat = s.prev then s.cache
          else s.cache.set (pixelHash (pixelAt s s.op.pix.toNat)) (pixelAt s s.op.pix.toNat)
        op := { s.op with
          outPos := t.op.outPos
          pix := BitVec.ofNat 32 (s.op.pix.toNat + 1)
          inPos := BitVec.ofNat 32 (s.op.ch.toNat * (s.op.pix.toNat + 1)) }
        fsm := if s.op.pix.toNat + 1 < s.op.npix.toNat then .encPix else .encFtr
        mem := t.mem, draws := t.draws, reach := t.reach } ∧
      Emitted s t (bytesOfChunks
        (pixelChunks (pixelAt s s.op.pix.toNat) (decide (s.op.pix.toNat + 1 = s.op.npix.toNat)) s))

/-- Rule R34, item 3: while the host leaves the input alone, the pixels of the pending run equal PREV, after each pixel
step that leaves more pixels to encode. -/
def Obligations.PendingRunEqualsPrev : Prop :=
  ∀ s t : State, Inv s → ReadsMemory s → s.hostQ = [] → s.fsm = .encPix → PendingRun s → step s = .next t →
    t.fsm = .encPix → PendingRun t

/-- Rules R159 to R165 and R167: the one chunk of a pixel that differs from PREV: INDEX, then DIFF, LUMA and RGB when
alpha is unchanged, RGBA when it changed. -/
def Obligations.EncoderChoosesByPriority : Prop :=
  ∀ (s : State) (p : Pixel) (dr dg db : Int),
    IsDelta s.cfg.deltaMode p.r s.prev.r dr → IsDelta s.cfg.deltaMode p.g s.prev.g dg →
    IsDelta s.cfg.deltaMode p.b s.prev.b db →
    (s.cache.get (pixelHash p) = p → chooseChunk p s = .index (pixelHash p)) ∧
    (s.cache.get (pixelHash p) ≠ p →
      (p.a ≠ s.prev.a → chooseChunk p s = .rgba p.r p.g p.b p.a) ∧
      (p.a = s.prev.a →
        ((-2 ≤ dr ∧ dr ≤ 1) ∧ (-2 ≤ dg ∧ dg ≤ 1) ∧ (-2 ≤ db ∧ db ≤ 1) → chooseChunk p s = .diff dr dg db) ∧
        (¬((-2 ≤ dr ∧ dr ≤ 1) ∧ (-2 ≤ dg ∧ dg ≤ 1) ∧ (-2 ≤ db ∧ db ≤ 1)) →
          ((-32 ≤ dg ∧ dg ≤ 31) ∧ (-8 ≤ dr - dg ∧ dr - dg ≤ 7) ∧ (-8 ≤ db - dg ∧ db - dg ≤ 7) →
            chooseChunk p s = .luma dg (dr - dg) (db - dg)) ∧
          (¬((-32 ≤ dg ∧ dg ≤ 31) ∧ (-8 ≤ dr - dg ∧ dr - dg ≤ 7) ∧ (-8 ≤ db - dg ∧ db - dg ≤ 7)) →
            chooseChunk p s = .rgb p.r p.g p.b))))

/-- Rules R169, R170 and R233: the footer step emits the footer and completes with the stream length. `draws`, `reach`
and the taint flags are the model's own (log 23); that PREV, RUN, CACHE and the latches but the output cursor are kept
is the model's reading (log 16). -/
def Obligations.EncodeFooterStep : Prop :=
  ∀ s : State, s.hostQ = [] → s.fsm = .encFtr → Memory.wf s.mem → AccessesAnswered s 8 → RoomFor s 8 →
    s.outTaint = false →
    ∃ t, step s = .next t ∧
      t = { s with
        busy := false, done := true, errCode := 0, fsm := .idle
        outLen := BitVec.ofNat 32 (s.op.outPos.toNat + 8)
        op := { s.op with outPos := BitVec.ofNat 32 (s.op.outPos.toNat + 8) }
        mem := t.mem, draws := t.draws, reach := 0, inTaint := false, outTaint := false } ∧
      Emitted s t [0, 0, 0, 0, 0, 0, 0, 1]

/-- Rule R173: with three channels the encoder never chooses RGBA. -/
def Obligations.ThreeChannelsNeverEmitRgba : Prop :=
  ∀ (s s1 : State) (p : Pixel) (r g b a : Byte),
    Inv s → s.fsm = .encPix → s.op.ch = 3 → fetchPixel s = .ok p s1 → p ≠ s.prev →
    chooseChunk p s1 ≠ .rgba r g b a

/-- Rules R34 (item 5) and R172: the chunks the encoder emits for a pixel, executed by a decoder in step with it, leave
the decoder in step with it: same PREV, same cache, and all pixels but the pending run decoded. -/
def Obligations.EncoderAndDecoderStayInStep : Prop :=
  ∀ (e e1 d : State) (p : Pixel) (last : Bool),
    CodecOk e → InStep e d → e.run.toNat ≤ 61 → encodePixel p last e = .ok () e1 →
    e.op.pix.toNat + 1 < 2 ^ 32 → Memory.wf d.mem → OutputFits d.op → d.cfg.busFaults = false →
    e.op.pix.toNat + 1 ≤ d.op.npix.toNat →
    d.op.inPos.toNat + (bytesOfChunks (pixelChunks p last e)).length ≤ d.op.srcLen.toNat →
    ∃ t, execAll (pixelChunks p last e) d = .next t ∧ InStep (afterPixel e1) t ∧
      t.op.inPos.toNat = d.op.inPos.toNat + (bytesOfChunks (pixelChunks p last e)).length

/-! ### Errors (60_exceptions.md) -/

/-- Rules R261 and R266: error termination writes the code, ends the operation and keeps the result registers; memory
changes only in the bytes of the output window that the operation reached, or in the window if the host touched it
(log 7, log 10). -/
def Obligations.ErrorTermination : Prop :=
  ∀ (s : State) (e : ErrKind),
    (raise e s).errCode.toNat =
      (match e with
       | .invalidDimensions => 1 | .invalidChannelCount => 2 | .bufferSizeMismatch => 3 | .badMagic => 4
       | .truncatedStream => 5 | .badFooter => 6 | .outputOverflow => 7 | .addressError => 8 | .busError => 9) ∧
    raise e s = { s with
      errCode := (raise e s).errCode, busy := false, err := true, done := false, fsm := .idle
      op := (raise e s).op, prev := (raise e s).prev, run := (raise e s).run, cache := (raise e s).cache
      mem := (raise e s).mem, draws := (raise e s).draws, reach := 0, inTaint := false, outTaint := false } ∧
    (Memory.wf s.mem → Memory.wf (raise e s).mem) ∧
    ∀ a, (a < s.op.dstBase.toNat ∨
        s.op.dstBase.toNat + (if s.outTaint = true then s.op.dstCap.toNat else s.reach) ≤ a) →
      Memory.read (raise e s).mem a = Memory.read s.mem a

/-- Rule R267: where BUS_FAULTS holds, the platform's answer to an access decides: a bus error ends a read or a write
with BusError, and a chunk step whose tag read is answered so ends the operation. Whether an answer is an error is a
free value (log 6). -/
def Obligations.BusErrorEndsTheAccess : Prop :=
  ∀ (s : State) (off : Nat) (v : Byte), s.cfg.busFaults = true →
    (s.op.srcBase.toNat + off < 2 ^ 32 → s.inTaint = false →
      readIn off s =
        if Config.busError s.draws = true then .raised .busError { s with draws := s.draws + 1 }
        else .ok (Memory.read s.mem (s.op.srcBase.toNat + off)) { s with draws := s.draws + 1 }) ∧
    (s.op.dstBase.toNat + off < 2 ^ 32 →
      writeOut off v s =
        if Config.busError s.draws = true then
          .raised .busError { s with draws := s.draws + 1, reach := max s.reach (off + 1) }
        else .ok () { s with
          mem := Memory.write s.mem (s.op.dstBase.toNat + off) v
          draws := s.draws + 1, reach := max s.reach (off + 1) }) ∧
    (s.hostQ = [] → s.fsm = .decChunk → s.op.inPos.toNat < s.op.srcLen.toNat →
      s.op.srcBase.toNat + s.op.srcLen.toNat ≤ 2 ^ 32 →
      step s = .next (raise .busError { s with draws := s.draws + 1 }) ∨ Config.busError s.draws = false)

/-! ### Reset (70_reset_and_hazards.md) -/

/-- Rule R290: the values reset states, in the state after reset and after RST in any state. The latches, PREV, RUN,
CACHE and memory have none there: no clause here. -/
def Obligations.ResetValues : Prop :=
  ∀ s : State, s = State.reset ∨ (∃ (s0 : State) (rest : List HostOp), s0.hostQ = .rst :: rest ∧ step s0 = .next s) →
    (∀ offset : BitVec 8, readReg offset s = if offset.toNat = 0 then 0x716F6966 else 0) ∧
    s.fsm = .idle ∧ s.busy = false ∧ s.done = false ∧ s.err = false ∧ s.errCode = 0 ∧
    s.ctrlMode = .encode ∧ s.irqEn = false ∧ s.width = 0 ∧ s.height = 0 ∧ s.channels = 0 ∧ s.colorspace = 0 ∧
    s.srcBase = 0 ∧ s.srcLen = 0 ∧ s.dstBase = 0 ∧ s.dstCap = 0 ∧ s.outLen = 0 ∧ irq s = false

/-- Rules R290 to R292: RST returns every register to its reset value and the engine to IDLE. Memory outside the output
window of a running operation, and its input window, are unchanged; with no operation running all of memory is. That
the latches, PREV, RUN and CACHE take `State.reset`'s values is the model's choice (log 5), as is what RST keeps of the
host's own fields (log 9). -/
def Obligations.ResetEvent : Prop :=
  ∀ (s : State) (rest : List HostOp), s.hostQ = .rst :: rest →
    ∃ t, step s = .next t ∧
      t = { State.reset with
        cfg := s.cfg, mem := t.mem, hostQ := rest, rdata := s.rdata, draws := t.draws } ∧
      (s.busy = false → t.mem = s.mem) ∧
      ∀ a, (a < s.op.dstBase.toNat ∨ s.op.dstBase.toNat + s.op.dstCap.toNat ≤ a ∨
          (s.op.srcBase.toNat ≤ a ∧ a < s.op.srcBase.toNat + s.op.srcLen.toNat)) →
        Memory.read t.mem a = Memory.read s.mem a

/-! ### Host memory and host duties (20_memory.md) -/

/-- A host access to memory outside the register block while the engine is not BUSY: a write changes its byte only, a
read returns it. The queue and `rdata`, the record of the host's last read, are the model's own (log 1, log 21). -/
def Obligations.HostMemoryAccess : Prop :=
  ∀ (s : State) (a : Word) (b : Byte) (rest : List HostOp), Memory.wf s.mem → s.busy = false →
    (a.toNat < s.cfg.engineBase.toNat ∨ s.cfg.engineBase.toNat + 256 ≤ a.toNat) →
    (s.hostQ = .memWrite a b :: rest → ∃ t, step s = .next t ∧ t = { s with hostQ := rest, mem := t.mem } ∧
      ∀ x, Memory.read t.mem x = if x = a.toNat then b else Memory.read s.mem x) ∧
    (s.hostQ = .memRead a :: rest → ∃ t, step s = .next t ∧
      t = { s with hostQ := rest, rdata := BitVec.ofNat 32 (Memory.read s.mem a.toNat).toNat })

/-- Rule R75: right after the host writes the input window during an operation, a byte the engine reads there is a free
value (said of a read in the state after that write); a host read of the output window during an operation returns a
free value, and either access marks the window's final contents unspecified. The marks `inTaint` and `outTaint` are the
model's choice (log 10). -/
def Obligations.BrokenHostDuty : Prop :=
  ∀ (s : State) (a : Word) (b : Byte) (rest : List HostOp), s.busy = true →
    (a.toNat < s.cfg.engineBase.toNat ∨ s.cfg.engineBase.toNat + 256 ≤ a.toNat) →
    (s.op.srcBase.toNat ≤ a.toNat → a.toNat < s.op.srcBase.toNat + s.op.srcLen.toNat →
      s.hostQ = .memWrite a b :: rest → ∃ t, step s = .next t ∧ t.inTaint = true ∧
        ∀ off, s.cfg.busFaults = false → s.op.srcBase.toNat + off < 2 ^ 32 →
          readIn off t = .ok (Config.freeByte t.draws) { t with draws := t.draws + 1 }) ∧
    (s.op.dstBase.toNat ≤ a.toNat → a.toNat < s.op.dstBase.toNat + s.op.dstCap.toNat →
      s.hostQ = .memRead a :: rest →
      step s = .next { s with
        hostQ := rest, rdata := (Config.freeByte s.draws).zeroExtend 32, draws := s.draws + 1, outTaint := true }) ∧
    (s.op.dstBase.toNat ≤ a.toNat → a.toNat < s.op.dstBase.toNat + s.op.dstCap.toNat →
      s.hostQ = .memWrite a b :: rest → ∃ t, step s = .next t ∧ t.outTaint = true)

/-! ### Rules of the whole machine -/

/-- The invariant holds after reset. -/
def Obligations.ResetMeetsInvariant : Prop := Inv State.reset

/-- The invariant is kept by every step. -/
def Obligations.StepKeepsInvariant : Prop :=
  ∀ s t : State, Inv s → step s = .next t → Inv t

/-- Rules R10, R61 and R62: from a state that meets the invariant no engine access leaves the address space. -/
def Obligations.InvariantNeverFaults : Prop :=
  ∀ (s : State) (f : Fault), Inv s → step s ≠ .fault f

/-- Rules R62 and R217: an engine step changes no byte of memory outside the output window, and none of the input
window. Of the input window it speaks where the windows are legal: a byte in both of two overlapping windows is the
model's choice (log 10). -/
def Obligations.EngineWritesOnlyOutputWindow : Prop :=
  ∀ (s t : State) (a : Nat), Inv s → engineTurn exec s = .next t →
    (a < s.op.dstBase.toNat ∨ s.op.dstBase.toNat + s.op.dstCap.toNat ≤ a) ∨
      (s.op.srcBase.toNat ≤ a ∧ a < s.op.srcBase.toNat + s.op.srcLen.toNat ∧ windowsIllegal s.op = false) →
    Memory.read t.mem a = Memory.read s.mem a

/-- Rule R62: the engine never reads the output window: two states that differ only in its bytes take the same step,
and differ only in its bytes afterwards. -/
def Obligations.EngineNeverReadsOutputWindow : Prop :=
  ∀ (s t' : State) (m : Memory), Inv s → Memory.wf m →
    (∀ a, (a < s.op.dstBase.toNat ∨ s.op.dstBase.toNat + s.op.dstCap.toNat ≤ a) →
      Memory.read m a = Memory.read s.mem a) →
    engineTurn exec { s with mem := m } = .next t' →
    ∃ t, engineTurn exec s = .next t ∧ t' = { t with mem := t'.mem } ∧
      ∀ a, (a < s.op.dstBase.toNat ∨ s.op.dstBase.toNat + s.op.dstCap.toNat ≤ a) →
        Memory.read t'.mem a = Memory.read t.mem a

/-- Rules R29 and R38: a running operation reads only its latches. With other values in the host's registers, an
engine step of a running operation is the same step, with the same other values afterwards; only the result registers
that a completing decode writes are the step's own. -/
def Obligations.OperationIgnoresHostRegisters : Prop :=
  ∀ (s : State) (r : HostRegs),
    (s.fsm ≠ .decFtr →
      engineTurn exec (withHostRegs r s) = mapNext (withHostRegs r) (engineTurn exec s)) ∧
    (s.fsm = .decFtr →
      engineTurn exec (withHostRegs r s) =
        mapNext (fun t => if t.done = true then withHostRegs { r with
            width := t.width, height := t.height, channels := t.channels, colorspace := t.colorspace } t
          else withHostRegs r t) (engineTurn exec s))

/-- Rule R213: ENC_DELTA_MODE does not affect the decoder. -/
def Obligations.DeltaModeDoesNotAffectDecoder : Prop :=
  ∀ (s : State) (m : Config.DeltaMode), s.fsm = .decCheck ∨ s.fsm = .decChunk ∨ s.fsm = .decFtr →
    engineTurn exec { s with cfg := { s.cfg with deltaMode := m } } =
      mapNext (fun t => { t with cfg := { t.cfg with deltaMode := m } }) (engineTurn exec s)

/-- Rules R230 and R35: a running operation stops only by completing, by an error, or by RST; completing and an error
exclude each other. Rule R270: a host write to STATUS in the same cycle as an engine step of the operation, the one that
ends it too, clears nothing (that the rule protects ERR as it does DONE is the model's reading, log 26). -/
def Obligations.OnlyCompletionErrorOrResetEndsBusy : Prop :=
  ∀ s t : State, Inv s → s.busy = true → step s = .next t →
    (t.busy = false →
      (t.done = true ∧ t.err = false) ∨ (t.err = true ∧ t.done = false ∧ t.outLen = 0) ∨
        ∃ rest, s.hostQ = .rst :: rest) ∧
    ∀ (v : Word) (rest : List HostOp), s.hostQ = .cycleWrite .status v :: rest →
      engineTurn exec { s with hostQ := rest } = .next t

/-- Rule R265 and R266: an error is reported only at the end of an operation, with a code of the table, and the result
registers are those from before it. -/
def Obligations.ErrorsKeepResultRegisters : Prop :=
  ∀ s t : State, Inv s → s.busy = true → step s = .next t → t.err = true →
    t.fsm = .idle ∧ t.busy = false ∧ 1 ≤ t.errCode.toNat ∧ t.errCode.toNat ≤ 9 ∧ t.outLen = 0 ∧
    t.width = s.width ∧ t.height = s.height ∧ t.channels = s.channels ∧ t.colorspace = s.colorspace

/-- Rule R297: an encode whose checks pass, on a platform without bus errors and with a host that leaves it alone, is
BUSY for npix + 2 steps and DONE after exactly npix + 3. -/
def Obligations.EncodeTakesPixelsPlusThreeSteps : Prop :=
  ∀ s : State, Inv s → s.fsm = .encCheck → s.hostQ = [] → s.cfg.busFaults = false →
    windowsIllegal s.op = false → windowsOverRegisters s = false → encodeError s.op = none →
    (∀ k, 1 ≤ k → k ≤ s.op.npix.toNat + 2 → ∃ t, Sys2Proof.core.run k s = .next t ∧ t.busy = true) ∧
    ∃ t, Sys2Proof.core.run (s.op.npix.toNat + 3) s = .next t ∧ t.busy = false ∧ t.done = true ∧ t.err = false

/-- Rules R17 and R297: a decode whose header has been accepted, with a host that leaves it alone, has ended after at
most one step for each pixel left and one for the footer. -/
def Obligations.DecodeEndsWithinStepBound : Prop :=
  ∀ s : State, Inv s → s.fsm = .decChunk → s.hostQ = [] →
    ∃ (n : Nat) (t : State), n ≤ s.op.npix.toNat - s.op.pix.toNat + 1 ∧ Sys2Proof.core.run n s = .next t ∧
      t.busy = false ∧ (t.done = true ∨ t.err = true)
end

