-- ==== Sys2Proof/Laws/State.lean ====
section
/-! SUPPORT. One lemma for each field of State under each named update: what the field holds afterwards. They are
simp lemmas, so that no proof unfolds a record update. -/

namespace Sys2Proof.Machine

/-! ### flagsStart -/

@[simp] theorem flagsStart_cfg (s : State) : (flagsStart s).cfg = s.cfg := rfl
@[simp] theorem flagsStart_ctrlMode (s : State) : (flagsStart s).ctrlMode = s.ctrlMode := rfl
@[simp] theorem flagsStart_irqEn (s : State) : (flagsStart s).irqEn = s.irqEn := rfl
@[simp] theorem flagsStart_busy (s : State) : (flagsStart s).busy = true := rfl
@[simp] theorem flagsStart_done (s : State) : (flagsStart s).done = false := rfl
@[simp] theorem flagsStart_err (s : State) : (flagsStart s).err = false := rfl
@[simp] theorem flagsStart_errCode (s : State) : (flagsStart s).errCode = 0 := rfl
@[simp] theorem flagsStart_width (s : State) : (flagsStart s).width = s.width := rfl
@[simp] theorem flagsStart_height (s : State) : (flagsStart s).height = s.height := rfl
@[simp] theorem flagsStart_channels (s : State) : (flagsStart s).channels = s.channels := rfl
@[simp] theorem flagsStart_colorspace (s : State) : (flagsStart s).colorspace = s.colorspace := rfl
@[simp] theorem flagsStart_srcBase (s : State) : (flagsStart s).srcBase = s.srcBase := rfl
@[simp] theorem flagsStart_srcLen (s : State) : (flagsStart s).srcLen = s.srcLen := rfl
@[simp] theorem flagsStart_dstBase (s : State) : (flagsStart s).dstBase = s.dstBase := rfl
@[simp] theorem flagsStart_dstCap (s : State) : (flagsStart s).dstCap = s.dstCap := rfl
@[simp] theorem flagsStart_outLen (s : State) : (flagsStart s).outLen = s.outLen := rfl
@[simp] theorem flagsStart_op (s : State) : (flagsStart s).op = s.op := rfl
@[simp] theorem flagsStart_prev (s : State) : (flagsStart s).prev = s.prev := rfl
@[simp] theorem flagsStart_run (s : State) : (flagsStart s).run = s.run := rfl
@[simp] theorem flagsStart_cache (s : State) : (flagsStart s).cache = s.cache := rfl
@[simp] theorem flagsStart_fsm (s : State) : (flagsStart s).fsm = s.fsm := rfl
@[simp] theorem flagsStart_mem (s : State) : (flagsStart s).mem = s.mem := rfl
@[simp] theorem flagsStart_hostQ (s : State) : (flagsStart s).hostQ = s.hostQ := rfl
@[simp] theorem flagsStart_rdata (s : State) : (flagsStart s).rdata = s.rdata := rfl
@[simp] theorem flagsStart_draws (s : State) : (flagsStart s).draws = s.draws := rfl
@[simp] theorem flagsStart_reach (s : State) : (flagsStart s).reach = s.reach := rfl
@[simp] theorem flagsStart_inTaint (s : State) : (flagsStart s).inTaint = s.inTaint := rfl
@[simp] theorem flagsStart_outTaint (s : State) : (flagsStart s).outTaint = s.outTaint := rfl

/-! ### flagsDone -/

@[simp] theorem flagsDone_cfg (s : State) : (flagsDone s).cfg = s.cfg := rfl
@[simp] theorem flagsDone_ctrlMode (s : State) : (flagsDone s).ctrlMode = s.ctrlMode := rfl
@[simp] theorem flagsDone_irqEn (s : State) : (flagsDone s).irqEn = s.irqEn := rfl
@[simp] theorem flagsDone_busy (s : State) : (flagsDone s).busy = false := rfl
@[simp] theorem flagsDone_done (s : State) : (flagsDone s).done = true := rfl
@[simp] theorem flagsDone_err (s : State) : (flagsDone s).err = s.err := rfl
@[simp] theorem flagsDone_errCode (s : State) : (flagsDone s).errCode = 0 := rfl
@[simp] theorem flagsDone_width (s : State) : (flagsDone s).width = s.width := rfl
@[simp] theorem flagsDone_height (s : State) : (flagsDone s).height = s.height := rfl
@[simp] theorem flagsDone_channels (s : State) : (flagsDone s).channels = s.channels := rfl
@[simp] theorem flagsDone_colorspace (s : State) : (flagsDone s).colorspace = s.colorspace := rfl
@[simp] theorem flagsDone_srcBase (s : State) : (flagsDone s).srcBase = s.srcBase := rfl
@[simp] theorem flagsDone_srcLen (s : State) : (flagsDone s).srcLen = s.srcLen := rfl
@[simp] theorem flagsDone_dstBase (s : State) : (flagsDone s).dstBase = s.dstBase := rfl
@[simp] theorem flagsDone_dstCap (s : State) : (flagsDone s).dstCap = s.dstCap := rfl
@[simp] theorem flagsDone_outLen (s : State) : (flagsDone s).outLen = s.outLen := rfl
@[simp] theorem flagsDone_op (s : State) : (flagsDone s).op = s.op := rfl
@[simp] theorem flagsDone_prev (s : State) : (flagsDone s).prev = s.prev := rfl
@[simp] theorem flagsDone_run (s : State) : (flagsDone s).run = s.run := rfl
@[simp] theorem flagsDone_cache (s : State) : (flagsDone s).cache = s.cache := rfl
@[simp] theorem flagsDone_fsm (s : State) : (flagsDone s).fsm = s.fsm := rfl
@[simp] theorem flagsDone_mem (s : State) : (flagsDone s).mem = s.mem := rfl
@[simp] theorem flagsDone_hostQ (s : State) : (flagsDone s).hostQ = s.hostQ := rfl
@[simp] theorem flagsDone_rdata (s : State) : (flagsDone s).rdata = s.rdata := rfl
@[simp] theorem flagsDone_draws (s : State) : (flagsDone s).draws = s.draws := rfl
@[simp] theorem flagsDone_reach (s : State) : (flagsDone s).reach = s.reach := rfl
@[simp] theorem flagsDone_inTaint (s : State) : (flagsDone s).inTaint = s.inTaint := rfl
@[simp] theorem flagsDone_outTaint (s : State) : (flagsDone s).outTaint = s.outTaint := rfl

/-! ### flagsError -/

@[simp] theorem flagsError_cfg (e : ErrKind) (s : State) : (flagsError e s).cfg = s.cfg := rfl
@[simp] theorem flagsError_ctrlMode (e : ErrKind) (s : State) : (flagsError e s).ctrlMode = s.ctrlMode := rfl
@[simp] theorem flagsError_irqEn (e : ErrKind) (s : State) : (flagsError e s).irqEn = s.irqEn := rfl
@[simp] theorem flagsError_busy (e : ErrKind) (s : State) : (flagsError e s).busy = false := rfl
@[simp] theorem flagsError_done (e : ErrKind) (s : State) : (flagsError e s).done = false := rfl
@[simp] theorem flagsError_err (e : ErrKind) (s : State) : (flagsError e s).err = true := rfl
@[simp] theorem flagsError_errCode (e : ErrKind) (s : State) : (flagsError e s).errCode = errorCode e := rfl
@[simp] theorem flagsError_width (e : ErrKind) (s : State) : (flagsError e s).width = s.width := rfl
@[simp] theorem flagsError_height (e : ErrKind) (s : State) : (flagsError e s).height = s.height := rfl
@[simp] theorem flagsError_channels (e : ErrKind) (s : State) : (flagsError e s).channels = s.channels := rfl
@[simp] theorem flagsError_colorspace (e : ErrKind) (s : State) : (flagsError e s).colorspace = s.colorspace := rfl
@[simp] theorem flagsError_srcBase (e : ErrKind) (s : State) : (flagsError e s).srcBase = s.srcBase := rfl
@[simp] theorem flagsError_srcLen (e : ErrKind) (s : State) : (flagsError e s).srcLen = s.srcLen := rfl
@[simp] theorem flagsError_dstBase (e : ErrKind) (s : State) : (flagsError e s).dstBase = s.dstBase := rfl
@[simp] theorem flagsError_dstCap (e : ErrKind) (s : State) : (flagsError e s).dstCap = s.dstCap := rfl
@[simp] theorem flagsError_outLen (e : ErrKind) (s : State) : (flagsError e s).outLen = s.outLen := rfl
@[simp] theorem flagsError_op (e : ErrKind) (s : State) : (flagsError e s).op = s.op := rfl
@[simp] theorem flagsError_prev (e : ErrKind) (s : State) : (flagsError e s).prev = s.prev := rfl
@[simp] theorem flagsError_run (e : ErrKind) (s : State) : (flagsError e s).run = s.run := rfl
@[simp] theorem flagsError_cache (e : ErrKind) (s : State) : (flagsError e s).cache = s.cache := rfl
@[simp] theorem flagsError_fsm (e : ErrKind) (s : State) : (flagsError e s).fsm = s.fsm := rfl
@[simp] theorem flagsError_mem (e : ErrKind) (s : State) : (flagsError e s).mem = s.mem := rfl
@[simp] theorem flagsError_hostQ (e : ErrKind) (s : State) : (flagsError e s).hostQ = s.hostQ := rfl
@[simp] theorem flagsError_rdata (e : ErrKind) (s : State) : (flagsError e s).rdata = s.rdata := rfl
@[simp] theorem flagsError_draws (e : ErrKind) (s : State) : (flagsError e s).draws = s.draws := rfl
@[simp] theorem flagsError_reach (e : ErrKind) (s : State) : (flagsError e s).reach = s.reach := rfl
@[simp] theorem flagsError_inTaint (e : ErrKind) (s : State) : (flagsError e s).inTaint = s.inTaint := rfl
@[simp] theorem flagsError_outTaint (e : ErrKind) (s : State) : (flagsError e s).outTaint = s.outTaint := rfl

/-! ### flagsClear -/

@[simp] theorem flagsClear_cfg (d r : Bool) (s : State) : (flagsClear d r s).cfg = s.cfg := rfl
@[simp] theorem flagsClear_ctrlMode (d r : Bool) (s : State) : (flagsClear d r s).ctrlMode = s.ctrlMode := rfl
@[simp] theorem flagsClear_irqEn (d r : Bool) (s : State) : (flagsClear d r s).irqEn = s.irqEn := rfl
@[simp] theorem flagsClear_busy (d r : Bool) (s : State) : (flagsClear d r s).busy = s.busy := rfl
@[simp] theorem flagsClear_done (d r : Bool) (s : State) : (flagsClear d r s).done = (s.done && !d) := rfl
@[simp] theorem flagsClear_err (d r : Bool) (s : State) : (flagsClear d r s).err = (s.err && !r) := rfl
@[simp] theorem flagsClear_errCode (d r : Bool) (s : State) : (flagsClear d r s).errCode = s.errCode := rfl
@[simp] theorem flagsClear_width (d r : Bool) (s : State) : (flagsClear d r s).width = s.width := rfl
@[simp] theorem flagsClear_height (d r : Bool) (s : State) : (flagsClear d r s).height = s.height := rfl
@[simp] theorem flagsClear_channels (d r : Bool) (s : State) : (flagsClear d r s).channels = s.channels := rfl
@[simp] theorem flagsClear_colorspace (d r : Bool) (s : State) : (flagsClear d r s).colorspace = s.colorspace := rfl
@[simp] theorem flagsClear_srcBase (d r : Bool) (s : State) : (flagsClear d r s).srcBase = s.srcBase := rfl
@[simp] theorem flagsClear_srcLen (d r : Bool) (s : State) : (flagsClear d r s).srcLen = s.srcLen := rfl
@[simp] theorem flagsClear_dstBase (d r : Bool) (s : State) : (flagsClear d r s).dstBase = s.dstBase := rfl
@[simp] theorem flagsClear_dstCap (d r : Bool) (s : State) : (flagsClear d r s).dstCap = s.dstCap := rfl
@[simp] theorem flagsClear_outLen (d r : Bool) (s : State) : (flagsClear d r s).outLen = s.outLen := rfl
@[simp] theorem flagsClear_op (d r : Bool) (s : State) : (flagsClear d r s).op = s.op := rfl
@[simp] theorem flagsClear_prev (d r : Bool) (s : State) : (flagsClear d r s).prev = s.prev := rfl
@[simp] theorem flagsClear_run (d r : Bool) (s : State) : (flagsClear d r s).run = s.run := rfl
@[simp] theorem flagsClear_cache (d r : Bool) (s : State) : (flagsClear d r s).cache = s.cache := rfl
@[simp] theorem flagsClear_fsm (d r : Bool) (s : State) : (flagsClear d r s).fsm = s.fsm := rfl
@[simp] theorem flagsClear_mem (d r : Bool) (s : State) : (flagsClear d r s).mem = s.mem := rfl
@[simp] theorem flagsClear_hostQ (d r : Bool) (s : State) : (flagsClear d r s).hostQ = s.hostQ := rfl
@[simp] theorem flagsClear_rdata (d r : Bool) (s : State) : (flagsClear d r s).rdata = s.rdata := rfl
@[simp] theorem flagsClear_draws (d r : Bool) (s : State) : (flagsClear d r s).draws = s.draws := rfl
@[simp] theorem flagsClear_reach (d r : Bool) (s : State) : (flagsClear d r s).reach = s.reach := rfl
@[simp] theorem flagsClear_inTaint (d r : Bool) (s : State) : (flagsClear d r s).inTaint = s.inTaint := rfl
@[simp] theorem flagsClear_outTaint (d r : Bool) (s : State) : (flagsClear d r s).outTaint = s.outTaint := rfl

/-! ### scrambleOutput -/

@[simp] theorem scrambleOutput_cfg (keep : Nat → Bool) (n : Nat) (s : State) : (scrambleOutput keep n s).cfg = s.cfg := rfl
@[simp] theorem scrambleOutput_ctrlMode (keep : Nat → Bool) (n : Nat) (s : State) : (scrambleOutput keep n s).ctrlMode = s.ctrlMode := rfl
@[simp] theorem scrambleOutput_irqEn (keep : Nat → Bool) (n : Nat) (s : State) : (scrambleOutput keep n s).irqEn = s.irqEn := rfl
@[simp] theorem scrambleOutput_busy (keep : Nat → Bool) (n : Nat) (s : State) : (scrambleOutput keep n s).busy = s.busy := rfl
@[simp] theorem scrambleOutput_done (keep : Nat → Bool) (n : Nat) (s : State) : (scrambleOutput keep n s).done = s.done := rfl
@[simp] theorem scrambleOutput_err (keep : Nat → Bool) (n : Nat) (s : State) : (scrambleOutput keep n s).err = s.err := rfl
@[simp] theorem scrambleOutput_errCode (keep : Nat → Bool) (n : Nat) (s : State) : (scrambleOutput keep n s).errCode = s.errCode := rfl
@[simp] theorem scrambleOutput_width (keep : Nat → Bool) (n : Nat) (s : State) : (scrambleOutput keep n s).width = s.width := rfl
@[simp] theorem scrambleOutput_height (keep : Nat → Bool) (n : Nat) (s : State) : (scrambleOutput keep n s).height = s.height := rfl
@[simp] theorem scrambleOutput_channels (keep : Nat → Bool) (n : Nat) (s : State) : (scrambleOutput keep n s).channels = s.channels := rfl
@[simp] theorem scrambleOutput_colorspace (keep : Nat → Bool) (n : Nat) (s : State) : (scrambleOutput keep n s).colorspace = s.colorspace := rfl
@[simp] theorem scrambleOutput_srcBase (keep : Nat → Bool) (n : Nat) (s : State) : (scrambleOutput keep n s).srcBase = s.srcBase := rfl
@[simp] theorem scrambleOutput_srcLen (keep : Nat → Bool) (n : Nat) (s : State) : (scrambleOutput keep n s).srcLen = s.srcLen := rfl
@[simp] theorem scrambleOutput_dstBase (keep : Nat → Bool) (n : Nat) (s : State) : (scrambleOutput keep n s).dstBase = s.dstBase := rfl
@[simp] theorem scrambleOutput_dstCap (keep : Nat → Bool) (n : Nat) (s : State) : (scrambleOutput keep n s).dstCap = s.dstCap := rfl
@[simp] theorem scrambleOutput_outLen (keep : Nat → Bool) (n : Nat) (s : State) : (scrambleOutput keep n s).outLen = s.outLen := rfl
@[simp] theorem scrambleOutput_op (keep : Nat → Bool) (n : Nat) (s : State) : (scrambleOutput keep n s).op = s.op := rfl
@[simp] theorem scrambleOutput_prev (keep : Nat → Bool) (n : Nat) (s : State) : (scrambleOutput keep n s).prev = s.prev := rfl
@[simp] theorem scrambleOutput_run (keep : Nat → Bool) (n : Nat) (s : State) : (scrambleOutput keep n s).run = s.run := rfl
@[simp] theorem scrambleOutput_cache (keep : Nat → Bool) (n : Nat) (s : State) : (scrambleOutput keep n s).cache = s.cache := rfl
@[simp] theorem scrambleOutput_fsm (keep : Nat → Bool) (n : Nat) (s : State) : (scrambleOutput keep n s).fsm = s.fsm := rfl
@[simp] theorem scrambleOutput_hostQ (keep : Nat → Bool) (n : Nat) (s : State) : (scrambleOutput keep n s).hostQ = s.hostQ := rfl
@[simp] theorem scrambleOutput_rdata (keep : Nat → Bool) (n : Nat) (s : State) : (scrambleOutput keep n s).rdata = s.rdata := rfl
@[simp] theorem scrambleOutput_draws (keep : Nat → Bool) (n : Nat) (s : State) : (scrambleOutput keep n s).draws = s.draws + n := rfl
@[simp] theorem scrambleOutput_reach (keep : Nat → Bool) (n : Nat) (s : State) : (scrambleOutput keep n s).reach = s.reach := rfl
@[simp] theorem scrambleOutput_inTaint (keep : Nat → Bool) (n : Nat) (s : State) : (scrambleOutput keep n s).inTaint = s.inTaint := rfl
@[simp] theorem scrambleOutput_outTaint (keep : Nat → Bool) (n : Nat) (s : State) : (scrambleOutput keep n s).outTaint = s.outTaint := rfl

/-! ### scrambleCodec -/

@[simp] theorem scrambleCodec_cfg (s : State) : (scrambleCodec s).cfg = s.cfg := rfl
@[simp] theorem scrambleCodec_ctrlMode (s : State) : (scrambleCodec s).ctrlMode = s.ctrlMode := rfl
@[simp] theorem scrambleCodec_irqEn (s : State) : (scrambleCodec s).irqEn = s.irqEn := rfl
@[simp] theorem scrambleCodec_busy (s : State) : (scrambleCodec s).busy = s.busy := rfl
@[simp] theorem scrambleCodec_done (s : State) : (scrambleCodec s).done = s.done := rfl
@[simp] theorem scrambleCodec_err (s : State) : (scrambleCodec s).err = s.err := rfl
@[simp] theorem scrambleCodec_errCode (s : State) : (scrambleCodec s).errCode = s.errCode := rfl
@[simp] theorem scrambleCodec_width (s : State) : (scrambleCodec s).width = s.width := rfl
@[simp] theorem scrambleCodec_height (s : State) : (scrambleCodec s).height = s.height := rfl
@[simp] theorem scrambleCodec_channels (s : State) : (scrambleCodec s).channels = s.channels := rfl
@[simp] theorem scrambleCodec_colorspace (s : State) : (scrambleCodec s).colorspace = s.colorspace := rfl
@[simp] theorem scrambleCodec_srcBase (s : State) : (scrambleCodec s).srcBase = s.srcBase := rfl
@[simp] theorem scrambleCodec_srcLen (s : State) : (scrambleCodec s).srcLen = s.srcLen := rfl
@[simp] theorem scrambleCodec_dstBase (s : State) : (scrambleCodec s).dstBase = s.dstBase := rfl
@[simp] theorem scrambleCodec_dstCap (s : State) : (scrambleCodec s).dstCap = s.dstCap := rfl
@[simp] theorem scrambleCodec_outLen (s : State) : (scrambleCodec s).outLen = s.outLen := rfl
@[simp] theorem scrambleCodec_op (s : State) : (scrambleCodec s).op = freeLatches s.draws := rfl
@[simp] theorem scrambleCodec_fsm (s : State) : (scrambleCodec s).fsm = s.fsm := rfl
@[simp] theorem scrambleCodec_mem (s : State) : (scrambleCodec s).mem = s.mem := rfl
@[simp] theorem scrambleCodec_hostQ (s : State) : (scrambleCodec s).hostQ = s.hostQ := rfl
@[simp] theorem scrambleCodec_rdata (s : State) : (scrambleCodec s).rdata = s.rdata := rfl
@[simp] theorem scrambleCodec_draws (s : State) : (scrambleCodec s).draws = s.draws + 80 := rfl
@[simp] theorem scrambleCodec_reach (s : State) : (scrambleCodec s).reach = s.reach := rfl
@[simp] theorem scrambleCodec_inTaint (s : State) : (scrambleCodec s).inTaint = s.inTaint := rfl
@[simp] theorem scrambleCodec_outTaint (s : State) : (scrambleCodec s).outTaint = s.outTaint := rfl

/-! ### closeOperation -/

@[simp] theorem closeOperation_cfg (s : State) : (closeOperation s).cfg = s.cfg := rfl
@[simp] theorem closeOperation_ctrlMode (s : State) : (closeOperation s).ctrlMode = s.ctrlMode := rfl
@[simp] theorem closeOperation_irqEn (s : State) : (closeOperation s).irqEn = s.irqEn := rfl
@[simp] theorem closeOperation_busy (s : State) : (closeOperation s).busy = s.busy := rfl
@[simp] theorem closeOperation_done (s : State) : (closeOperation s).done = s.done := rfl
@[simp] theorem closeOperation_err (s : State) : (closeOperation s).err = s.err := rfl
@[simp] theorem closeOperation_errCode (s : State) : (closeOperation s).errCode = s.errCode := rfl
@[simp] theorem closeOperation_width (s : State) : (closeOperation s).width = s.width := rfl
@[simp] theorem closeOperation_height (s : State) : (closeOperation s).height = s.height := rfl
@[simp] theorem closeOperation_channels (s : State) : (closeOperation s).channels = s.channels := rfl
@[simp] theorem closeOperation_colorspace (s : State) : (closeOperation s).colorspace = s.colorspace := rfl
@[simp] theorem closeOperation_srcBase (s : State) : (closeOperation s).srcBase = s.srcBase := rfl
@[simp] theorem closeOperation_srcLen (s : State) : (closeOperation s).srcLen = s.srcLen := rfl
@[simp] theorem closeOperation_dstBase (s : State) : (closeOperation s).dstBase = s.dstBase := rfl
@[simp] theorem closeOperation_dstCap (s : State) : (closeOperation s).dstCap = s.dstCap := rfl
@[simp] theorem closeOperation_outLen (s : State) : (closeOperation s).outLen = s.outLen := rfl
@[simp] theorem closeOperation_op (s : State) : (closeOperation s).op = s.op := rfl
@[simp] theorem closeOperation_prev (s : State) : (closeOperation s).prev = s.prev := rfl
@[simp] theorem closeOperation_run (s : State) : (closeOperation s).run = s.run := rfl
@[simp] theorem closeOperation_cache (s : State) : (closeOperation s).cache = s.cache := rfl
@[simp] theorem closeOperation_fsm (s : State) : (closeOperation s).fsm = .idle := rfl
@[simp] theorem closeOperation_mem (s : State) : (closeOperation s).mem = s.mem := rfl
@[simp] theorem closeOperation_hostQ (s : State) : (closeOperation s).hostQ = s.hostQ := rfl
@[simp] theorem closeOperation_rdata (s : State) : (closeOperation s).rdata = s.rdata := rfl
@[simp] theorem closeOperation_draws (s : State) : (closeOperation s).draws = s.draws := rfl
@[simp] theorem closeOperation_reach (s : State) : (closeOperation s).reach = 0 := rfl
@[simp] theorem closeOperation_inTaint (s : State) : (closeOperation s).inTaint = false := rfl
@[simp] theorem closeOperation_outTaint (s : State) : (closeOperation s).outTaint = false := rfl

/-! ### raise -/

@[simp] theorem raise_cfg (e : ErrKind) (s : State) : (raise e s).cfg = s.cfg := rfl
@[simp] theorem raise_ctrlMode (e : ErrKind) (s : State) : (raise e s).ctrlMode = s.ctrlMode := rfl
@[simp] theorem raise_irqEn (e : ErrKind) (s : State) : (raise e s).irqEn = s.irqEn := rfl
@[simp] theorem raise_busy (e : ErrKind) (s : State) : (raise e s).busy = false := rfl
@[simp] theorem raise_done (e : ErrKind) (s : State) : (raise e s).done = false := rfl
@[simp] theorem raise_err (e : ErrKind) (s : State) : (raise e s).err = true := rfl
@[simp] theorem raise_errCode (e : ErrKind) (s : State) : (raise e s).errCode = errorCode e := rfl
@[simp] theorem raise_width (e : ErrKind) (s : State) : (raise e s).width = s.width := rfl
@[simp] theorem raise_height (e : ErrKind) (s : State) : (raise e s).height = s.height := rfl
@[simp] theorem raise_channels (e : ErrKind) (s : State) : (raise e s).channels = s.channels := rfl
@[simp] theorem raise_colorspace (e : ErrKind) (s : State) : (raise e s).colorspace = s.colorspace := rfl
@[simp] theorem raise_srcBase (e : ErrKind) (s : State) : (raise e s).srcBase = s.srcBase := rfl
@[simp] theorem raise_srcLen (e : ErrKind) (s : State) : (raise e s).srcLen = s.srcLen := rfl
@[simp] theorem raise_dstBase (e : ErrKind) (s : State) : (raise e s).dstBase = s.dstBase := rfl
@[simp] theorem raise_dstCap (e : ErrKind) (s : State) : (raise e s).dstCap = s.dstCap := rfl
@[simp] theorem raise_outLen (e : ErrKind) (s : State) : (raise e s).outLen = s.outLen := rfl
@[simp] theorem raise_fsm (e : ErrKind) (s : State) : (raise e s).fsm = .idle := rfl
@[simp] theorem raise_hostQ (e : ErrKind) (s : State) : (raise e s).hostQ = s.hostQ := rfl
@[simp] theorem raise_rdata (e : ErrKind) (s : State) : (raise e s).rdata = s.rdata := rfl
@[simp] theorem raise_reach (e : ErrKind) (s : State) : (raise e s).reach = 0 := rfl
@[simp] theorem raise_inTaint (e : ErrKind) (s : State) : (raise e s).inTaint = false := rfl
@[simp] theorem raise_outTaint (e : ErrKind) (s : State) : (raise e s).outTaint = false := rfl

/-! ### initCodec -/

@[simp] theorem initCodec_cfg (s : State) : (initCodec s).cfg = s.cfg := rfl
@[simp] theorem initCodec_ctrlMode (s : State) : (initCodec s).ctrlMode = s.ctrlMode := rfl
@[simp] theorem initCodec_irqEn (s : State) : (initCodec s).irqEn = s.irqEn := rfl
@[simp] theorem initCodec_busy (s : State) : (initCodec s).busy = s.busy := rfl
@[simp] theorem initCodec_done (s : State) : (initCodec s).done = s.done := rfl
@[simp] theorem initCodec_err (s : State) : (initCodec s).err = s.err := rfl
@[simp] theorem initCodec_errCode (s : State) : (initCodec s).errCode = s.errCode := rfl
@[simp] theorem initCodec_width (s : State) : (initCodec s).width = s.width := rfl
@[simp] theorem initCodec_height (s : State) : (initCodec s).height = s.height := rfl
@[simp] theorem initCodec_channels (s : State) : (initCodec s).channels = s.channels := rfl
@[simp] theorem initCodec_colorspace (s : State) : (initCodec s).colorspace = s.colorspace := rfl
@[simp] theorem initCodec_srcBase (s : State) : (initCodec s).srcBase = s.srcBase := rfl
@[simp] theorem initCodec_srcLen (s : State) : (initCodec s).srcLen = s.srcLen := rfl
@[simp] theorem initCodec_dstBase (s : State) : (initCodec s).dstBase = s.dstBase := rfl
@[simp] theorem initCodec_dstCap (s : State) : (initCodec s).dstCap = s.dstCap := rfl
@[simp] theorem initCodec_outLen (s : State) : (initCodec s).outLen = s.outLen := rfl
@[simp] theorem initCodec_op (s : State) : (initCodec s).op = s.op := rfl
@[simp] theorem initCodec_prev (s : State) : (initCodec s).prev = Config.initPixel := rfl
@[simp] theorem initCodec_run (s : State) : (initCodec s).run = 0 := rfl
@[simp] theorem initCodec_cache (s : State) : (initCodec s).cache = Vector.replicate 64 Config.initPixel := rfl
@[simp] theorem initCodec_fsm (s : State) : (initCodec s).fsm = s.fsm := rfl
@[simp] theorem initCodec_mem (s : State) : (initCodec s).mem = s.mem := rfl
@[simp] theorem initCodec_hostQ (s : State) : (initCodec s).hostQ = s.hostQ := rfl
@[simp] theorem initCodec_rdata (s : State) : (initCodec s).rdata = s.rdata := rfl
@[simp] theorem initCodec_draws (s : State) : (initCodec s).draws = s.draws := rfl
@[simp] theorem initCodec_reach (s : State) : (initCodec s).reach = s.reach := rfl
@[simp] theorem initCodec_inTaint (s : State) : (initCodec s).inTaint = s.inTaint := rfl
@[simp] theorem initCodec_outTaint (s : State) : (initCodec s).outTaint = s.outTaint := rfl

/-! ### startOperation -/

@[simp] theorem startOperation_cfg (m : Mode) (q : Bool) (s : State) : (startOperation m q s).cfg = s.cfg := rfl
@[simp] theorem startOperation_ctrlMode (m : Mode) (q : Bool) (s : State) : (startOperation m q s).ctrlMode = m := rfl
@[simp] theorem startOperation_irqEn (m : Mode) (q : Bool) (s : State) : (startOperation m q s).irqEn = q := rfl
@[simp] theorem startOperation_busy (m : Mode) (q : Bool) (s : State) : (startOperation m q s).busy = true := rfl
@[simp] theorem startOperation_done (m : Mode) (q : Bool) (s : State) : (startOperation m q s).done = false := rfl
@[simp] theorem startOperation_err (m : Mode) (q : Bool) (s : State) : (startOperation m q s).err = false := rfl
@[simp] theorem startOperation_errCode (m : Mode) (q : Bool) (s : State) : (startOperation m q s).errCode = 0 := rfl
@[simp] theorem startOperation_width (m : Mode) (q : Bool) (s : State) : (startOperation m q s).width = s.width := rfl
@[simp] theorem startOperation_height (m : Mode) (q : Bool) (s : State) : (startOperation m q s).height = s.height := rfl
@[simp] theorem startOperation_channels (m : Mode) (q : Bool) (s : State) : (startOperation m q s).channels = s.channels := rfl
@[simp] theorem startOperation_colorspace (m : Mode) (q : Bool) (s : State) : (startOperation m q s).colorspace = s.colorspace := rfl
@[simp] theorem startOperation_srcBase (m : Mode) (q : Bool) (s : State) : (startOperation m q s).srcBase = s.srcBase := rfl
@[simp] theorem startOperation_srcLen (m : Mode) (q : Bool) (s : State) : (startOperation m q s).srcLen = s.srcLen := rfl
@[simp] theorem startOperation_dstBase (m : Mode) (q : Bool) (s : State) : (startOperation m q s).dstBase = s.dstBase := rfl
@[simp] theorem startOperation_dstCap (m : Mode) (q : Bool) (s : State) : (startOperation m q s).dstCap = s.dstCap := rfl
@[simp] theorem startOperation_outLen (m : Mode) (q : Bool) (s : State) : (startOperation m q s).outLen = 0 := rfl
@[simp] theorem startOperation_op (m : Mode) (q : Bool) (s : State) : (startOperation m q s).op = startLatches m s := rfl
@[simp] theorem startOperation_prev (m : Mode) (q : Bool) (s : State) : (startOperation m q s).prev = s.prev := rfl
@[simp] theorem startOperation_run (m : Mode) (q : Bool) (s : State) : (startOperation m q s).run = s.run := rfl
@[simp] theorem startOperation_cache (m : Mode) (q : Bool) (s : State) : (startOperation m q s).cache = s.cache := rfl
@[simp] theorem startOperation_fsm (m : Mode) (q : Bool) (s : State) : (startOperation m q s).fsm = startFsm m := rfl
@[simp] theorem startOperation_mem (m : Mode) (q : Bool) (s : State) : (startOperation m q s).mem = s.mem := rfl
@[simp] theorem startOperation_hostQ (m : Mode) (q : Bool) (s : State) : (startOperation m q s).hostQ = s.hostQ := rfl
@[simp] theorem startOperation_rdata (m : Mode) (q : Bool) (s : State) : (startOperation m q s).rdata = s.rdata := rfl
@[simp] theorem startOperation_draws (m : Mode) (q : Bool) (s : State) : (startOperation m q s).draws = s.draws := rfl
@[simp] theorem startOperation_reach (m : Mode) (q : Bool) (s : State) : (startOperation m q s).reach = 0 := rfl
@[simp] theorem startOperation_inTaint (m : Mode) (q : Bool) (s : State) : (startOperation m q s).inTaint = false := rfl
@[simp] theorem startOperation_outTaint (m : Mode) (q : Bool) (s : State) : (startOperation m q s).outTaint = false := rfl

/-! ### cacheUpdate -/

@[simp] theorem cacheUpdate_cfg (p : Pixel) (s : State) : (cacheUpdate p s).cfg = s.cfg := rfl
@[simp] theorem cacheUpdate_ctrlMode (p : Pixel) (s : State) : (cacheUpdate p s).ctrlMode = s.ctrlMode := rfl
@[simp] theorem cacheUpdate_irqEn (p : Pixel) (s : State) : (cacheUpdate p s).irqEn = s.irqEn := rfl
@[simp] theorem cacheUpdate_busy (p : Pixel) (s : State) : (cacheUpdate p s).busy = s.busy := rfl
@[simp] theorem cacheUpdate_done (p : Pixel) (s : State) : (cacheUpdate p s).done = s.done := rfl
@[simp] theorem cacheUpdate_err (p : Pixel) (s : State) : (cacheUpdate p s).err = s.err := rfl
@[simp] theorem cacheUpdate_errCode (p : Pixel) (s : State) : (cacheUpdate p s).errCode = s.errCode := rfl
@[simp] theorem cacheUpdate_width (p : Pixel) (s : State) : (cacheUpdate p s).width = s.width := rfl
@[simp] theorem cacheUpdate_height (p : Pixel) (s : State) : (cacheUpdate p s).height = s.height := rfl
@[simp] theorem cacheUpdate_channels (p : Pixel) (s : State) : (cacheUpdate p s).channels = s.channels := rfl
@[simp] theorem cacheUpdate_colorspace (p : Pixel) (s : State) : (cacheUpdate p s).colorspace = s.colorspace := rfl
@[simp] theorem cacheUpdate_srcBase (p : Pixel) (s : State) : (cacheUpdate p s).srcBase = s.srcBase := rfl
@[simp] theorem cacheUpdate_srcLen (p : Pixel) (s : State) : (cacheUpdate p s).srcLen = s.srcLen := rfl
@[simp] theorem cacheUpdate_dstBase (p : Pixel) (s : State) : (cacheUpdate p s).dstBase = s.dstBase := rfl
@[simp] theorem cacheUpdate_dstCap (p : Pixel) (s : State) : (cacheUpdate p s).dstCap = s.dstCap := rfl
@[simp] theorem cacheUpdate_outLen (p : Pixel) (s : State) : (cacheUpdate p s).outLen = s.outLen := rfl
@[simp] theorem cacheUpdate_op (p : Pixel) (s : State) : (cacheUpdate p s).op = s.op := rfl
@[simp] theorem cacheUpdate_prev (p : Pixel) (s : State) : (cacheUpdate p s).prev = p := rfl
@[simp] theorem cacheUpdate_run (p : Pixel) (s : State) : (cacheUpdate p s).run = s.run := rfl
@[simp] theorem cacheUpdate_cache (p : Pixel) (s : State) : (cacheUpdate p s).cache = s.cache.set (pixelHash p) p := rfl
@[simp] theorem cacheUpdate_fsm (p : Pixel) (s : State) : (cacheUpdate p s).fsm = s.fsm := rfl
@[simp] theorem cacheUpdate_mem (p : Pixel) (s : State) : (cacheUpdate p s).mem = s.mem := rfl
@[simp] theorem cacheUpdate_hostQ (p : Pixel) (s : State) : (cacheUpdate p s).hostQ = s.hostQ := rfl
@[simp] theorem cacheUpdate_rdata (p : Pixel) (s : State) : (cacheUpdate p s).rdata = s.rdata := rfl
@[simp] theorem cacheUpdate_draws (p : Pixel) (s : State) : (cacheUpdate p s).draws = s.draws := rfl
@[simp] theorem cacheUpdate_reach (p : Pixel) (s : State) : (cacheUpdate p s).reach = s.reach := rfl
@[simp] theorem cacheUpdate_inTaint (p : Pixel) (s : State) : (cacheUpdate p s).inTaint = s.inTaint := rfl
@[simp] theorem cacheUpdate_outTaint (p : Pixel) (s : State) : (cacheUpdate p s).outTaint = s.outTaint := rfl

/-! ### advanceCursor -/

@[simp] theorem advanceCursor_cfg (n : Nat) (s : State) : (advanceCursor n s).cfg = s.cfg := rfl
@[simp] theorem advanceCursor_ctrlMode (n : Nat) (s : State) : (advanceCursor n s).ctrlMode = s.ctrlMode := rfl
@[simp] theorem advanceCursor_irqEn (n : Nat) (s : State) : (advanceCursor n s).irqEn = s.irqEn := rfl
@[simp] theorem advanceCursor_busy (n : Nat) (s : State) : (advanceCursor n s).busy = s.busy := rfl
@[simp] theorem advanceCursor_done (n : Nat) (s : State) : (advanceCursor n s).done = s.done := rfl
@[simp] theorem advanceCursor_err (n : Nat) (s : State) : (advanceCursor n s).err = s.err := rfl
@[simp] theorem advanceCursor_errCode (n : Nat) (s : State) : (advanceCursor n s).errCode = s.errCode := rfl
@[simp] theorem advanceCursor_width (n : Nat) (s : State) : (advanceCursor n s).width = s.width := rfl
@[simp] theorem advanceCursor_height (n : Nat) (s : State) : (advanceCursor n s).height = s.height := rfl
@[simp] theorem advanceCursor_channels (n : Nat) (s : State) : (advanceCursor n s).channels = s.channels := rfl
@[simp] theorem advanceCursor_colorspace (n : Nat) (s : State) : (advanceCursor n s).colorspace = s.colorspace := rfl
@[simp] theorem advanceCursor_srcBase (n : Nat) (s : State) : (advanceCursor n s).srcBase = s.srcBase := rfl
@[simp] theorem advanceCursor_srcLen (n : Nat) (s : State) : (advanceCursor n s).srcLen = s.srcLen := rfl
@[simp] theorem advanceCursor_dstBase (n : Nat) (s : State) : (advanceCursor n s).dstBase = s.dstBase := rfl
@[simp] theorem advanceCursor_dstCap (n : Nat) (s : State) : (advanceCursor n s).dstCap = s.dstCap := rfl
@[simp] theorem advanceCursor_outLen (n : Nat) (s : State) : (advanceCursor n s).outLen = s.outLen := rfl
@[simp] theorem advanceCursor_op (n : Nat) (s : State) : (advanceCursor n s).op = { s.op with inPos := s.op.inPos + BitVec.ofNat 32 n } := rfl
@[simp] theorem advanceCursor_prev (n : Nat) (s : State) : (advanceCursor n s).prev = s.prev := rfl
@[simp] theorem advanceCursor_run (n : Nat) (s : State) : (advanceCursor n s).run = s.run := rfl
@[simp] theorem advanceCursor_cache (n : Nat) (s : State) : (advanceCursor n s).cache = s.cache := rfl
@[simp] theorem advanceCursor_fsm (n : Nat) (s : State) : (advanceCursor n s).fsm = s.fsm := rfl
@[simp] theorem advanceCursor_mem (n : Nat) (s : State) : (advanceCursor n s).mem = s.mem := rfl
@[simp] theorem advanceCursor_hostQ (n : Nat) (s : State) : (advanceCursor n s).hostQ = s.hostQ := rfl
@[simp] theorem advanceCursor_rdata (n : Nat) (s : State) : (advanceCursor n s).rdata = s.rdata := rfl
@[simp] theorem advanceCursor_draws (n : Nat) (s : State) : (advanceCursor n s).draws = s.draws := rfl
@[simp] theorem advanceCursor_reach (n : Nat) (s : State) : (advanceCursor n s).reach = s.reach := rfl
@[simp] theorem advanceCursor_inTaint (n : Nat) (s : State) : (advanceCursor n s).inTaint = s.inTaint := rfl
@[simp] theorem advanceCursor_outTaint (n : Nat) (s : State) : (advanceCursor n s).outTaint = s.outTaint := rfl

/-! ### afterChunk -/

@[simp] theorem afterChunk_cfg (s : State) : (afterChunk s).cfg = s.cfg := rfl
@[simp] theorem afterChunk_ctrlMode (s : State) : (afterChunk s).ctrlMode = s.ctrlMode := rfl
@[simp] theorem afterChunk_irqEn (s : State) : (afterChunk s).irqEn = s.irqEn := rfl
@[simp] theorem afterChunk_busy (s : State) : (afterChunk s).busy = s.busy := rfl
@[simp] theorem afterChunk_done (s : State) : (afterChunk s).done = s.done := rfl
@[simp] theorem afterChunk_err (s : State) : (afterChunk s).err = s.err := rfl
@[simp] theorem afterChunk_errCode (s : State) : (afterChunk s).errCode = s.errCode := rfl
@[simp] theorem afterChunk_width (s : State) : (afterChunk s).width = s.width := rfl
@[simp] theorem afterChunk_height (s : State) : (afterChunk s).height = s.height := rfl
@[simp] theorem afterChunk_channels (s : State) : (afterChunk s).channels = s.channels := rfl
@[simp] theorem afterChunk_colorspace (s : State) : (afterChunk s).colorspace = s.colorspace := rfl
@[simp] theorem afterChunk_srcBase (s : State) : (afterChunk s).srcBase = s.srcBase := rfl
@[simp] theorem afterChunk_srcLen (s : State) : (afterChunk s).srcLen = s.srcLen := rfl
@[simp] theorem afterChunk_dstBase (s : State) : (afterChunk s).dstBase = s.dstBase := rfl
@[simp] theorem afterChunk_dstCap (s : State) : (afterChunk s).dstCap = s.dstCap := rfl
@[simp] theorem afterChunk_outLen (s : State) : (afterChunk s).outLen = s.outLen := rfl
@[simp] theorem afterChunk_op (s : State) : (afterChunk s).op = s.op := rfl
@[simp] theorem afterChunk_prev (s : State) : (afterChunk s).prev = s.prev := rfl
@[simp] theorem afterChunk_run (s : State) : (afterChunk s).run = s.run := rfl
@[simp] theorem afterChunk_cache (s : State) : (afterChunk s).cache = s.cache := rfl
@[simp] theorem afterChunk_fsm (s : State) : (afterChunk s).fsm = if s.op.pix.toNat < s.op.npix.toNat then .decChunk else .decFtr := rfl
@[simp] theorem afterChunk_mem (s : State) : (afterChunk s).mem = s.mem := rfl
@[simp] theorem afterChunk_hostQ (s : State) : (afterChunk s).hostQ = s.hostQ := rfl
@[simp] theorem afterChunk_rdata (s : State) : (afterChunk s).rdata = s.rdata := rfl
@[simp] theorem afterChunk_draws (s : State) : (afterChunk s).draws = s.draws := rfl
@[simp] theorem afterChunk_reach (s : State) : (afterChunk s).reach = s.reach := rfl
@[simp] theorem afterChunk_inTaint (s : State) : (afterChunk s).inTaint = s.inTaint := rfl
@[simp] theorem afterChunk_outTaint (s : State) : (afterChunk s).outTaint = s.outTaint := rfl

/-! ### writeResult -/

@[simp] theorem writeResult_cfg (s : State) : (writeResult s).cfg = s.cfg := rfl
@[simp] theorem writeResult_ctrlMode (s : State) : (writeResult s).ctrlMode = s.ctrlMode := rfl
@[simp] theorem writeResult_irqEn (s : State) : (writeResult s).irqEn = s.irqEn := rfl
@[simp] theorem writeResult_busy (s : State) : (writeResult s).busy = s.busy := rfl
@[simp] theorem writeResult_done (s : State) : (writeResult s).done = s.done := rfl
@[simp] theorem writeResult_err (s : State) : (writeResult s).err = s.err := rfl
@[simp] theorem writeResult_errCode (s : State) : (writeResult s).errCode = s.errCode := rfl
@[simp] theorem writeResult_width (s : State) : (writeResult s).width = s.op.w := rfl
@[simp] theorem writeResult_height (s : State) : (writeResult s).height = s.op.h := rfl
@[simp] theorem writeResult_channels (s : State) : (writeResult s).channels = s.op.ch := rfl
@[simp] theorem writeResult_colorspace (s : State) : (writeResult s).colorspace = s.op.cs := rfl
@[simp] theorem writeResult_srcBase (s : State) : (writeResult s).srcBase = s.srcBase := rfl
@[simp] theorem writeResult_srcLen (s : State) : (writeResult s).srcLen = s.srcLen := rfl
@[simp] theorem writeResult_dstBase (s : State) : (writeResult s).dstBase = s.dstBase := rfl
@[simp] theorem writeResult_dstCap (s : State) : (writeResult s).dstCap = s.dstCap := rfl
@[simp] theorem writeResult_outLen (s : State) : (writeResult s).outLen = s.outLen := rfl
@[simp] theorem writeResult_op (s : State) : (writeResult s).op = s.op := rfl
@[simp] theorem writeResult_prev (s : State) : (writeResult s).prev = s.prev := rfl
@[simp] theorem writeResult_run (s : State) : (writeResult s).run = s.run := rfl
@[simp] theorem writeResult_cache (s : State) : (writeResult s).cache = s.cache := rfl
@[simp] theorem writeResult_fsm (s : State) : (writeResult s).fsm = s.fsm := rfl
@[simp] theorem writeResult_mem (s : State) : (writeResult s).mem = s.mem := rfl
@[simp] theorem writeResult_hostQ (s : State) : (writeResult s).hostQ = s.hostQ := rfl
@[simp] theorem writeResult_rdata (s : State) : (writeResult s).rdata = s.rdata := rfl
@[simp] theorem writeResult_draws (s : State) : (writeResult s).draws = s.draws := rfl
@[simp] theorem writeResult_reach (s : State) : (writeResult s).reach = s.reach := rfl
@[simp] theorem writeResult_inTaint (s : State) : (writeResult s).inTaint = s.inTaint := rfl
@[simp] theorem writeResult_outTaint (s : State) : (writeResult s).outTaint = s.outTaint := rfl

/-! ### afterPixel -/

@[simp] theorem afterPixel_cfg (s : State) : (afterPixel s).cfg = s.cfg := rfl
@[simp] theorem afterPixel_ctrlMode (s : State) : (afterPixel s).ctrlMode = s.ctrlMode := rfl
@[simp] theorem afterPixel_irqEn (s : State) : (afterPixel s).irqEn = s.irqEn := rfl
@[simp] theorem afterPixel_busy (s : State) : (afterPixel s).busy = s.busy := rfl
@[simp] theorem afterPixel_done (s : State) : (afterPixel s).done = s.done := rfl
@[simp] theorem afterPixel_err (s : State) : (afterPixel s).err = s.err := rfl
@[simp] theorem afterPixel_errCode (s : State) : (afterPixel s).errCode = s.errCode := rfl
@[simp] theorem afterPixel_width (s : State) : (afterPixel s).width = s.width := rfl
@[simp] theorem afterPixel_height (s : State) : (afterPixel s).height = s.height := rfl
@[simp] theorem afterPixel_channels (s : State) : (afterPixel s).channels = s.channels := rfl
@[simp] theorem afterPixel_colorspace (s : State) : (afterPixel s).colorspace = s.colorspace := rfl
@[simp] theorem afterPixel_srcBase (s : State) : (afterPixel s).srcBase = s.srcBase := rfl
@[simp] theorem afterPixel_srcLen (s : State) : (afterPixel s).srcLen = s.srcLen := rfl
@[simp] theorem afterPixel_dstBase (s : State) : (afterPixel s).dstBase = s.dstBase := rfl
@[simp] theorem afterPixel_dstCap (s : State) : (afterPixel s).dstCap = s.dstCap := rfl
@[simp] theorem afterPixel_outLen (s : State) : (afterPixel s).outLen = s.outLen := rfl
@[simp] theorem afterPixel_prev (s : State) : (afterPixel s).prev = s.prev := rfl
@[simp] theorem afterPixel_run (s : State) : (afterPixel s).run = s.run := rfl
@[simp] theorem afterPixel_cache (s : State) : (afterPixel s).cache = s.cache := rfl
@[simp] theorem afterPixel_mem (s : State) : (afterPixel s).mem = s.mem := rfl
@[simp] theorem afterPixel_hostQ (s : State) : (afterPixel s).hostQ = s.hostQ := rfl
@[simp] theorem afterPixel_rdata (s : State) : (afterPixel s).rdata = s.rdata := rfl
@[simp] theorem afterPixel_draws (s : State) : (afterPixel s).draws = s.draws := rfl
@[simp] theorem afterPixel_reach (s : State) : (afterPixel s).reach = s.reach := rfl
@[simp] theorem afterPixel_inTaint (s : State) : (afterPixel s).inTaint = s.inTaint := rfl
@[simp] theorem afterPixel_outTaint (s : State) : (afterPixel s).outTaint = s.outTaint := rfl

/-! ### hostReset -/

@[simp] theorem hostReset_cfg (s : State) : (hostReset s).cfg = s.cfg := rfl
@[simp] theorem hostReset_ctrlMode (s : State) : (hostReset s).ctrlMode = .encode := rfl
@[simp] theorem hostReset_irqEn (s : State) : (hostReset s).irqEn = false := rfl
@[simp] theorem hostReset_busy (s : State) : (hostReset s).busy = false := rfl
@[simp] theorem hostReset_done (s : State) : (hostReset s).done = false := rfl
@[simp] theorem hostReset_err (s : State) : (hostReset s).err = false := rfl
@[simp] theorem hostReset_errCode (s : State) : (hostReset s).errCode = 0 := rfl
@[simp] theorem hostReset_width (s : State) : (hostReset s).width = 0 := rfl
@[simp] theorem hostReset_height (s : State) : (hostReset s).height = 0 := rfl
@[simp] theorem hostReset_channels (s : State) : (hostReset s).channels = 0 := rfl
@[simp] theorem hostReset_colorspace (s : State) : (hostReset s).colorspace = 0 := rfl
@[simp] theorem hostReset_srcBase (s : State) : (hostReset s).srcBase = 0 := rfl
@[simp] theorem hostReset_srcLen (s : State) : (hostReset s).srcLen = 0 := rfl
@[simp] theorem hostReset_dstBase (s : State) : (hostReset s).dstBase = 0 := rfl
@[simp] theorem hostReset_dstCap (s : State) : (hostReset s).dstCap = 0 := rfl
@[simp] theorem hostReset_outLen (s : State) : (hostReset s).outLen = 0 := rfl
@[simp] theorem hostReset_op (s : State) : (hostReset s).op = resetLatches := rfl
@[simp] theorem hostReset_prev (s : State) : (hostReset s).prev = resetPixel := rfl
@[simp] theorem hostReset_run (s : State) : (hostReset s).run = 0 := rfl
@[simp] theorem hostReset_cache (s : State) : (hostReset s).cache = Vector.replicate 64 resetPixel := rfl
@[simp] theorem hostReset_fsm (s : State) : (hostReset s).fsm = .idle := rfl
@[simp] theorem hostReset_mem (s : State) : (hostReset s).mem = (resetOutput s).mem := rfl
@[simp] theorem hostReset_hostQ (s : State) : (hostReset s).hostQ = s.hostQ := rfl
@[simp] theorem hostReset_rdata (s : State) : (hostReset s).rdata = s.rdata := rfl
@[simp] theorem hostReset_draws (s : State) : (hostReset s).draws = (resetOutput s).draws := rfl
@[simp] theorem hostReset_reach (s : State) : (hostReset s).reach = 0 := rfl
@[simp] theorem hostReset_inTaint (s : State) : (hostReset s).inTaint = false := rfl
@[simp] theorem hostReset_outTaint (s : State) : (hostReset s).outTaint = false := rfl

/-! ### settleOutput -/

@[simp] theorem settleOutput_cfg (s : State) : (settleOutput s).cfg = s.cfg := by unfold settleOutput; split <;> rfl
@[simp] theorem settleOutput_ctrlMode (s : State) : (settleOutput s).ctrlMode = s.ctrlMode := by unfold settleOutput; split <;> rfl
@[simp] theorem settleOutput_irqEn (s : State) : (settleOutput s).irqEn = s.irqEn := by unfold settleOutput; split <;> rfl
@[simp] theorem settleOutput_busy (s : State) : (settleOutput s).busy = s.busy := by unfold settleOutput; split <;> rfl
@[simp] theorem settleOutput_done (s : State) : (settleOutput s).done = s.done := by unfold settleOutput; split <;> rfl
@[simp] theorem settleOutput_err (s : State) : (settleOutput s).err = s.err := by unfold settleOutput; split <;> rfl
@[simp] theorem settleOutput_errCode (s : State) : (settleOutput s).errCode = s.errCode := by unfold settleOutput; split <;> rfl
@[simp] theorem settleOutput_width (s : State) : (settleOutput s).width = s.width := by unfold settleOutput; split <;> rfl
@[simp] theorem settleOutput_height (s : State) : (settleOutput s).height = s.height := by unfold settleOutput; split <;> rfl
@[simp] theorem settleOutput_channels (s : State) : (settleOutput s).channels = s.channels := by unfold settleOutput; split <;> rfl
@[simp] theorem settleOutput_colorspace (s : State) : (settleOutput s).colorspace = s.colorspace := by unfold settleOutput; split <;> rfl
@[simp] theorem settleOutput_srcBase (s : State) : (settleOutput s).srcBase = s.srcBase := by unfold settleOutput; split <;> rfl
@[simp] theorem settleOutput_srcLen (s : State) : (settleOutput s).srcLen = s.srcLen := by unfold settleOutput; split <;> rfl
@[simp] theorem settleOutput_dstBase (s : State) : (settleOutput s).dstBase = s.dstBase := by unfold settleOutput; split <;> rfl
@[simp] theorem settleOutput_dstCap (s : State) : (settleOutput s).dstCap = s.dstCap := by unfold settleOutput; split <;> rfl
@[simp] theorem settleOutput_outLen (s : State) : (settleOutput s).outLen = s.outLen := by unfold settleOutput; split <;> rfl
@[simp] theorem settleOutput_op (s : State) : (settleOutput s).op = s.op := by unfold settleOutput; split <;> rfl
@[simp] theorem settleOutput_prev (s : State) : (settleOutput s).prev = s.prev := by unfold settleOutput; split <;> rfl
@[simp] theorem settleOutput_run (s : State) : (settleOutput s).run = s.run := by unfold settleOutput; split <;> rfl
@[simp] theorem settleOutput_cache (s : State) : (settleOutput s).cache = s.cache := by unfold settleOutput; split <;> rfl
@[simp] theorem settleOutput_fsm (s : State) : (settleOutput s).fsm = s.fsm := by unfold settleOutput; split <;> rfl
@[simp] theorem settleOutput_hostQ (s : State) : (settleOutput s).hostQ = s.hostQ := by unfold settleOutput; split <;> rfl
@[simp] theorem settleOutput_rdata (s : State) : (settleOutput s).rdata = s.rdata := by unfold settleOutput; split <;> rfl
@[simp] theorem settleOutput_reach (s : State) : (settleOutput s).reach = s.reach := by unfold settleOutput; split <;> rfl
@[simp] theorem settleOutput_inTaint (s : State) : (settleOutput s).inTaint = s.inTaint := by unfold settleOutput; split <;> rfl
@[simp] theorem settleOutput_outTaint (s : State) : (settleOutput s).outTaint = s.outTaint := by unfold settleOutput; split <;> rfl

/-! ### resetOutput -/

@[simp] theorem resetOutput_cfg (s : State) : (resetOutput s).cfg = s.cfg := by unfold resetOutput; split <;> rfl
@[simp] theorem resetOutput_ctrlMode (s : State) : (resetOutput s).ctrlMode = s.ctrlMode := by unfold resetOutput; split <;> rfl
@[simp] theorem resetOutput_irqEn (s : State) : (resetOutput s).irqEn = s.irqEn := by unfold resetOutput; split <;> rfl
@[simp] theorem resetOutput_busy (s : State) : (resetOutput s).busy = s.busy := by unfold resetOutput; split <;> rfl
@[simp] theorem resetOutput_done (s : State) : (resetOutput s).done = s.done := by unfold resetOutput; split <;> rfl
@[simp] theorem resetOutput_err (s : State) : (resetOutput s).err = s.err := by unfold resetOutput; split <;> rfl
@[simp] theorem resetOutput_errCode (s : State) : (resetOutput s).errCode = s.errCode := by unfold resetOutput; split <;> rfl
@[simp] theorem resetOutput_width (s : State) : (resetOutput s).width = s.width := by unfold resetOutput; split <;> rfl
@[simp] theorem resetOutput_height (s : State) : (resetOutput s).height = s.height := by unfold resetOutput; split <;> rfl
@[simp] theorem resetOutput_channels (s : State) : (resetOutput s).channels = s.channels := by unfold resetOutput; split <;> rfl
@[simp] theorem resetOutput_colorspace (s : State) : (resetOutput s).colorspace = s.colorspace := by unfold resetOutput; split <;> rfl
@[simp] theorem resetOutput_srcBase (s : State) : (resetOutput s).srcBase = s.srcBase := by unfold resetOutput; split <;> rfl
@[simp] theorem resetOutput_srcLen (s : State) : (resetOutput s).srcLen = s.srcLen := by unfold resetOutput; split <;> rfl
@[simp] theorem resetOutput_dstBase (s : State) : (resetOutput s).dstBase = s.dstBase := by unfold resetOutput; split <;> rfl
@[simp] theorem resetOutput_dstCap (s : State) : (resetOutput s).dstCap = s.dstCap := by unfold resetOutput; split <;> rfl
@[simp] theorem resetOutput_outLen (s : State) : (resetOutput s).outLen = s.outLen := by unfold resetOutput; split <;> rfl
@[simp] theorem resetOutput_op (s : State) : (resetOutput s).op = s.op := by unfold resetOutput; split <;> rfl
@[simp] theorem resetOutput_prev (s : State) : (resetOutput s).prev = s.prev := by unfold resetOutput; split <;> rfl
@[simp] theorem resetOutput_run (s : State) : (resetOutput s).run = s.run := by unfold resetOutput; split <;> rfl
@[simp] theorem resetOutput_cache (s : State) : (resetOutput s).cache = s.cache := by unfold resetOutput; split <;> rfl
@[simp] theorem resetOutput_fsm (s : State) : (resetOutput s).fsm = s.fsm := by unfold resetOutput; split <;> rfl
@[simp] theorem resetOutput_hostQ (s : State) : (resetOutput s).hostQ = s.hostQ := by unfold resetOutput; split <;> rfl
@[simp] theorem resetOutput_rdata (s : State) : (resetOutput s).rdata = s.rdata := by unfold resetOutput; split <;> rfl
@[simp] theorem resetOutput_reach (s : State) : (resetOutput s).reach = s.reach := by unfold resetOutput; split <;> rfl
@[simp] theorem resetOutput_inTaint (s : State) : (resetOutput s).inTaint = s.inTaint := by unfold resetOutput; split <;> rfl
@[simp] theorem resetOutput_outTaint (s : State) : (resetOutput s).outTaint = s.outTaint := by unfold resetOutput; split <;> rfl

/-! ### storeColour -/

@[simp] theorem storeColour_cfg (p : Pixel) (s : State) : (storeColour p s).cfg = s.cfg := by unfold storeColour; split <;> rfl
@[simp] theorem storeColour_ctrlMode (p : Pixel) (s : State) : (storeColour p s).ctrlMode = s.ctrlMode := by unfold storeColour; split <;> rfl
@[simp] theorem storeColour_irqEn (p : Pixel) (s : State) : (storeColour p s).irqEn = s.irqEn := by unfold storeColour; split <;> rfl
@[simp] theorem storeColour_busy (p : Pixel) (s : State) : (storeColour p s).busy = s.busy := by unfold storeColour; split <;> rfl
@[simp] theorem storeColour_done (p : Pixel) (s : State) : (storeColour p s).done = s.done := by unfold storeColour; split <;> rfl
@[simp] theorem storeColour_err (p : Pixel) (s : State) : (storeColour p s).err = s.err := by unfold storeColour; split <;> rfl
@[simp] theorem storeColour_errCode (p : Pixel) (s : State) : (storeColour p s).errCode = s.errCode := by unfold storeColour; split <;> rfl
@[simp] theorem storeColour_width (p : Pixel) (s : State) : (storeColour p s).width = s.width := by unfold storeColour; split <;> rfl
@[simp] theorem storeColour_height (p : Pixel) (s : State) : (storeColour p s).height = s.height := by unfold storeColour; split <;> rfl
@[simp] theorem storeColour_channels (p : Pixel) (s : State) : (storeColour p s).channels = s.channels := by unfold storeColour; split <;> rfl
@[simp] theorem storeColour_colorspace (p : Pixel) (s : State) : (storeColour p s).colorspace = s.colorspace := by unfold storeColour; split <;> rfl
@[simp] theorem storeColour_srcBase (p : Pixel) (s : State) : (storeColour p s).srcBase = s.srcBase := by unfold storeColour; split <;> rfl
@[simp] theorem storeColour_srcLen (p : Pixel) (s : State) : (storeColour p s).srcLen = s.srcLen := by unfold storeColour; split <;> rfl
@[simp] theorem storeColour_dstBase (p : Pixel) (s : State) : (storeColour p s).dstBase = s.dstBase := by unfold storeColour; split <;> rfl
@[simp] theorem storeColour_dstCap (p : Pixel) (s : State) : (storeColour p s).dstCap = s.dstCap := by unfold storeColour; split <;> rfl
@[simp] theorem storeColour_outLen (p : Pixel) (s : State) : (storeColour p s).outLen = s.outLen := by unfold storeColour; split <;> rfl
@[simp] theorem storeColour_op (p : Pixel) (s : State) : (storeColour p s).op = s.op := by unfold storeColour; split <;> rfl
@[simp] theorem storeColour_prev (p : Pixel) (s : State) : (storeColour p s).prev = s.prev := by unfold storeColour; split <;> rfl
@[simp] theorem storeColour_run (p : Pixel) (s : State) : (storeColour p s).run = s.run := by unfold storeColour; split <;> rfl
@[simp] theorem storeColour_fsm (p : Pixel) (s : State) : (storeColour p s).fsm = s.fsm := by unfold storeColour; split <;> rfl
@[simp] theorem storeColour_mem (p : Pixel) (s : State) : (storeColour p s).mem = s.mem := by unfold storeColour; split <;> rfl
@[simp] theorem storeColour_hostQ (p : Pixel) (s : State) : (storeColour p s).hostQ = s.hostQ := by unfold storeColour; split <;> rfl
@[simp] theorem storeColour_rdata (p : Pixel) (s : State) : (storeColour p s).rdata = s.rdata := by unfold storeColour; split <;> rfl
@[simp] theorem storeColour_draws (p : Pixel) (s : State) : (storeColour p s).draws = s.draws := by unfold storeColour; split <;> rfl
@[simp] theorem storeColour_reach (p : Pixel) (s : State) : (storeColour p s).reach = s.reach := by unfold storeColour; split <;> rfl
@[simp] theorem storeColour_inTaint (p : Pixel) (s : State) : (storeColour p s).inTaint = s.inTaint := by unfold storeColour; split <;> rfl
@[simp] theorem storeColour_outTaint (p : Pixel) (s : State) : (storeColour p s).outTaint = s.outTaint := by unfold storeColour; split <;> rfl

/-! ### complete -/

@[simp] theorem complete_cfg (n : Word) (s : State) : (complete n s).cfg = s.cfg := by simp [complete]
@[simp] theorem complete_ctrlMode (n : Word) (s : State) : (complete n s).ctrlMode = s.ctrlMode := by simp [complete]
@[simp] theorem complete_irqEn (n : Word) (s : State) : (complete n s).irqEn = s.irqEn := by simp [complete]
@[simp] theorem complete_busy (n : Word) (s : State) : (complete n s).busy = false := rfl
@[simp] theorem complete_done (n : Word) (s : State) : (complete n s).done = true := rfl
@[simp] theorem complete_err (n : Word) (s : State) : (complete n s).err = s.err := by simp [complete]
@[simp] theorem complete_errCode (n : Word) (s : State) : (complete n s).errCode = 0 := rfl
@[simp] theorem complete_width (n : Word) (s : State) : (complete n s).width = s.width := by simp [complete]
@[simp] theorem complete_height (n : Word) (s : State) : (complete n s).height = s.height := by simp [complete]
@[simp] theorem complete_channels (n : Word) (s : State) : (complete n s).channels = s.channels := by simp [complete]
@[simp] theorem complete_colorspace (n : Word) (s : State) : (complete n s).colorspace = s.colorspace := by simp [complete]
@[simp] theorem complete_srcBase (n : Word) (s : State) : (complete n s).srcBase = s.srcBase := by simp [complete]
@[simp] theorem complete_srcLen (n : Word) (s : State) : (complete n s).srcLen = s.srcLen := by simp [complete]
@[simp] theorem complete_dstBase (n : Word) (s : State) : (complete n s).dstBase = s.dstBase := by simp [complete]
@[simp] theorem complete_dstCap (n : Word) (s : State) : (complete n s).dstCap = s.dstCap := by simp [complete]
@[simp] theorem complete_outLen (n : Word) (s : State) : (complete n s).outLen = n := rfl
@[simp] theorem complete_op (n : Word) (s : State) : (complete n s).op = s.op := by simp [complete]
@[simp] theorem complete_prev (n : Word) (s : State) : (complete n s).prev = s.prev := by simp [complete]
@[simp] theorem complete_run (n : Word) (s : State) : (complete n s).run = s.run := by simp [complete]
@[simp] theorem complete_cache (n : Word) (s : State) : (complete n s).cache = s.cache := by simp [complete]
@[simp] theorem complete_fsm (n : Word) (s : State) : (complete n s).fsm = .idle := rfl
@[simp] theorem complete_mem (n : Word) (s : State) : (complete n s).mem = (settleOutput s).mem := rfl
@[simp] theorem complete_hostQ (n : Word) (s : State) : (complete n s).hostQ = s.hostQ := by simp [complete]
@[simp] theorem complete_rdata (n : Word) (s : State) : (complete n s).rdata = s.rdata := by simp [complete]
@[simp] theorem complete_draws (n : Word) (s : State) : (complete n s).draws = (settleOutput s).draws := rfl
@[simp] theorem complete_reach (n : Word) (s : State) : (complete n s).reach = 0 := rfl
@[simp] theorem complete_inTaint (n : Word) (s : State) : (complete n s).inTaint = false := rfl
@[simp] theorem complete_outTaint (n : Word) (s : State) : (complete n s).outTaint = false := rfl

/-! ### raise: the fields that hold free values -/

@[simp] theorem raise_mem (e : ErrKind) (s : State) :
    (raise e s).mem = (scrambleOutput (fun _ => false) (unspecifiedOutput s) s).mem := rfl

@[simp] theorem raise_draws (e : ErrKind) (s : State) : (raise e s).draws = s.draws + unspecifiedOutput s + 80 := rfl

/-! ### afterPixel -/

@[simp] theorem afterPixel_op (s : State) : (afterPixel s).op =
    { s.op with pix := s.op.pix + 1, inPos := BitVec.ofNat 32 (s.op.ch.toNat * (s.op.pix + 1).toNat) } := rfl

@[simp] theorem afterPixel_fsm (s : State) :
    (afterPixel s).fsm = if (s.op.pix + 1).toNat < s.op.npix.toNat then .encPix else .encFtr := rfl

end Sys2Proof.Machine
end

