-- ==== Sys2Proof/Laws/Memory.lean ====
section
/-! SUPPORT. The laws of host memory: a read after a write, the canonical form and that every memory operation keeps
it, and that memories in the form that read alike are equal. -/

namespace Sys2Proof.Machine

/-! ### One write -/

theorem Memory.read_absent {m : Memory} {a : Nat} (h : ∀ c ∈ m, a < c.1) :
    Memory.read m a = Config.unlistedByte := by
  induction m with
  | nil => rfl
  | cons c m ih =>
    obtain ⟨k, v⟩ := c
    have hk : a < k := h (k, v) (by simp)
    rw [Memory.read, if_neg (by omega)]
    exact ih fun c hc => h c (by simp [hc])

/-- A write leaves every other address alone. -/
theorem Memory.read_write_other (m : Memory) {a x : Nat} (b : Byte) (h : x ≠ a) :
    Memory.read (Memory.write m a b) x = Memory.read m x := by
  induction m with
  | nil => by_cases hb : b = Config.unlistedByte <;> simp [Memory.write, Memory.read, hb, h]
  | cons c m ih =>
    obtain ⟨k, v⟩ := c
    by_cases h1 : a < k
    · by_cases hb : b = Config.unlistedByte <;> simp [Memory.write, Memory.read, hb, h, h1]
    · by_cases h2 : a = k
      · subst h2
        by_cases hb : b = Config.unlistedByte <;> simp [Memory.write, Memory.read, hb, h]
      · simp only [Memory.write, h1, h2, if_false, Memory.read, ih]

/-- A read after a write to the same address gives the value written. -/
theorem Memory.read_write_same {m : Memory} (hm : Memory.wf m) (a : Nat) (b : Byte) :
    Memory.read (Memory.write m a b) a = b := by
  induction m with
  | nil =>
    by_cases hb : b = Config.unlistedByte
    · simp [Memory.write, Memory.read, hb]
    · simp [Memory.write, Memory.read, hb]
  | cons c m ih =>
    obtain ⟨k, v⟩ := c
    obtain ⟨hs, hv⟩ := hm
    rw [List.pairwise_cons] at hs
    by_cases h1 : a < k
    · by_cases hb : b = Config.unlistedByte
      · simp only [Memory.write, h1, hb, if_true]
        exact Memory.read_absent fun c hc => by
          rcases List.mem_cons.1 hc with rfl | hc
          · exact h1
          · exact lt_trans h1 (hs.1 c hc)
      · simp [Memory.write, Memory.read, hb, h1]
    · by_cases h2 : a = k
      · subst h2
        by_cases hb : b = Config.unlistedByte
        · simp only [Memory.write, lt_irrefl, hb, if_true, if_false]
          exact Memory.read_absent fun c hc => hs.1 c hc
        · simp [Memory.write, Memory.read, hb]
      · simp only [Memory.write, h1, h2, if_false, Memory.read]
        exact ih ⟨hs.2, fun c hc => hv c (by simp [hc])⟩

theorem Memory.read_write {m : Memory} (hm : Memory.wf m) (a : Nat) (b : Byte) (x : Nat) :
    Memory.read (Memory.write m a b) x = if x = a then b else Memory.read m x := by
  split
  · next h => subst h; exact Memory.read_write_same hm _ b
  · next h => exact Memory.read_write_other m b h

/-- The addresses of a memory after a write: those before, and the address written. -/
theorem Memory.mem_write {m : Memory} {a : Nat} {b : Byte} {c : Host.Cell} (h : c ∈ Memory.write m a b) :
    c ∈ m ∨ (c = (a, b) ∧ b ≠ Config.unlistedByte) := by
  induction m with
  | nil => by_cases hb : b = Config.unlistedByte <;> simp_all [Memory.write]
  | cons d m ih =>
    obtain ⟨k, v⟩ := d
    by_cases hb : b = Config.unlistedByte <;> by_cases h1 : a < k <;> by_cases h2 : a = k <;>
      simp_all [Memory.write] <;> tauto

/-- A write inside the address space keeps the canonical form. -/
theorem Memory.wf_write {m : Memory} (hm : Memory.wf m) {a : Nat} (ha : a < Config.addressSpace) (b : Byte) :
    Memory.wf (Memory.write m a b) := by
  constructor
  · have hs := hm.1
    clear hm
    induction m with
    | nil => by_cases hb : b = Config.unlistedByte <;> simp [Memory.write, hb]
    | cons d m ih =>
      obtain ⟨k, v⟩ := d
      rw [List.pairwise_cons] at hs
      by_cases h1 : a < k
      · by_cases hb : b = Config.unlistedByte
        · simp only [Memory.write, h1, hb, if_true]
          exact List.pairwise_cons.2 hs
        · simp only [Memory.write, h1, hb, if_true, if_false]
          refine List.pairwise_cons.2 ⟨fun c hc => ?_, List.pairwise_cons.2 hs⟩
          rcases List.mem_cons.1 hc with rfl | hc
          · exact h1
          · exact lt_trans h1 (hs.1 c hc)
      · by_cases h2 : a = k
        · subst h2
          by_cases hb : b = Config.unlistedByte
          · simp only [Memory.write, lt_irrefl, hb, if_true, if_false]
            exact hs.2
          · simp only [Memory.write, lt_irrefl, hb, if_true, if_false]
            exact List.pairwise_cons.2 ⟨fun c hc => hs.1 c hc, hs.2⟩
        · simp only [Memory.write, h1, h2, if_false]
          refine List.pairwise_cons.2 ⟨fun c hc => ?_, ih hs.2⟩
          rcases Memory.mem_write hc with hc | ⟨rfl, -⟩
          · exact hs.1 c hc
          · show k < a
            omega
  · intro c hc
    rcases Memory.mem_write hc with hc | ⟨rfl, hb⟩
    · exact hm.2 c hc
    · exact ⟨hb, ha⟩

/-! ### Consecutive bytes -/

/-- A store leaves every address outside its bytes alone. -/
theorem Memory.read_store_other (bs : List Byte) (m : Memory) {a x : Nat} (h : x < a ∨ a + bs.length ≤ x) :
    Memory.read (Memory.store bs a m) x = Memory.read m x := by
  induction bs generalizing a m with
  | nil => rfl
  | cons b bs ih =>
    simp only [List.length_cons] at h
    rw [Memory.store, ih _ (by omega), Memory.read_write_other _ _ (by omega)]

/-- Bytes that end inside the address space keep the canonical form. -/
theorem Memory.wf_store (bs : List Byte) {m : Memory} (hm : Memory.wf m) {a : Nat}
    (ha : a + bs.length ≤ Config.addressSpace) : Memory.wf (Memory.store bs a m) := by
  induction bs generalizing a m with
  | nil => exact hm
  | cons b bs ih =>
    simp only [List.length_cons] at ha
    exact ih (Memory.wf_write hm (by omega) b) (by omega)

/-- A read of a stored byte gives it. -/
theorem Memory.read_store_same (bs : List Byte) {m : Memory} (hm : Memory.wf m) {a : Nat}
    (ha : a + bs.length ≤ Config.addressSpace) {i : Nat} (hi : i < bs.length) :
    Memory.read (Memory.store bs a m) (a + i) = bs.getD i 0 := by
  induction bs generalizing a m i with
  | nil => simp at hi
  | cons b bs ih =>
    simp only [List.length_cons] at ha hi
    rw [Memory.store]
    cases i with
    | zero =>
      rw [Memory.read_store_other _ _ (by omega), Nat.add_zero, Memory.read_write_same hm]
      rfl
    | succ i =>
      have h := ih (Memory.wf_write hm (show a < _ by omega) b) (a := a + 1) (i := i) (by omega) (by omega)
      rw [show a + (i + 1) = a + 1 + i by omega, h]
      rfl

theorem Memory.store_append (bs cs : List Byte) (a : Nat) (m : Memory) :
    Memory.store (bs ++ cs) a m = Memory.store cs (a + bs.length) (Memory.store bs a m) := by
  induction bs generalizing a m with
  | nil => rfl
  | cons b bs ih =>
    rw [List.cons_append, Memory.store, ih, Memory.store, List.length_cons, show a + 1 + bs.length = a + (bs.length + 1) by omega]

/-! ### Filling with free values -/

/-- A fill leaves the addresses outside its range, and those it passes over, alone. -/
theorem Memory.read_fill_other (keep : Nat → Bool) (f : Nat → Byte) (base n : Nat) (m : Memory) {x : Nat}
    (h : x < base ∨ base + n ≤ x ∨ keep x = true) :
    Memory.read (Memory.fill keep f base n m) x = Memory.read m x := by
  induction n with
  | zero => rfl
  | succ n ih =>
    have ih' := ih (h.imp id (Or.imp (by omega) id))
    rw [Memory.fill]
    split
    · exact ih'
    · next hk =>
      rw [Memory.read_write_other _ _ (by rintro rfl; rcases h with h | h | h <;> first | omega | exact hk h), ih']

/-- A fill that passes over what lies outside the address space keeps the canonical form. -/
theorem Memory.wf_fill {keep : Nat → Bool} (f : Nat → Byte) (base n : Nat) {m : Memory} (hm : Memory.wf m)
    (hk : ∀ x, Config.addressSpace ≤ x → keep x = true) : Memory.wf (Memory.fill keep f base n m) := by
  induction n with
  | zero => exact hm
  | succ n ih =>
    rw [Memory.fill]
    split
    · exact ih
    · next h => exact Memory.wf_write ih (Nat.lt_of_not_le fun hx => h (hk _ hx)) _

@[simp] theorem Memory.fill_zero (keep : Nat → Bool) (f : Nat → Byte) (base : Nat) (m : Memory) :
    Memory.fill keep f base 0 m = m := rfl

/-! ### Equal memories are equal data -/

theorem Memory.read_head {k : Nat} {v : Byte} {m : Memory} : Memory.read ((k, v) :: m) k = v := by
  simp [Memory.read]

/-- Memories in the canonical form that read alike are equal. -/
theorem Memory.ext_read {m m' : Memory} (hm : Memory.wf m) (hm' : Memory.wf m')
    (h : ∀ a, Memory.read m a = Memory.read m' a) : m = m' := by
  induction m generalizing m' with
  | nil =>
    cases m' with
    | nil => rfl
    | cons c m' =>
      obtain ⟨k, v⟩ := c
      have := h k
      rw [Memory.read_head] at this
      exact absurd this.symm (hm'.2 (k, v) (by simp)).1
  | cons c m ih =>
    obtain ⟨k, v⟩ := c
    have hs := List.pairwise_cons.1 hm.1
    have hv := (hm.2 (k, v) (by simp)).1
    cases m' with
    | nil =>
      have := h k
      rw [Memory.read_head] at this
      exact absurd this hv
    | cons c' m' =>
      obtain ⟨k', v'⟩ := c'
      have hs' := List.pairwise_cons.1 hm'.1
      have hv' := (hm'.2 (k', v') (by simp)).1
      have hk : k = k' := by
        rcases lt_trichotomy k k' with hlt | heq | hlt
        · have := h k
          rw [Memory.read_head, Memory.read_absent (m := (k', v') :: m')] at this
          · exact absurd this hv
          · intro c hc
            rcases List.mem_cons.1 hc with rfl | hc
            · exact hlt
            · exact lt_trans hlt (hs'.1 c hc)
        · exact heq
        · have := h k'
          rw [Memory.read_head, Memory.read_absent (m := (k, v) :: m)] at this
          · exact absurd this.symm hv'
          · intro c hc
            rcases List.mem_cons.1 hc with rfl | hc
            · exact hlt
            · exact lt_trans hlt (hs.1 c hc)
      subst hk
      have hvv : v = v' := by
        have := h k
        rwa [Memory.read_head, Memory.read_head] at this
      subst hvv
      have htail : m = m' := by
        refine ih ⟨hs.2, fun c hc => hm.2 c (by simp [hc])⟩ ⟨hs'.2, fun c hc => hm'.2 c (by simp [hc])⟩ fun a => ?_
        by_cases hak : a = k
        · subst hak
          rw [Memory.read_absent fun c hc => hs.1 c hc, Memory.read_absent fun c hc => hs'.1 c hc]
        · simpa [Memory.read, hak] using h a
      rw [htail]

/-! ### The operations of State that write memory -/

theorem scrambleOutput_wf {s : State} (hm : Memory.wf s.mem) (keep : Nat → Bool) (n : Nat) :
    Memory.wf (scrambleOutput keep n s).mem :=
  Memory.wf_fill _ _ _ hm fun x hx => by simp [hx]

/-- Outside its range, and where it passes over, `scrambleOutput` leaves memory alone. -/
theorem scrambleOutput_read_other (keep : Nat → Bool) (n : Nat) (s : State) {x : Nat}
    (h : x < s.op.dstBase.toNat ∨ s.op.dstBase.toNat + n ≤ x ∨ keep x = true) :
    Memory.read (scrambleOutput keep n s).mem x = Memory.read s.mem x :=
  Memory.read_fill_other _ _ _ _ _ (by
    rcases h with h | h | h
    · exact .inl h
    · exact .inr (.inl h)
    · exact .inr (.inr (by simp [h])))

@[simp] theorem scrambleOutput_none_mem (keep : Nat → Bool) (s : State) : (scrambleOutput keep 0 s).mem = s.mem := rfl

theorem settleOutput_wf {s : State} (hm : Memory.wf s.mem) : Memory.wf (settleOutput s).mem := by
  unfold settleOutput
  split
  · exact scrambleOutput_wf hm _ _
  · exact hm

theorem resetOutput_wf {s : State} (hm : Memory.wf s.mem) : Memory.wf (resetOutput s).mem := by
  unfold resetOutput
  split
  · exact scrambleOutput_wf hm _ _
  · exact hm

theorem raise_wf {s : State} (hm : Memory.wf s.mem) (e : ErrKind) : Memory.wf (raise e s).mem :=
  scrambleOutput_wf hm _ _

theorem reset_mem_wf : Memory.wf State.reset.mem := by
  constructor <;> simp [State.reset]

end Sys2Proof.Machine
end

