-- ==== Sys2Proof/Laws/Access.lean ====
section
/-! SUPPORT. What the engine's accesses can do: for each, one lemma for each way it can end (it completed, it ended the
operation with BusError, the machine faults), and one that says when it completes and with what. -/

namespace Sys2Proof.Machine

/-! ### Sequencing -/

@[simp] theorem Acc.bind_ok {α β : Type} (a : α) (s : State) (k : α → State → Acc β) : (Acc.ok a s).bind k = k a s := rfl

@[simp] theorem Acc.finish_ok {α : Type} (a : α) (s : State) (k : α → State → Answer) :
    (Acc.ok a s).finish k = k a s := rfl

@[simp] theorem Acc.finish_raised {α : Type} (e : ErrKind) (s : State) (k : α → State → Answer) :
    (Acc.raised e s : Acc α).finish k = .next (raise e s) := rfl

theorem Acc.bind_eq_ok {α β : Type} {x : Acc α} {k : α → State → Acc β} {b : β} {t : State} :
    x.bind k = .ok b t ↔ ∃ a s, x = .ok a s ∧ k a s = .ok b t := by
  cases x <;> simp [Acc.bind]

theorem Acc.bind_eq_raised {α β : Type} {x : Acc α} {k : α → State → Acc β} {e : ErrKind} {t : State} :
    x.bind k = .raised e t ↔ x = .raised e t ∨ ∃ a s, x = .ok a s ∧ k a s = .raised e t := by
  cases x <;> simp [Acc.bind]

theorem Acc.bind_eq_fault {α β : Type} {x : Acc α} {k : α → State → Acc β} {f : Fault} :
    x.bind k = .fault f ↔ x = .fault f ∨ ∃ a s, x = .ok a s ∧ k a s = .fault f := by
  cases x <;> simp [Acc.bind]

theorem Acc.finish_eq_next {α : Type} {x : Acc α} {k : α → State → Answer} {t : State} :
    x.finish k = .next t ↔
      (∃ a s, x = .ok a s ∧ k a s = .next t) ∨ ∃ e s, x = .raised e s ∧ t = raise e s := by
  cases x <;> simp [Acc.finish, eq_comm]

theorem Acc.finish_eq_fault {α : Type} {x : Acc α} {k : α → State → Answer} {f : Fault} :
    x.finish k = .fault f ↔ x = .fault f ∨ ∃ a s, x = .ok a s ∧ k a s = .fault f := by
  cases x <;> simp [Acc.finish]

theorem Acc.finish_eq_refused {α : Type} {x : Acc α} {k : α → State → Answer} {r : Refusal} :
    x.finish k = .refused r ↔ ∃ a s, x = .ok a s ∧ k a s = .refused r := by
  cases x <;> simp [Acc.finish]

/-! ### The state after accesses -/

/-- `s` after engine accesses: memory, the counter of draws and the reach have changed. -/
def accessed (s : State) (m : Memory) (d r : Nat) : State := { s with mem := m, draws := d, reach := r }

@[simp] theorem accessed_cfg (s : State) (m : Memory) (d r : Nat) : (accessed s m d r).cfg = s.cfg := rfl
@[simp] theorem accessed_ctrlMode (s : State) (m : Memory) (d r : Nat) : (accessed s m d r).ctrlMode = s.ctrlMode := rfl
@[simp] theorem accessed_irqEn (s : State) (m : Memory) (d r : Nat) : (accessed s m d r).irqEn = s.irqEn := rfl
@[simp] theorem accessed_busy (s : State) (m : Memory) (d r : Nat) : (accessed s m d r).busy = s.busy := rfl
@[simp] theorem accessed_done (s : State) (m : Memory) (d r : Nat) : (accessed s m d r).done = s.done := rfl
@[simp] theorem accessed_err (s : State) (m : Memory) (d r : Nat) : (accessed s m d r).err = s.err := rfl
@[simp] theorem accessed_errCode (s : State) (m : Memory) (d r : Nat) : (accessed s m d r).errCode = s.errCode := rfl
@[simp] theorem accessed_width (s : State) (m : Memory) (d r : Nat) : (accessed s m d r).width = s.width := rfl
@[simp] theorem accessed_height (s : State) (m : Memory) (d r : Nat) : (accessed s m d r).height = s.height := rfl
@[simp] theorem accessed_channels (s : State) (m : Memory) (d r : Nat) : (accessed s m d r).channels = s.channels := rfl
@[simp] theorem accessed_colorspace (s : State) (m : Memory) (d r : Nat) : (accessed s m d r).colorspace = s.colorspace := rfl
@[simp] theorem accessed_srcBase (s : State) (m : Memory) (d r : Nat) : (accessed s m d r).srcBase = s.srcBase := rfl
@[simp] theorem accessed_srcLen (s : State) (m : Memory) (d r : Nat) : (accessed s m d r).srcLen = s.srcLen := rfl
@[simp] theorem accessed_dstBase (s : State) (m : Memory) (d r : Nat) : (accessed s m d r).dstBase = s.dstBase := rfl
@[simp] theorem accessed_dstCap (s : State) (m : Memory) (d r : Nat) : (accessed s m d r).dstCap = s.dstCap := rfl
@[simp] theorem accessed_outLen (s : State) (m : Memory) (d r : Nat) : (accessed s m d r).outLen = s.outLen := rfl
@[simp] theorem accessed_op (s : State) (m : Memory) (d r : Nat) : (accessed s m d r).op = s.op := rfl
@[simp] theorem accessed_prev (s : State) (m : Memory) (d r : Nat) : (accessed s m d r).prev = s.prev := rfl
@[simp] theorem accessed_run (s : State) (m : Memory) (d r : Nat) : (accessed s m d r).run = s.run := rfl
@[simp] theorem accessed_cache (s : State) (m : Memory) (d r : Nat) : (accessed s m d r).cache = s.cache := rfl
@[simp] theorem accessed_fsm (s : State) (m : Memory) (d r : Nat) : (accessed s m d r).fsm = s.fsm := rfl
@[simp] theorem accessed_mem (s : State) (m : Memory) (d r : Nat) : (accessed s m d r).mem = m := rfl
@[simp] theorem accessed_hostQ (s : State) (m : Memory) (d r : Nat) : (accessed s m d r).hostQ = s.hostQ := rfl
@[simp] theorem accessed_rdata (s : State) (m : Memory) (d r : Nat) : (accessed s m d r).rdata = s.rdata := rfl
@[simp] theorem accessed_draws (s : State) (m : Memory) (d r : Nat) : (accessed s m d r).draws = d := rfl
@[simp] theorem accessed_reach (s : State) (m : Memory) (d r : Nat) : (accessed s m d r).reach = r := rfl
@[simp] theorem accessed_inTaint (s : State) (m : Memory) (d r : Nat) : (accessed s m d r).inTaint = s.inTaint := rfl
@[simp] theorem accessed_outTaint (s : State) (m : Memory) (d r : Nat) : (accessed s m d r).outTaint = s.outTaint := rfl

@[simp] theorem accessed_accessed (s : State) (m m' : Memory) (d d' r r' : Nat) :
    accessed (accessed s m d r) m' d' r' = accessed s m' d' r' := rfl

@[simp] theorem accessed_self (s : State) : accessed s s.mem s.draws s.reach = s := rfl

/-! ### The platform's answer -/

/-- The counter of draws after `n` answered accesses. -/
def drawsAfter (s : State) (n : Nat) : Nat := if s.cfg.busFaults then s.draws + n else s.draws

@[simp] theorem drawsAfter_zero (s : State) : drawsAfter s 0 = s.draws := by simp [drawsAfter]

theorem drawsAfter_drawsAfter (s : State) (m : Memory) (r k n : Nat) :
    drawsAfter (accessed s m (drawsAfter s k) r) n = drawsAfter s (k + n) := by
  simp only [drawsAfter, accessed_cfg, accessed_draws]
  split <;> omega

/-- Answered accesses stay answered after some of them. -/
theorem AccessesAnswered.rest {s : State} {k n : Nat} (h : AccessesAnswered s (k + n)) (m : Memory) (r : Nat) :
    AccessesAnswered (accessed s m (drawsAfter s k) r) n := by
  intro hb i hi
  have hb' : s.cfg.busFaults = true := hb
  have := h hb' (k + i) (by omega)
  simpa [drawsAfter, hb', Nat.add_assoc] using this

theorem AccessesAnswered.mono {s : State} {m n : Nat} (h : AccessesAnswered s n) (hmn : m ≤ n) : AccessesAnswered s m :=
  fun hb k hk => h hb k (by omega)

theorem accessesAnswered_of_noFaults {s : State} (h : s.cfg.busFaults = false) (n : Nat) : AccessesAnswered s n :=
  fun hb => by rw [h] at hb; cases hb

/-- An answered access changes the counter of draws only. -/
theorem busAnswer_of_answered {s : State} (h : AccessesAnswered s 1) :
    busAnswer s = .ok () (accessed s s.mem (drawsAfter s 1) s.reach) := by
  unfold busAnswer drawsAfter accessed
  cases hb : s.cfg.busFaults
  · simp
  · have := h hb 0 (by omega)
    rw [Nat.add_zero] at this
    simp [this]

theorem busAnswer_ok {s t : State} {u : Unit} (h : busAnswer s = .ok u t) : t = accessed s s.mem t.draws s.reach := by
  unfold busAnswer at h
  split at h
  · split at h <;> cases h
    rfl
  · cases h; rfl

theorem busAnswer_raised {s t : State} {e : ErrKind} (h : busAnswer s = .raised e t) :
    e = .busError ∧ t = accessed s s.mem t.draws s.reach := by
  unfold busAnswer at h
  split at h
  · split at h <;> cases h
    exact ⟨rfl, rfl⟩
  · cases h

theorem busAnswer_not_fault (s : State) (f : Fault) : busAnswer s ≠ .fault f := by
  unfold busAnswer
  split
  · split <;> simp
  · simp

theorem busAnswer_quiet {s : State} (h : s.cfg.busFaults = false) : busAnswer s = .ok () s := by
  simp [busAnswer, h]

/-! ### Reads -/

/-- A read that completed changed the counter of draws only, and where the host kept its duty it gave the byte in
memory. -/
theorem readIn_ok {off : Nat} {s t : State} {b : Byte} (h : readIn off s = .ok b t) :
    t = accessed s s.mem t.draws s.reach ∧
      (s.inTaint = false → b = Memory.read s.mem (s.op.srcBase.toNat + off)) := by
  unfold readIn at h
  split at h
  · cases h
  · obtain ⟨u, s1, h1, h2⟩ := Acc.bind_eq_ok.1 h
    rw [busAnswer_ok h1] at h2
    unfold srcByte at h2
    split at h2
    · next ht =>
      cases h2
      exact ⟨rfl, fun hf => by rw [show s.inTaint = true from ht] at hf; cases hf⟩
    · cases h2
      exact ⟨rfl, fun _ => rfl⟩

theorem readIn_raised {off : Nat} {s t : State} {e : ErrKind} (h : readIn off s = .raised e t) :
    e = .busError ∧ t = accessed s s.mem t.draws s.reach := by
  unfold readIn at h
  split at h
  · cases h
  · rcases Acc.bind_eq_raised.1 h with h | ⟨u, s1, -, h2⟩
    · exact busAnswer_raised h
    · unfold srcByte at h2
      split at h2 <;> cases h2

theorem readIn_fault {off : Nat} {s : State} {f : Fault} (h : readIn off s = .fault f) :
    Config.addressSpace ≤ s.op.srcBase.toNat + off := by
  unfold readIn at h
  split at h
  · assumption
  · rcases Acc.bind_eq_fault.1 h with h | ⟨u, s1, -, h2⟩
    · exact absurd h (busAnswer_not_fault _ _)
    · unfold srcByte at h2
      split at h2 <;> cases h2

/-- Where reads give memory, a read inside the window gives the byte and changes nothing. -/
theorem readIn_memory {s : State} (h : ReadsMemory s) {off : Nat} (ho : off < s.op.srcLen.toNat) :
    readIn off s = .ok (Memory.read s.mem (s.op.srcBase.toNat + off)) s := by
  have := h.inSpace
  rw [readIn, if_neg (by omega), busAnswer_quiet h.noFaults, Acc.bind_ok, srcByte, h.dutyKept]
  simp

@[simp] theorem srcBytes_length (s : State) (off n : Nat) : (srcBytes s off n).length = n := by simp [srcBytes]

theorem srcBytes_succ (s : State) (off n : Nat) :
    srcBytes s off (n + 1) = Memory.read s.mem (s.op.srcBase.toNat + off) :: srcBytes s (off + 1) n := by
  rw [srcBytes, srcBytes, List.range_succ_eq_map]
  simp only [List.map_cons, List.map_map, Nat.add_zero, List.cons.injEq, true_and]
  exact List.map_congr_left fun k _ => by
    simp only [Function.comp]
    rw [show s.op.srcBase.toNat + (off + 1) + k = s.op.srcBase.toNat + off + (k + 1) by omega]

@[simp] theorem srcBytes_accessed (s : State) (d r off n : Nat) :
    srcBytes (accessed s s.mem d r) off n = srcBytes s off n := rfl

theorem readBytes_ok {n off : Nat} {s t : State} {bs : List Byte} (h : readBytes n off s = .ok bs t) :
    t = accessed s s.mem t.draws s.reach ∧ bs.length = n ∧ (s.inTaint = false → bs = srcBytes s off n) := by
  induction n generalizing off s t bs with
  | zero => cases h; exact ⟨rfl, rfl, fun _ => rfl⟩
  | succ n ih =>
    obtain ⟨b, s1, h1, h2⟩ := Acc.bind_eq_ok.1 h
    obtain ⟨bs', s2, h3, h4⟩ := Acc.bind_eq_ok.1 h2
    cases h4
    obtain ⟨e1, v1⟩ := readIn_ok h1
    obtain ⟨e2, l2, v2⟩ := ih h3
    rw [e1] at e2 v2
    refine ⟨e2, by simp [l2], fun hf => ?_⟩
    rw [v1 hf, v2 hf, srcBytes_succ, srcBytes_accessed]

theorem readBytes_raised {n off : Nat} {s t : State} {e : ErrKind} (h : readBytes n off s = .raised e t) :
    e = .busError ∧ t = accessed s s.mem t.draws s.reach := by
  induction n generalizing off s with
  | zero => cases h
  | succ n ih =>
    rcases Acc.bind_eq_raised.1 h with h | ⟨b, s1, h1, h2⟩
    · exact readIn_raised h
    · rcases Acc.bind_eq_raised.1 h2 with h2 | ⟨bs', s2, -, h4⟩
      · have := ih h2
        rwa [(readIn_ok h1).1] at this
      · cases h4

theorem readBytes_fault {n off : Nat} {s : State} {f : Fault} (h : readBytes n off s = .fault f) :
    Config.addressSpace < s.op.srcBase.toNat + off + n := by
  induction n generalizing off s with
  | zero => cases h
  | succ n ih =>
    rcases Acc.bind_eq_fault.1 h with h | ⟨b, s1, h1, h2⟩
    · have := readIn_fault h
      omega
    · rcases Acc.bind_eq_fault.1 h2 with h2 | ⟨bs', s2, -, h4⟩
      · have := ih h2
        rw [(readIn_ok h1).1, accessed_op] at this
        omega
      · cases h4

theorem readBytes_memory {s : State} (h : ReadsMemory s) {n off : Nat} (ho : off + n ≤ s.op.srcLen.toNat) :
    readBytes n off s = .ok (srcBytes s off n) s := by
  induction n generalizing off with
  | zero => rfl
  | succ n ih =>
    rw [readBytes, readIn_memory h (by omega), Acc.bind_ok, ih (by omega), Acc.bind_ok, srcBytes_succ]

/-! ### Writes -/

/-- An answered write inside the address space stores its byte. -/
theorem writeOut_of_answered {off : Nat} {v : Byte} {s : State} (h : AccessesAnswered s 1)
    (ha : s.op.dstBase.toNat + off < Config.addressSpace) :
    writeOut off v s = .ok () (accessed s (Memory.write s.mem (s.op.dstBase.toNat + off) v) (drawsAfter s 1)
      (max s.reach (off + 1))) := by
  rw [writeOut, if_neg (by omega), busAnswer_of_answered (s := { s with reach := max s.reach (off + 1) }) h]
  rfl

theorem writeOut_ok {off : Nat} {v : Byte} {s t : State} {u : Unit} (h : writeOut off v s = .ok u t) :
    s.op.dstBase.toNat + off < Config.addressSpace ∧
    t = accessed s (Memory.write s.mem (s.op.dstBase.toNat + off) v) t.draws (max s.reach (off + 1)) := by
  unfold writeOut at h
  split at h
  · cases h
  · next ha =>
    obtain ⟨u', s1, h1, h2⟩ := Acc.bind_eq_ok.1 h
    rw [busAnswer_ok h1] at h2
    cases h2
    exact ⟨by omega, rfl⟩

theorem writeOut_raised {off : Nat} {v : Byte} {s t : State} {e : ErrKind} (h : writeOut off v s = .raised e t) :
    e = .busError ∧ t = accessed s s.mem t.draws (max s.reach (off + 1)) := by
  unfold writeOut at h
  split at h
  · cases h
  · rcases Acc.bind_eq_raised.1 h with h | ⟨u', s1, -, h2⟩
    · exact busAnswer_raised h
    · cases h2

theorem writeOut_fault {off : Nat} {v : Byte} {s : State} {f : Fault} (h : writeOut off v s = .fault f) :
    Config.addressSpace ≤ s.op.dstBase.toNat + off := by
  unfold writeOut at h
  split at h
  · assumption
  · rcases Acc.bind_eq_fault.1 h with h | ⟨u', s1, -, h2⟩
    · exact absurd h (busAnswer_not_fault _ _)
    · cases h2

/-- The reach of the operation after `n` bytes from offset `off` on. -/
def reachAfter (r off n : Nat) : Nat := if n = 0 then r else max r (off + n)

theorem reachAfter_succ (r off n : Nat) : reachAfter (max r (off + 1)) (off + 1) n = reachAfter r off (n + 1) := by
  unfold reachAfter
  split <;> simp <;> omega

theorem writeBytes_of_answered {bs : List Byte} {off : Nat} {s : State} (h : AccessesAnswered s bs.length)
    (ha : s.op.dstBase.toNat + off + bs.length ≤ Config.addressSpace) :
    writeBytes bs off s = .ok () (accessed s (Memory.store bs (s.op.dstBase.toNat + off) s.mem)
      (drawsAfter s bs.length) (reachAfter s.reach off bs.length)) := by
  induction bs generalizing off s with
  | nil => simp [writeBytes, Memory.store, reachAfter]
  | cons b bs ih =>
    rw [List.length_cons, Nat.add_comm] at h
    rw [List.length_cons] at ha ⊢
    rw [writeBytes, writeOut_of_answered (h.mono (by omega)) (by omega), Acc.bind_ok, ih (h.rest _ _),
      accessed_accessed, drawsAfter_drawsAfter, accessed_reach, reachAfter_succ, accessed_mem, accessed_op,
      Nat.add_comm 1, Memory.store, Nat.add_assoc]
    rw [accessed_op]
    omega

theorem writeBytes_ok {bs : List Byte} {off : Nat} {s t : State} {u : Unit} (h : writeBytes bs off s = .ok u t) :
    (bs ≠ [] → s.op.dstBase.toNat + off + bs.length ≤ Config.addressSpace) ∧
    t = accessed s (Memory.store bs (s.op.dstBase.toNat + off) s.mem) t.draws (reachAfter s.reach off bs.length) := by
  induction bs generalizing off s with
  | nil => cases h; exact ⟨by simp, by simp [Memory.store, reachAfter]⟩
  | cons b bs ih =>
    obtain ⟨u', s1, h1, h2⟩ := Acc.bind_eq_ok.1 h
    obtain ⟨ha, e1⟩ := writeOut_ok h1
    obtain ⟨hb, e2⟩ := ih h2
    rw [e1] at hb e2
    refine ⟨fun _ => ?_, ?_⟩
    · rw [List.length_cons]
      rcases bs with _ | ⟨c, bs⟩
      · simp only [List.length_nil]; omega
      · have := hb (by simp)
        rw [accessed_op] at this
        omega
    · rw [e2, accessed_accessed, accessed_reach, reachAfter_succ, accessed_mem, accessed_op, List.length_cons,
        Memory.store, Nat.add_assoc, accessed_draws]

/-- Bytes that ended with BusError: memory has changed inside their range only. -/
theorem writeBytes_raised {bs : List Byte} {off : Nat} {s t : State} {e : ErrKind}
    (h : writeBytes bs off s = .raised e t) :
    e = .busError ∧ t = accessed s t.mem t.draws t.reach ∧
    t.reach ≤ max s.reach (off + bs.length) ∧ (Memory.wf s.mem → Memory.wf t.mem) ∧
    ∀ a, (a < s.op.dstBase.toNat + off ∨ s.op.dstBase.toNat + off + bs.length ≤ a) →
      Memory.read t.mem a = Memory.read s.mem a := by
  induction bs generalizing off s with
  | nil => cases h
  | cons b bs ih =>
    simp only [List.length_cons]
    rcases Acc.bind_eq_raised.1 h with h | ⟨u', s1, h1, h2⟩
    · obtain ⟨he, e1⟩ := writeOut_raised h
      rw [e1]
      exact ⟨he, rfl, by simp only [accessed_reach]; omega, id, fun _ _ => rfl⟩
    · obtain ⟨ha, e1⟩ := writeOut_ok h1
      obtain ⟨he, e2, hr, hw, hf⟩ := ih h2
      rw [e1] at e2 hr hw hf
      simp only [accessed_reach, accessed_mem, accessed_op] at hr hw hf
      refine ⟨he, e2, by omega, fun hm => hw (Memory.wf_write hm ha b), fun a hx => ?_⟩
      rw [hf a (by omega), Memory.read_write_other _ _ (by omega)]

theorem writeBytes_fault {bs : List Byte} {off : Nat} {s : State} {f : Fault} (h : writeBytes bs off s = .fault f) :
    Config.addressSpace < s.op.dstBase.toNat + off + bs.length := by
  induction bs generalizing off s with
  | nil => cases h
  | cons b bs ih =>
    simp only [List.length_cons]
    rcases Acc.bind_eq_fault.1 h with h | ⟨u', s1, h1, h2⟩
    · have := writeOut_fault h
      omega
    · have := ih h2
      rw [(writeOut_ok h1).2, accessed_op] at this
      omega

/-! ### Emission -/

/-- `s` with `n` bytes emitted, as far as the output cursor goes. -/
def advanceOut (n : Nat) (s : State) : State :=
  { s with op := { s.op with outPos := s.op.outPos + BitVec.ofNat 32 n } }

@[simp] theorem advanceOut_cfg (n : Nat) (s : State) : (advanceOut n s).cfg = s.cfg := rfl
@[simp] theorem advanceOut_ctrlMode (n : Nat) (s : State) : (advanceOut n s).ctrlMode = s.ctrlMode := rfl
@[simp] theorem advanceOut_irqEn (n : Nat) (s : State) : (advanceOut n s).irqEn = s.irqEn := rfl
@[simp] theorem advanceOut_busy (n : Nat) (s : State) : (advanceOut n s).busy = s.busy := rfl
@[simp] theorem advanceOut_done (n : Nat) (s : State) : (advanceOut n s).done = s.done := rfl
@[simp] theorem advanceOut_err (n : Nat) (s : State) : (advanceOut n s).err = s.err := rfl
@[simp] theorem advanceOut_errCode (n : Nat) (s : State) : (advanceOut n s).errCode = s.errCode := rfl
@[simp] theorem advanceOut_width (n : Nat) (s : State) : (advanceOut n s).width = s.width := rfl
@[simp] theorem advanceOut_height (n : Nat) (s : State) : (advanceOut n s).height = s.height := rfl
@[simp] theorem advanceOut_channels (n : Nat) (s : State) : (advanceOut n s).channels = s.channels := rfl
@[simp] theorem advanceOut_colorspace (n : Nat) (s : State) : (advanceOut n s).colorspace = s.colorspace := rfl
@[simp] theorem advanceOut_srcBase (n : Nat) (s : State) : (advanceOut n s).srcBase = s.srcBase := rfl
@[simp] theorem advanceOut_srcLen (n : Nat) (s : State) : (advanceOut n s).srcLen = s.srcLen := rfl
@[simp] theorem advanceOut_dstBase (n : Nat) (s : State) : (advanceOut n s).dstBase = s.dstBase := rfl
@[simp] theorem advanceOut_dstCap (n : Nat) (s : State) : (advanceOut n s).dstCap = s.dstCap := rfl
@[simp] theorem advanceOut_outLen (n : Nat) (s : State) : (advanceOut n s).outLen = s.outLen := rfl
@[simp] theorem advanceOut_op (n : Nat) (s : State) : (advanceOut n s).op = { s.op with outPos := s.op.outPos + BitVec.ofNat 32 n } := rfl
@[simp] theorem advanceOut_prev (n : Nat) (s : State) : (advanceOut n s).prev = s.prev := rfl
@[simp] theorem advanceOut_run (n : Nat) (s : State) : (advanceOut n s).run = s.run := rfl
@[simp] theorem advanceOut_cache (n : Nat) (s : State) : (advanceOut n s).cache = s.cache := rfl
@[simp] theorem advanceOut_fsm (n : Nat) (s : State) : (advanceOut n s).fsm = s.fsm := rfl
@[simp] theorem advanceOut_mem (n : Nat) (s : State) : (advanceOut n s).mem = s.mem := rfl
@[simp] theorem advanceOut_hostQ (n : Nat) (s : State) : (advanceOut n s).hostQ = s.hostQ := rfl
@[simp] theorem advanceOut_rdata (n : Nat) (s : State) : (advanceOut n s).rdata = s.rdata := rfl
@[simp] theorem advanceOut_draws (n : Nat) (s : State) : (advanceOut n s).draws = s.draws := rfl
@[simp] theorem advanceOut_reach (n : Nat) (s : State) : (advanceOut n s).reach = s.reach := rfl
@[simp] theorem advanceOut_inTaint (n : Nat) (s : State) : (advanceOut n s).inTaint = s.inTaint := rfl
@[simp] theorem advanceOut_outTaint (n : Nat) (s : State) : (advanceOut n s).outTaint = s.outTaint := rfl

@[simp] theorem advanceOut_zero (s : State) : advanceOut 0 s = s := by
  simp [advanceOut]

theorem advanceOut_accessed_advanceOut (k n : Nat) (s : State) (m : Memory) (d r : Nat) :
    advanceOut n (accessed (advanceOut k s) m d r) = accessed (advanceOut (k + n) s) m d r := by
  simp only [advanceOut, accessed, BitVec.ofNat_add, BitVec.add_assoc]

theorem advanceOut_outPos_toNat {n : Nat} {s : State} (h : s.op.outPos.toNat + n < 2 ^ 32) :
    (advanceOut n s).op.outPos.toNat = s.op.outPos.toNat + n := by
  rw [advanceOut_op, BitVec.toNat_add, BitVec.toNat_ofNat, Nat.mod_eq_of_lt (a := n) (by omega), Nat.mod_eq_of_lt h]

theorem emit_of_answered {b : Byte} {s : State} (h : AccessesAnswered s 1)
    (ha : s.op.dstBase.toNat + s.op.outPos.toNat < Config.addressSpace) :
    emit b s = .ok () (accessed (advanceOut 1 s) (Memory.write s.mem (s.op.dstBase.toNat + s.op.outPos.toNat) b)
      (drawsAfter s 1) (max s.reach (s.op.outPos.toNat + 1))) := by
  rw [emit, writeOut_of_answered h ha]
  rfl

/-- Answered emissions store their bytes at the output cursor and move it. -/
theorem emitAll_of_answered {bs : List Byte} {s : State} (h : AccessesAnswered s bs.length)
    (ha : s.op.dstBase.toNat + s.op.outPos.toNat + bs.length ≤ Config.addressSpace)
    (hp : s.op.outPos.toNat + bs.length < 2 ^ 32) :
    emitAll bs s = .ok () (accessed (advanceOut bs.length s)
      (Memory.store bs (s.op.dstBase.toNat + s.op.outPos.toNat) s.mem)
      (drawsAfter s bs.length) (reachAfter s.reach s.op.outPos.toNat bs.length)) := by
  induction bs generalizing s with
  | nil => simp [emitAll, Memory.store, reachAfter]
  | cons b bs ih =>
    rw [List.length_cons, Nat.add_comm] at h
    rw [List.length_cons] at ha hp ⊢
    have hpos : (accessed (advanceOut 1 s) (Memory.write s.mem (s.op.dstBase.toNat + s.op.outPos.toNat) b)
      (drawsAfter s 1) (max s.reach (s.op.outPos.toNat + 1))).op.outPos.toNat = s.op.outPos.toNat + 1 :=
      advanceOut_outPos_toNat (by omega)
    rw [emitAll, emit_of_answered (h.mono (by omega)) (by omega), Acc.bind_ok, ih]
    · rw [hpos, advanceOut_accessed_advanceOut, accessed_accessed, accessed_reach, reachAfter_succ, accessed_mem,
        accessed_op, advanceOut_op, Memory.store, Nat.add_assoc, Nat.add_comm 1]
      congr 2
      exact (drawsAfter_drawsAfter (advanceOut 1 s) _ _ 1 bs.length).trans (by rw [Nat.add_comm]; rfl)
    · exact AccessesAnswered.rest (s := advanceOut 1 s) h _ _
    · rw [hpos, accessed_op, advanceOut_op]
      simp only
      omega
    · rw [hpos]
      omega

theorem emit_ok {b : Byte} {s t : State} {u : Unit} (h : emit b s = .ok u t) :
    s.op.dstBase.toNat + s.op.outPos.toNat < Config.addressSpace ∧
    t = accessed (advanceOut 1 s) (Memory.write s.mem (s.op.dstBase.toNat + s.op.outPos.toNat) b) t.draws
      (max s.reach (s.op.outPos.toNat + 1)) := by
  obtain ⟨u', s1, h1, h2⟩ := Acc.bind_eq_ok.1 h
  obtain ⟨ha, e1⟩ := writeOut_ok h1
  rw [e1] at h2
  cases h2
  exact ⟨ha, rfl⟩

theorem emit_raised {b : Byte} {s t : State} {e : ErrKind} (h : emit b s = .raised e t) :
    e = .busError ∧ t = accessed s s.mem t.draws (max s.reach (s.op.outPos.toNat + 1)) := by
  rcases Acc.bind_eq_raised.1 h with h | ⟨u', s1, -, h2⟩
  · exact writeOut_raised h
  · cases h2

theorem emit_fault {b : Byte} {s : State} {f : Fault} (h : emit b s = .fault f) :
    Config.addressSpace ≤ s.op.dstBase.toNat + s.op.outPos.toNat := by
  rcases Acc.bind_eq_fault.1 h with h | ⟨u', s1, -, h2⟩
  · exact writeOut_fault h
  · cases h2

theorem emitAll_ok {bs : List Byte} {s t : State} {u : Unit} (hp : s.op.outPos.toNat + bs.length < 2 ^ 32)
    (h : emitAll bs s = .ok u t) :
    (bs ≠ [] → s.op.dstBase.toNat + s.op.outPos.toNat + bs.length ≤ Config.addressSpace) ∧
    t = accessed (advanceOut bs.length s) (Memory.store bs (s.op.dstBase.toNat + s.op.outPos.toNat) s.mem) t.draws
      (reachAfter s.reach s.op.outPos.toNat bs.length) := by
  induction bs generalizing s with
  | nil => cases h; exact ⟨by simp, by simp [Memory.store, reachAfter]⟩
  | cons b bs ih =>
    obtain ⟨u', s1, h1, h2⟩ := Acc.bind_eq_ok.1 h
    obtain ⟨ha, e1⟩ := emit_ok h1
    rw [List.length_cons] at hp ⊢
    have hpos : s1.op.outPos.toNat = s.op.outPos.toNat + 1 := by
      rw [e1]; exact advanceOut_outPos_toNat (by omega)
    obtain ⟨hb, e2⟩ := ih (by omega) h2
    rw [hpos] at hb e2
    refine ⟨fun _ => ?_, ?_⟩
    · rcases bs with _ | ⟨c, bs⟩
      · simp only [List.length_nil]; omega
      · have := hb (by simp)
        rw [e1, accessed_op, advanceOut_op] at this
        simp only at this
        omega
    · rw [e2, e1, advanceOut_accessed_advanceOut, accessed_accessed, accessed_reach, reachAfter_succ, accessed_mem,
        accessed_op, advanceOut_op, Memory.store, Nat.add_assoc, Nat.add_comm 1, accessed_draws]

/-- Emissions that ended with BusError: memory has changed in their range only. -/
theorem emitAll_raised {bs : List Byte} {s t : State} {e : ErrKind} (hp : s.op.outPos.toNat + bs.length < 2 ^ 32)
    (h : emitAll bs s = .raised e t) :
    e = .busError ∧ (∃ n, n ≤ bs.length ∧ t = accessed (advanceOut n s) t.mem t.draws t.reach) ∧
    t.reach ≤ max s.reach (s.op.outPos.toNat + bs.length) ∧ (Memory.wf s.mem → Memory.wf t.mem) ∧
    ∀ a, (a < s.op.dstBase.toNat + s.op.outPos.toNat ∨
        s.op.dstBase.toNat + s.op.outPos.toNat + bs.length ≤ a) →
      Memory.read t.mem a = Memory.read s.mem a := by
  induction bs generalizing s with
  | nil => cases h
  | cons b bs ih =>
    rw [List.length_cons] at hp ⊢
    rcases Acc.bind_eq_raised.1 h with h | ⟨u', s1, h1, h2⟩
    · obtain ⟨he, e1⟩ := emit_raised h
      rw [e1]
      exact ⟨he, ⟨0, by omega, by simp⟩, by simp only [accessed_reach]; omega, id, fun _ _ => rfl⟩
    · obtain ⟨ha, e1⟩ := emit_ok h1
      have hpos : s1.op.outPos.toNat = s.op.outPos.toNat + 1 := by
        rw [e1]; exact advanceOut_outPos_toNat (by omega)
      have hdst : s1.op.dstBase = s.op.dstBase := by rw [e1]; rfl
      have hmem : s1.mem = Memory.write s.mem (s.op.dstBase.toNat + s.op.outPos.toNat) b := by rw [e1]; rfl
      have hreach : s1.reach = max s.reach (s.op.outPos.toNat + 1) := by rw [e1]; rfl
      obtain ⟨he, ⟨n, hn, e2⟩, hr, hw, hf⟩ := ih (by omega) h2
      rw [hpos, hreach] at hr
      rw [hpos, hdst, hmem] at hf
      rw [hmem] at hw
      refine ⟨he, ⟨1 + n, by omega, ?_⟩, by omega, fun hm => hw (Memory.wf_write hm ha b), fun a hx => ?_⟩
      · rw [e2, e1, advanceOut_accessed_advanceOut]
        rfl
      · rw [hf a (by omega), Memory.read_write_other _ _ (by omega)]

theorem emitAll_fault {bs : List Byte} {s : State} {f : Fault} (hp : s.op.outPos.toNat + bs.length < 2 ^ 32)
    (h : emitAll bs s = .fault f) :
    Config.addressSpace < s.op.dstBase.toNat + s.op.outPos.toNat + bs.length := by
  induction bs generalizing s with
  | nil => cases h
  | cons b bs ih =>
    rw [List.length_cons] at hp ⊢
    rcases Acc.bind_eq_fault.1 h with h | ⟨u', s1, h1, h2⟩
    · have := emit_fault h
      omega
    · obtain ⟨-, e1⟩ := emit_ok h1
      have hpos : s1.op.outPos.toNat = s.op.outPos.toNat + 1 := by
        rw [e1]; exact advanceOut_outPos_toNat (by omega)
      have := ih (by omega) h2
      rw [hpos, show s1.op.dstBase = s.op.dstBase by rw [e1]; rfl] at this
      omega

end Sys2Proof.Machine
end

