-- ==== Sys2Proof/Laws/Decode.lean ====
section
/-! SUPPORT. The laws of the decoder and the encoder: what each encoded byte decodes to, that a big-endian word and its
four bytes give each other back, and that the decoder answers well-formed instructions only. -/

namespace Sys2Proof

/-! ### Words and their bytes -/

theorem be32_be32Bytes (v : Word) :
    be32 (v.extractLsb' 24 8) (v.extractLsb' 16 8) (v.extractLsb' 8 8) (v.extractLsb' 0 8) = v := by
  unfold be32
  rw [BitVec.extractLsb'_append_extractLsb'_eq_extractLsb' (by rfl),
    BitVec.extractLsb'_append_extractLsb'_eq_extractLsb' (by rfl),
    BitVec.extractLsb'_append_extractLsb'_eq_extractLsb' (by rfl)]
  simp

theorem be32Bytes_be32 (a b c d : Byte) : be32Bytes (be32 a b c d) = [a, b, c, d] := by
  simp only [be32Bytes, be32, List.cons.injEq, and_true]
  refine ⟨?_, ?_, ?_, ?_⟩ <;>
  · ext i hi
    simp only [BitVec.getElem_extractLsb', BitVec.getLsbD_append]
    interval_cases i <;> rfl

/-! ### What the encoded bytes decode to -/

theorem slotField_indexByte (idx : Fin 64) : slotField (indexByte idx) = idx := by
  revert idx; decide

theorem indexByte_tag (idx : Fin 64) :
    indexByte idx ≠ 0xFE ∧ indexByte idx ≠ 0xFF ∧ field (indexByte idx) 6 2 = 0 := by
  revert idx; decide

theorem decodeChunk_diffByte {dr dg db : Int} (hr : inDiffRange dr) (hg : inDiffRange dg) (hb : inDiffRange db) :
    decodeChunk [diffByte dr dg db] = .ok (.diff dr dg db, []) := by
  obtain ⟨h1, h2⟩ := hr
  obtain ⟨h3, h4⟩ := hg
  obtain ⟨h5, h6⟩ := hb
  interval_cases dr <;> interval_cases dg <;> interval_cases db <;> rfl

theorem lumaByte0_tag {dg : Int} (h : inLumaRange dg) :
    lumaByte0 dg ≠ 0xFE ∧ lumaByte0 dg ≠ 0xFF ∧ field (lumaByte0 dg) 6 2 = 2 ∧
      unbias (field (lumaByte0 dg) 0 6) 32 = dg := by
  obtain ⟨h1, h2⟩ := h
  interval_cases dg <;> decide

theorem lumaByte1_fields {x y : Int} (hx : inSecondaryRange x) (hy : inSecondaryRange y) :
    unbias (field (lumaByte1 x y) 4 4) 8 = x ∧ unbias (field (lumaByte1 x y) 0 4) 8 = y := by
  obtain ⟨h1, h2⟩ := hx
  obtain ⟨h3, h4⟩ := hy
  interval_cases x <;> interval_cases y <;> decide

theorem decodeChunk_runByte {len : Nat} (h : inRunRange len) : decodeChunk [runByte len] = .ok (.run len, []) := by
  obtain ⟨h1, h2⟩ := h
  simp only [Config.runMax] at h2
  interval_cases len <;> rfl

/-! ### The stream bytes of an instruction -/

@[simp] theorem streamBytes_rgb (r g b : Byte) : streamBytes (.rgb r g b) = [0xFE, r, g, b] := rfl
@[simp] theorem streamBytes_rgba (r g b a : Byte) : streamBytes (.rgba r g b a) = [0xFF, r, g, b, a] := rfl
@[simp] theorem streamBytes_index (k : Fin 64) : streamBytes (.index k) = [indexByte k] := rfl
@[simp] theorem streamBytes_diff (x y z : Int) : streamBytes (.diff x y z) = [diffByte x y z] := rfl
@[simp] theorem streamBytes_luma (x y z : Int) : streamBytes (.luma x y z) = [lumaByte0 x, lumaByte1 y z] := rfl
@[simp] theorem streamBytes_run (n : Nat) : streamBytes (.run n) = [runByte n] := rfl
@[simp] theorem streamBytes_header (w h : Word) (ch cs : Byte) :
    streamBytes (.header w h ch cs) = headerBytes w h ch cs := rfl
@[simp] theorem streamBytes_footer : streamBytes .footer = Config.footer := rfl

@[simp] theorem headerBytes_length (w h : Word) (ch cs : Byte) : (headerBytes w h ch cs).length = 14 := rfl
@[simp] theorem footer_length : Config.footer.length = 8 := rfl

/-! ### The decoder answers well-formed instructions -/

theorem decodeDiff_wellFormed (t : Byte) : (decodeDiff t).wellFormed = true := by
  revert t; decide

theorem decodeRun_wellFormed {t : Byte} (h1 : t ≠ 0xFE) (h2 : t ≠ 0xFF) (h3 : field t 6 2 ≠ 0)
    (h4 : field t 6 2 ≠ 1) (h5 : field t 6 2 ≠ 2) : (decodeRun t).wellFormed = true := by
  revert t; decide

theorem field_lt (v : Byte) (lo n : Nat) : field v lo n < 2 ^ n := (v.extractLsb' lo n).isLt

theorem decodeLuma_wellFormed {t : Byte} {bs rest : List Byte} {i : Instr}
    (h : decodeLuma t bs = .ok (i, rest)) : i.wellFormed = true := by
  cases bs with
  | nil => cases h
  | cons u bs =>
    simp only [decodeLuma, Except.ok.injEq, Prod.mk.injEq] at h
    obtain ⟨rfl, -⟩ := h
    have h0 := field_lt t 0 6
    have h1 := field_lt u 4 4
    have h2 := field_lt u 0 4
    refine decide_eq_true ⟨⟨?_, ?_⟩, ⟨?_, ?_⟩, ?_, ?_⟩ <;> simp only [unbias] <;> omega

/-- Rule R107's ranges hold of every chunk the decoder answers. -/
theorem decodeChunk_wellFormed {bs rest : List Byte} {i : Instr} (h : decodeChunk bs = .ok (i, rest)) :
    i.wellFormed = true := by
  cases bs with
  | nil => cases h
  | cons t bs =>
    rw [decodeChunk] at h
    split at h
    · rcases bs with _ | ⟨_, _ | ⟨_, _ | ⟨_, _⟩⟩⟩ <;> simp_all [decodeRgb]
      obtain ⟨rfl, -⟩ := h
      rfl
    split at h
    · rcases bs with _ | ⟨_, _ | ⟨_, _ | ⟨_, _ | ⟨_, _⟩⟩⟩⟩ <;> simp_all [decodeRgba]
      obtain ⟨rfl, -⟩ := h
      rfl
    split at h
    · simp only [Except.ok.injEq, Prod.mk.injEq] at h
      obtain ⟨rfl, -⟩ := h
      rfl
    split at h
    · simp only [Except.ok.injEq, Prod.mk.injEq] at h
      obtain ⟨rfl, -⟩ := h
      exact decodeDiff_wellFormed t
    split at h
    · exact decodeLuma_wellFormed h
    · next h1 h2 h3 h4 h5 =>
      simp only [Except.ok.injEq, Prod.mk.injEq] at h
      obtain ⟨rfl, -⟩ := h
      exact decodeRun_wellFormed h1 h2 h3 h4 h5

/-! ### The length of a chunk (rule R96) -/

/-- A chunk whose payload has the length its tag asks for decodes, with nothing left over. -/
theorem decodeChunk_of_length {t : Byte} {bs : List Byte} (h : bs.length = chunkLength t - 1) :
    ∃ i, decodeChunk (t :: bs) = .ok (i, []) := by
  rw [decodeChunk]
  unfold chunkLength at h
  split at h
  · rcases bs with _ | ⟨_, _ | ⟨_, _ | ⟨_, _ | ⟨_, _⟩⟩⟩⟩ <;> simp_all [decodeRgb]
  split at h
  · rcases bs with _ | ⟨_, _ | ⟨_, _ | ⟨_, _ | ⟨_, _ | ⟨_, _⟩⟩⟩⟩⟩ <;> simp_all [decodeRgba]
  split at h
  · rcases bs with _ | ⟨_, _ | ⟨_, _⟩⟩ <;> simp_all [decodeLuma]
  · rcases bs with _ | ⟨_, _⟩
    · simp_all only [if_false]
      split
      · exact ⟨_, rfl⟩
      · split <;> exact ⟨_, rfl⟩
    · simp at h

/-- A chunk decodes from the bytes its tag asks for, whatever follows them. -/
theorem decodeChunk_take {t : Byte} {rest : List Byte} (h : chunkLength t - 1 ≤ rest.length) :
    ∃ i, decodeChunk (t :: rest) = .ok (i, rest.drop (chunkLength t - 1)) ∧
      decodeChunk (t :: rest.take (chunkLength t - 1)) = .ok (i, []) := by
  rw [decodeChunk, decodeChunk]
  unfold chunkLength at h ⊢
  by_cases h0 : t = 0xFE
  · simp only [if_pos h0] at h ⊢
    rcases rest with _ | ⟨_, _ | ⟨_, _ | ⟨_, _⟩⟩⟩ <;> simp_all [decodeRgb]
  by_cases h1 : t = 0xFF
  · simp only [if_neg h0, if_pos h1] at h ⊢
    rcases rest with _ | ⟨_, _ | ⟨_, _ | ⟨_, _ | ⟨_, _⟩⟩⟩⟩ <;> simp_all [decodeRgba]
  by_cases h2 : field t 6 2 = 2
  · have h3 : ¬field t 6 2 = 0 := by rw [h2]; decide
    have h4 : ¬field t 6 2 = 1 := by rw [h2]; decide
    simp only [if_neg h0, if_neg h1, if_pos h2, if_neg h3, if_neg h4] at h ⊢
    rcases rest with _ | ⟨_, _⟩ <;> simp_all [decodeLuma]
  · simp only [if_neg h0, if_neg h1, if_neg h2, Nat.sub_self, List.drop_zero, List.take_zero]
    split
    · exact ⟨_, rfl, rfl⟩
    · split <;> exact ⟨_, rfl, rfl⟩

/-- A chunk whose bytes are cut short is rejected. -/
theorem decodeChunk_short {t : Byte} {rest : List Byte} (h : rest.length + 1 < chunkLength t) :
    decodeChunk (t :: rest) = .error .short := by
  rw [decodeChunk]
  unfold chunkLength at h
  split at h
  · next h0 =>
    rw [if_pos h0]
    rcases rest with _ | ⟨_, _ | ⟨_, _ | ⟨_, _⟩⟩⟩ <;> first | rfl | (simp only [List.length_cons] at h; omega)
  split at h
  · next h0 h1 =>
    rw [if_neg h0, if_pos h1]
    rcases rest with _ | ⟨_, _ | ⟨_, _ | ⟨_, _ | ⟨_, _⟩⟩⟩⟩ <;> first | rfl | (simp only [List.length_cons] at h; omega)
  split at h
  · next h0 h1 h2 =>
    rw [if_neg h0, if_neg h1, if_neg (by rw [h2]; decide), if_neg (by rw [h2]; decide), if_pos h2]
    rcases rest with _ | ⟨_, _⟩ <;> first | rfl | (simp only [List.length_cons] at h; omega)
  · omega

theorem chunkLength_pos (t : Byte) : 1 ≤ chunkLength t ∧ chunkLength t ≤ 5 := by
  unfold chunkLength
  split
  · decide
  split
  · decide
  split <;> decide

/-! ### Host commands -/

theorem decodeRegWrite_ctrl (v : Word) : decodeRegWrite ctrlOffset v = .ok (decodeCtrl v) := rfl
theorem decodeRegWrite_status (v : Word) : decodeRegWrite statusOffset v = .ok (decodeStatus v) := rfl

theorem decodeRegWrite_other {offset : BitVec 8} (v : Word) (h1 : offset ≠ ctrlOffset) (h2 : offset ≠ statusOffset) :
    decodeRegWrite offset v = .error .notACommand := by
  simp [decodeRegWrite, h1, h2]

end Sys2Proof
end

