-- ==== Sys2Proof/Laws/Neutral.lean ====
section
/-! SUPPORT. A change of the codec state that no write can see: it passes through a sequence of writes, and an error
ends the operation the same way with or without it. -/

namespace Sys2Proof.Machine

/-! ### Sequencing to the end of a step -/

theorem Acc.finish_bind {α β : Type} (x : Acc α) (f : α → State → Acc β) (k : β → State → Answer) :
    (x.bind f).finish k = x.finish fun a s => (f a s).finish k := by
  cases x <;> rfl

theorem Acc.finish_congr {α : Type} {x : Acc α} {k k' : α → State → Answer}
    (h : ∀ a s, x = .ok a s → k a s = k' a s) : x.finish k = x.finish k' := by
  cases x <;> simp [Acc.finish]
  exact h _ _ rfl

theorem writeBytes_append (as bs : List Byte) (off : Nat) (s : State) :
    writeBytes (as ++ bs) off s = (writeBytes as off s).bind fun _ s1 => writeBytes bs (off + as.length) s1 := by
  induction as generalizing off s with
  | nil => rfl
  | cons a as ih =>
    rw [List.cons_append, writeBytes, writeBytes]
    cases h : writeOut off a s with
    | ok u s1 =>
      simp only [Acc.bind_ok, List.length_cons]
      rw [ih, show off + (as.length + 1) = off + 1 + as.length by omega]
    | raised e s1 => rfl
    | fault f => rfl

/-! ### Changes that no write can see -/

/-- `f` changes nothing a write reads or writes, and nothing that is left of the operation after an error. -/
structure Neutral (f : State → State) : Prop where
  cfg : ∀ s, (f s).cfg = s.cfg
  dstBase : ∀ s, (f s).op.dstBase = s.op.dstBase
  mem : ∀ s, (f s).mem = s.mem
  draws : ∀ s, (f s).draws = s.draws
  reach : ∀ s, (f s).reach = s.reach
  access : ∀ s m d r, f (accessed s m d r) = accessed (f s) m d r
  ends : ∀ e s, raise e (f s) = raise e s

/-- The same change of the state in each way an access can end. -/
def Acc.mapState {α : Type} (f : State → State) : Acc α → Acc α
  | .ok a s => .ok a (f s)
  | .raised e s => .raised e (f s)
  | .fault r => .fault r

theorem Neutral.finish_mapState {f : State → State} (hf : Neutral f) {α : Type} (x : Acc α)
    (k : α → State → Answer) : (x.mapState f).finish k = x.finish fun a s => k a (f s) := by
  cases x <;> simp [Acc.mapState, Acc.finish, hf.ends]

/-- One write, in each way it can end. -/
theorem writeOut_eq (off : Nat) (v : Byte) (s : State) : writeOut off v s =
    if Config.addressSpace ≤ s.op.dstBase.toNat + off then .fault .outsideAddressSpace
    else if s.cfg.busFaults = true then
      if Config.busError s.draws = true then
        .raised .busError (accessed s s.mem (s.draws + 1) (max s.reach (off + 1)))
      else .ok () (accessed s (Memory.write s.mem (s.op.dstBase.toNat + off) v) (s.draws + 1) (max s.reach (off + 1)))
    else .ok () (accessed s (Memory.write s.mem (s.op.dstBase.toNat + off) v) s.draws (max s.reach (off + 1))) := by
  unfold writeOut busAnswer
  dsimp only
  split
  · rfl
  · split
    · split <;> rfl
    · rfl

theorem Neutral.writeOut {f : State → State} (hf : Neutral f) (off : Nat) (v : Byte) (s : State) :
    writeOut off v (f s) = (writeOut off v s).mapState f := by
  rw [writeOut_eq, writeOut_eq, hf.cfg, hf.dstBase, hf.mem, hf.draws, hf.reach]
  split
  · rfl
  · split
    · split <;> simp only [Acc.mapState, hf.access]
    · simp only [Acc.mapState, hf.access]

theorem Neutral.writeBytes {f : State → State} (hf : Neutral f) (bs : List Byte) (off : Nat) (s : State) :
    writeBytes bs off (f s) = (writeBytes bs off s).mapState f := by
  induction bs generalizing off s with
  | nil => rfl
  | cons b bs ih =>
    rw [Machine.writeBytes, Machine.writeBytes, hf.writeOut]
    cases Machine.writeOut off b s with
    | ok u s1 => exact ih _ _
    | raised e s1 => rfl
    | fault r => rfl

/-- A neutral change may be made after the writes instead of before. -/
theorem Neutral.writeBytes_finish {f : State → State} (hf : Neutral f) (bs : List Byte) (off : Nat) (s : State)
    (k : Unit → State → Answer) :
    (Machine.writeBytes bs off (f s)).finish k = (Machine.writeBytes bs off s).finish fun u t => k u (f t) := by
  rw [hf.writeBytes, hf.finish_mapState]

end Sys2Proof.Machine
end

