-- ==== Sys2Proof/Laws/Operands.lean ====
section
/-! SUPPORT. The laws of the shared primitives: the pixel count, the checks of a configuration as propositions, the
wrapping addition. -/

namespace Sys2Proof.Machine

/-- The pixel count is the exact product: it never wraps. -/
theorem pixelCount_toNat (w h : Word) : (pixelCount w h).toNat = w.toNat * h.toNat := by
  have h1 := w.isLt
  have h2 := h.isLt
  have : w.toNat * h.toNat < 2 ^ 64 := by nlinarith
  simp [pixelCount]
  omega

theorem pixelCount_eq_ofNat (w h : Word) : pixelCount w h = BitVec.ofNat 64 (w.toNat * h.toNat) := by
  rw [← pixelCount_toNat, BitVec.ofNat_toNat, BitVec.setWidth_eq]

theorem dimsOk_iff {w h : Word} :
    dimsOk w h = true ↔ 1 ≤ w.toNat ∧ 1 ≤ h.toNat ∧ w.toNat * h.toNat ≤ 400000000 := by
  rw [dimsOk, decide_eq_true_iff]
  rfl

theorem channelsOk_iff {ch : Byte} : channelsOk ch = true ↔ ch = 3 ∨ ch = 4 := by
  rw [channelsOk, decide_eq_true_iff]

theorem add8_toNat (c : Byte) (d : Int) : ((add8 c d).toNat : Int) = (c.toNat + d) % 256 := by
  rw [add8, BitVec.toNat_ofInt]
  simp
  omega

theorem windowsIllegal_iff {op : Latches} : windowsIllegal op = true ↔
    op.srcBase.toNat + op.srcLen.toNat > 2 ^ 32 ∨ op.dstBase.toNat + op.dstCap.toNat > 2 ^ 32 ∨
      (op.srcLen.toNat > 0 ∧ op.dstCap.toNat > 0 ∧ op.srcBase.toNat < op.dstBase.toNat + op.dstCap.toNat ∧
        op.dstBase.toNat < op.srcBase.toNat + op.srcLen.toNat) := by
  rw [windowsIllegal, Bool.or_eq_true, Bool.or_eq_true, decide_eq_true_iff, decide_eq_true_iff, decide_eq_true_iff,
    or_assoc]
  rfl

/-- Storing a pixel that its slot already holds changes nothing. -/
theorem cache_set_own {c : Vector Pixel 64} {p : Pixel} (h : c.get (pixelHash p) = p) : c.set (pixelHash p) p = c := by
  apply Vector.ext
  intro i hi
  rw [Vector.getElem_set]
  split
  · next he => subst he; exact h.symm
  · rfl

/-- After a store, a slot holds what was stored or what it held. -/
theorem cache_get_set (slots : Vector Pixel 64) (p : Pixel) (k : Fin 64) :
    (slots.set (pixelHash p) p).get k = if k = pixelHash p then p else slots.get k := by
  show (slots.set (pixelHash p) p)[k.val] = if k = pixelHash p then p else slots[k.val]
  rw [Vector.getElem_set]
  by_cases h : pixelHash p = k
  · rw [if_pos (congrArg Fin.val h), if_pos h.symm]
  · rw [if_neg fun hv => h (Fin.ext hv), if_neg fun hv => h hv.symm]

end Sys2Proof.Machine
end

