-- ==== Sys2Proof/Laws/Chunks.lean ====
section
/-! SUPPORT. What WRITE_PIXELS and the tail of DECODE_CHUNK can do: when they complete and with what, and what holds of
every way they can end. -/

namespace Sys2Proof.Machine

/-! ### The bytes of pixels -/

theorem pixelBytes_length {p : Pixel} {ch : Byte} (h : ch = 3 ∨ ch = 4) : (pixelBytes p ch).length = ch.toNat := by
  rcases h with rfl | rfl <;> rfl

/-- The bytes of `n` copies of pixel `p`. -/
def copiesOf (n : Nat) (p : Pixel) (ch : Byte) : List Byte := (List.replicate n (pixelBytes p ch)).flatten

@[simp] theorem copiesOf_zero (p : Pixel) (ch : Byte) : copiesOf 0 p ch = [] := rfl

theorem copiesOf_succ (n : Nat) (p : Pixel) (ch : Byte) :
    copiesOf (n + 1) p ch = pixelBytes p ch ++ copiesOf n p ch := by
  simp [copiesOf, List.replicate_succ]

theorem copiesOf_length {p : Pixel} {ch : Byte} (h : ch = 3 ∨ ch = 4) (n : Nat) :
    (copiesOf n p ch).length = ch.toNat * n := by
  induction n with
  | zero => rfl
  | succ n ih => rw [copiesOf_succ, List.length_append, pixelBytes_length h, ih, Nat.mul_succ, Nat.add_comm]

/-- Byte `j` of copy `i`. -/
theorem copiesOf_getD {p : Pixel} {ch : Byte} (h : ch = 3 ∨ ch = 4) {n i j : Nat} (hi : i < n) (hj : j < ch.toNat) :
    (copiesOf n p ch).getD (ch.toNat * i + j) 0 = [p.r, p.g, p.b, p.a].getD j 0 := by
  induction n generalizing i with
  | zero => omega
  | succ n ih =>
    rw [copiesOf_succ]
    cases i with
    | zero =>
      rw [Nat.mul_zero, Nat.zero_add, List.getD_append _ _ _ _ (by rw [pixelBytes_length h]; exact hj)]
      rcases h with rfl | rfl
      · have hj' : j < 3 := hj
        interval_cases j <;> rfl
      · rfl
    | succ i =>
      rw [List.getD_append_right _ _ _ _ (by rw [pixelBytes_length h, Nat.mul_succ]; omega), pixelBytes_length h,
        show ch.toNat * (i + 1) + j - ch.toNat = ch.toNat * i + j by rw [Nat.mul_succ]; omega, ih (by omega)]

/-! ### WRITE_PIXELS -/

/-- `s` with `n` more pixels decoded, as far as the pixel count goes. -/
def advancePix (n : Nat) (s : State) : State := { s with op := { s.op with pix := s.op.pix + BitVec.ofNat 32 n } }

@[simp] theorem advancePix_zero (s : State) : advancePix 0 s = s := by simp [advancePix]

theorem advancePix_toNat {n : Nat} {s : State} (h : s.op.pix.toNat + n < 2 ^ 32) :
    (advancePix n s).op.pix.toNat = s.op.pix.toNat + n := by
  simp only [advancePix]
  rw [BitVec.toNat_add, BitVec.toNat_ofNat, Nat.mod_eq_of_lt (a := n) (by omega), Nat.mod_eq_of_lt h]

theorem neutral_advancePix (n : Nat) : Neutral (advancePix n) :=
  ⟨fun _ => rfl, fun _ => rfl, fun _ => rfl, fun _ => rfl, fun _ => rfl, fun _ _ _ _ => rfl, fun _ _ => rfl⟩

theorem advancePix_advancePix (k n : Nat) (s : State) : advancePix n (advancePix k s) = advancePix (k + n) s := by
  simp only [advancePix, BitVec.ofNat_add, BitVec.add_assoc]

theorem writePixels_succ (p : Pixel) (m : Nat) (s : State) : writePixels p (m + 1) s =
    (writeBytes (pixelBytes p s.op.ch) (s.op.ch.toNat * s.op.pix.toNat) s).bind fun _ s1 =>
      writePixels p m (advancePix 1 s1) := rfl

/-- WRITE_PIXELS writes the copies of the pixel one after another, after the pixels already decoded. -/
theorem writePixels_finish (p : Pixel) {n : Nat} {s : State} (hch : s.op.ch = 3 ∨ s.op.ch = 4)
    (hp : s.op.pix.toNat + n < 2 ^ 32) (k : Unit → State → Answer) :
    (writePixels p n s).finish k =
      (writeBytes (copiesOf n p s.op.ch) (s.op.ch.toNat * s.op.pix.toNat) s).finish
        fun u t => k u (advancePix n t) := by
  induction n generalizing s with
  | zero => simp [writePixels, writeBytes]
  | succ n ih =>
    rw [writePixels_succ, Acc.finish_bind, copiesOf_succ, writeBytes_append, Acc.finish_bind]
    refine Acc.finish_congr fun u t h => ?_
    have ht : t.op = s.op := by rw [(writeBytes_ok h).2, accessed_op]
    have hpos := advancePix_toNat (n := 1) (s := t) (by rw [ht]; omega)
    have hc : (advancePix 1 t).op.ch = s.op.ch := by rw [← ht]; rfl
    rw [ih (by rw [hc]; exact hch) (by rw [hpos, ht]; omega), (neutral_advancePix 1).writeBytes_finish, hpos, ht, hc,
      pixelBytes_length hch, Nat.mul_succ]
    simp only [advancePix_advancePix, Nat.add_comm 1]

/-! ### The tail of DECODE_CHUNK -/

/-- `s` after a chunk of `len` bytes that stands for `cnt` pixels `p`, memory aside. -/
def chunkDone (len : Nat) (p : Pixel) (cnt : Nat) (s : State) : State :=
  afterChunk (advancePix (min cnt (pixelsLeft s)) (cacheUpdate p (advanceCursor len s)))

theorem neutral_chunkSetup (len : Nat) (p : Pixel) : Neutral fun s => cacheUpdate p (advanceCursor len s) :=
  ⟨fun _ => rfl, fun _ => rfl, fun _ => rfl, fun _ => rfl, fun _ => rfl, fun _ _ _ _ => rfl, fun _ _ => rfl⟩

/-- The tail of DECODE_CHUNK: `need`, one sequence of writes, and the state after the chunk. -/
theorem decodeTail_eq {len : Nat} (p : Pixel) (cnt : Nat) {s : State} (hch : s.op.ch = 3 ∨ s.op.ch = 4)
    (hn : s.op.npix.toNat ≤ Config.pixelsMax) (hp : s.op.pix.toNat ≤ s.op.npix.toNat) :
    decodeTail len p cnt s =
      if s.op.inPos.toNat + len > s.op.srcLen.toNat then .next (raise .truncatedStream s)
      else (writeBytes (copiesOf (min cnt (pixelsLeft s)) p s.op.ch) (s.op.ch.toNat * s.op.pix.toNat) s).finish
        fun _ t => .next (chunkDone len p cnt t) := by
  unfold decodeTail
  split
  · rfl
  · simp only [Config.pixelsMax] at hn
    rw [writePixels_finish]
    · rw [(neutral_chunkSetup len p).writeBytes_finish]
      refine Acc.finish_congr fun u t h => ?_
      have ht : t.op = s.op := by rw [(writeBytes_ok h).2, accessed_op]
      rw [chunkDone, show pixelsLeft t = pixelsLeft s by rw [pixelsLeft, ht, pixelsLeft]]
    · exact hch
    · show s.op.pix.toNat + min cnt (pixelsLeft s) < _
      unfold pixelsLeft
      omega

/-- The state after a chunk, written out. -/
theorem chunkDone_fields {len : Nat} (p : Pixel) (cnt : Nat) {s : State} (m : Memory) (d r : Nat)
    (hn : s.op.npix.toNat ≤ Config.pixelsMax) (hp : s.op.pix.toNat ≤ s.op.npix.toNat) :
    chunkDone len p cnt (accessed s m d r) = { s with
      prev := p
      cache := s.cache.set (pixelHash p) p
      op := { s.op with
        inPos := BitVec.ofNat 32 (s.op.inPos.toNat + len)
        pix := BitVec.ofNat 32 (min (s.op.pix.toNat + cnt) s.op.npix.toNat) }
      fsm := if s.op.pix.toNat + cnt < s.op.npix.toNat then .decChunk else .decFtr
      mem := m, draws := d, reach := r } := by
  simp only [Config.pixelsMax] at hn
  have e1 : s.op.inPos + BitVec.ofNat 32 len = BitVec.ofNat 32 (s.op.inPos.toNat + len) := by
    rw [BitVec.ofNat_add, BitVec.ofNat_toNat, BitVec.setWidth_eq]
  have e2 : s.op.pix + BitVec.ofNat 32 (min cnt (s.op.npix.toNat - s.op.pix.toNat)) =
      BitVec.ofNat 32 (min (s.op.pix.toNat + cnt) s.op.npix.toNat) := by
    rw [show min (s.op.pix.toNat + cnt) s.op.npix.toNat =
      s.op.pix.toNat + min cnt (s.op.npix.toNat - s.op.pix.toNat) by omega, BitVec.ofNat_add, BitVec.ofNat_toNat,
      BitVec.setWidth_eq]
  have e3 : (BitVec.ofNat 32 (min (s.op.pix.toNat + cnt) s.op.npix.toNat)).toNat < s.op.npix.toNat ↔
      s.op.pix.toNat + cnt < s.op.npix.toNat := by
    rw [BitVec.toNat_ofNat, Nat.mod_eq_of_lt (by omega)]
    omega
  simp only [chunkDone, afterChunk, advancePix, cacheUpdate, advanceCursor, accessed, pixelsLeft, e1, e2, e3]

/-- The bytes a chunk of `cnt` pixels writes. -/
theorem copies_length {p : Pixel} {s : State} (hch : s.op.ch = 3 ∨ s.op.ch = 4) (cnt : Nat) :
    (copiesOf (min cnt (pixelsLeft s)) p s.op.ch).length = s.op.ch.toNat * min cnt (s.op.npix.toNat - s.op.pix.toNat) :=
  copiesOf_length hch _

theorem copies_inSpace {op : Latches} (h : OutputFits op) (cnt : Nat) :
    op.dstBase.toNat + op.ch.toNat * op.pix.toNat + op.ch.toNat * min cnt (op.npix.toNat - op.pix.toNat) ≤
      op.dstBase.toNat + op.dstCap.toNat ∧
    op.ch.toNat * op.pix.toNat + op.ch.toNat * min cnt (op.npix.toNat - op.pix.toNat) =
      op.ch.toNat * min (op.pix.toNat + cnt) op.npix.toNat := by
  have h1 := h.capacity
  have h2 := h.sofar
  have h3 : op.ch.toNat * min (op.pix.toNat + cnt) op.npix.toNat ≤ op.ch.toNat * op.npix.toNat :=
    Nat.mul_le_mul_left _ (by omega)
  rw [← Nat.mul_add, show op.pix.toNat + min cnt (op.npix.toNat - op.pix.toNat) =
    min (op.pix.toNat + cnt) op.npix.toNat by omega, Nat.add_assoc, ← Nat.mul_add,
    show op.pix.toNat + min cnt (op.npix.toNat - op.pix.toNat) = min (op.pix.toNat + cnt) op.npix.toNat by omega]
  rw [Nat.mul_comm] at h1
  omega

/-- A chunk whose writes completed has the effect of a chunk. -/
theorem chunkEffect_of_stored {s : State} {len cnt : Nat} (p : Pixel) (hf : OutputFits s.op) (hm : Memory.wf s.mem)
    (d r : Nat) :
    ChunkEffect s (chunkDone len p cnt (accessed s (Memory.store (copiesOf (min cnt (pixelsLeft s)) p s.op.ch)
      (s.op.dstBase.toNat + s.op.ch.toNat * s.op.pix.toNat) s.mem) d r)) len p cnt := by
  obtain ⟨h1, h2⟩ := copies_inSpace hf cnt
  have h3 := hf.inSpace
  have hl := copies_length (p := p) hf.channels cnt
  refine ⟨?_, ?_, ?_⟩
  · exact (chunkDone_fields p cnt _ _ _ hf.count hf.sofar).trans (by rfl)
  · intro i j hi hj
    show Memory.read (Memory.store _ _ _) _ = _
    have hi' : i < min cnt (pixelsLeft s) := by unfold pixelsLeft; omega
    have hlt : s.op.ch.toNat * i + j < s.op.ch.toNat * min cnt (s.op.npix.toNat - s.op.pix.toNat) := by
      have : s.op.ch.toNat * (i + 1) ≤ s.op.ch.toNat * min cnt (s.op.npix.toNat - s.op.pix.toNat) :=
        Nat.mul_le_mul_left _ (by unfold pixelsLeft at hi'; omega)
      rw [Nat.mul_succ] at this
      omega
    rw [Nat.mul_add, show s.op.dstBase.toNat + (s.op.ch.toNat * s.op.pix.toNat + s.op.ch.toNat * i) + j =
      s.op.dstBase.toNat + s.op.ch.toNat * s.op.pix.toNat + (s.op.ch.toNat * i + j) by omega,
      Memory.read_store_same _ hm (by rw [hl]; omega) (by rw [hl]; exact hlt), copiesOf_getD hf.channels hi' hj]
  · intro a ha
    show Memory.read (Memory.store _ _ _) _ = _
    exact Memory.read_store_other _ _ (by rw [hl]; omega)

/-- Where it is ready, a chunk completes and has its effect, and memory keeps its form. -/
theorem decodeTail_of_ready {s : State} {len cnt : Nat} (p : Pixel) (h : ChunkReady s len cnt) :
    ∃ t, decodeTail len p cnt s = .next t ∧ ChunkEffect s t len p cnt ∧ Memory.wf t.mem := by
  obtain ⟨h1, -⟩ := copies_inSpace h.fits cnt
  have h3 := h.fits.inSpace
  have hl := copies_length (p := p) h.fits.channels cnt
  have he := decodeTail_eq (len := len) p cnt h.fits.channels h.fits.count h.fits.sofar
  rw [if_neg (by have := h.bytes; omega),
    writeBytes_of_answered (by rw [hl]; exact h.answered) (by rw [hl]; omega), Acc.finish_ok] at he
  exact ⟨_, he, chunkEffect_of_stored p h.fits h.mem _ _, Memory.wf_store _ h.mem (by rw [hl]; omega)⟩

/-- What a chunk can do: TruncatedStream, BusError with memory changed in the bytes of its pixels only, or its
effect. -/
theorem decodeTail_next {s t : State} {len cnt : Nat} {p : Pixel} (hf : OutputFits s.op) (hm : Memory.wf s.mem)
    (h : decodeTail len p cnt s = .next t) :
    (s.op.srcLen.toNat < s.op.inPos.toNat + len ∧ t = raise .truncatedStream s) ∨
    (∃ m d r, t = raise .busError (accessed s m d r) ∧ Memory.wf m ∧
      r ≤ max s.reach (s.op.ch.toNat * min (s.op.pix.toNat + cnt) s.op.npix.toNat) ∧
      ∀ a, (a < s.op.dstBase.toNat + s.op.ch.toNat * s.op.pix.toNat ∨
          s.op.dstBase.toNat + s.op.ch.toNat * min (s.op.pix.toNat + cnt) s.op.npix.toNat ≤ a) →
        Memory.read m a = Memory.read s.mem a) ∨
    (s.op.inPos.toNat + len ≤ s.op.srcLen.toNat ∧ ChunkEffect s t len p cnt ∧ Memory.wf t.mem ∧
      t.reach = reachAfter s.reach (s.op.ch.toNat * s.op.pix.toNat)
        (s.op.ch.toNat * min cnt (s.op.npix.toNat - s.op.pix.toNat))) := by
  obtain ⟨h1, h2⟩ := copies_inSpace hf cnt
  have h3 := hf.inSpace
  have hl := copies_length (p := p) hf.channels cnt
  rw [decodeTail_eq p cnt hf.channels hf.count hf.sofar] at h
  split at h
  · cases h
    exact .inl ⟨by omega, rfl⟩
  · rcases Acc.finish_eq_next.1 h with ⟨u, s1, hw, ht⟩ | ⟨e, s1, hw, ht⟩
    · obtain ⟨-, e1⟩ := writeBytes_ok hw
      cases ht
      rw [e1]
      refine .inr (.inr ⟨by omega, chunkEffect_of_stored p hf hm _ _, Memory.wf_store _ hm (by rw [hl]; omega), ?_⟩)
      rw [← hl]
      rfl
    · obtain ⟨rfl, e1, hr, hw', hx⟩ := writeBytes_raised hw
      rw [hl] at hr hx
      refine .inr (.inl ⟨s1.mem, s1.draws, s1.reach, by rw [← e1]; exact ht, hw' hm, by rw [← h2]; exact hr,
        fun a ha => hx a (by omega)⟩)

theorem decodeTail_not_fault {s : State} {len cnt : Nat} {p : Pixel} {f : Fault} (hf : OutputFits s.op) :
    decodeTail len p cnt s ≠ .fault f := by
  intro h
  obtain ⟨h1, -⟩ := copies_inSpace hf cnt
  have h3 := hf.inSpace
  rw [decodeTail_eq p cnt hf.channels hf.count hf.sofar] at h
  split at h
  · cases h
  · rcases Acc.finish_eq_fault.1 h with h | ⟨_, _, _, h⟩
    · have := writeBytes_fault h
      rw [copies_length hf.channels cnt] at this
      omega
    · cases h

end Sys2Proof.Machine
end

