-- ==== Sys2Proof/Laws/Encode.lean ====
section
/-! SUPPORT. The encode steps as one sequence of writes and one change of state: the bytes a pixel emits, and the state
after it. -/

namespace Sys2Proof.Machine

/-! ### Emission -/

theorem neutral_advanceOut (n : Nat) : Neutral (advanceOut n) :=
  ⟨fun _ => rfl, fun _ => rfl, fun _ => rfl, fun _ => rfl, fun _ => rfl, fun _ _ _ _ => rfl, fun _ _ => rfl⟩

theorem neutral_setRun (n : BitVec 6) : Neutral fun s => { s with run := n } :=
  ⟨fun _ => rfl, fun _ => rfl, fun _ => rfl, fun _ => rfl, fun _ => rfl, fun _ _ _ _ => rfl, fun _ _ => rfl⟩

theorem storeColour_eq (p : Pixel) (s : State) : storeColour p s = { s with cache := s.cache.set (pixelHash p) p } := by
  unfold storeColour
  split
  · next h => rw [cache_set_own h]
  · rfl

theorem neutral_storeColour (p : Pixel) : Neutral (storeColour p) := by
  rw [show storeColour p = fun s => { s with cache := s.cache.set (pixelHash p) p } from funext (storeColour_eq p)]
  exact ⟨fun _ => rfl, fun _ => rfl, fun _ => rfl, fun _ => rfl, fun _ => rfl, fun _ _ _ _ => rfl, fun _ _ => rfl⟩

theorem advanceOut_advanceOut (k n : Nat) (s : State) : advanceOut n (advanceOut k s) = advanceOut (k + n) s := by
  simp only [advanceOut, BitVec.ofNat_add, BitVec.add_assoc]

/-- Emission is one sequence of writes at the output cursor, which moves past them. -/
theorem emitAll_finish {bs : List Byte} {s : State} (hp : s.op.outPos.toNat + bs.length < 2 ^ 32)
    (k : Unit → State → Answer) :
    (emitAll bs s).finish k = (writeBytes bs s.op.outPos.toNat s).finish fun u t => k u (advanceOut bs.length t) := by
  induction bs generalizing s with
  | nil => simp [emitAll, writeBytes]
  | cons b bs ih =>
    rw [List.length_cons] at hp ⊢
    rw [emitAll, emit, Acc.finish_bind, Acc.finish_bind, writeBytes, Acc.finish_bind]
    refine Acc.finish_congr fun u t h => ?_
    have ht : t.op = s.op := by rw [(writeOut_ok h).2, accessed_op]
    have hpos := advanceOut_outPos_toNat (n := 1) (s := t) (by rw [ht]; omega)
    show (emitAll bs (advanceOut 1 t)).finish k = _
    rw [ih (by rw [hpos, ht]; omega), (neutral_advanceOut 1).writeBytes_finish, hpos, ht]
    simp only [advanceOut_advanceOut, Nat.add_comm 1]

/-! ### One pixel -/

@[simp] theorem bytesOfChunks_nil : bytesOfChunks [] = [] := rfl

theorem bytesOfChunks_cons (i : Instr) (is : List Instr) : bytesOfChunks (i :: is) = streamBytes i ++ bytesOfChunks is := by
  simp [bytesOfChunks]

theorem chooseChunk_length (p : Pixel) (s : State) : (streamBytes (chooseChunk p s)).length ≤ 5 ∧
    (p.a = s.prev.a → (streamBytes (chooseChunk p s)).length ≤ 4) := by
  unfold chooseChunk deltaChunk
  split
  · simp
  · dsimp only
    split
    · split
      · simp
      · split <;> simp
    · next h => exact ⟨by simp, fun h' => absurd h' h⟩

/-- The state after a pixel: PREV, RUN, the cache and the output cursor. -/
def pixelDone (p : Pixel) (last : Bool) (s : State) : State :=
  advanceOut (bytesOfChunks (pixelChunks p last s)).length { s with
    prev := p
    run := if p = s.prev ∧ s.run.toNat + 1 ≠ 62 ∧ last = false then s.run + 1 else 0
    cache := if p = s.prev then s.cache else s.cache.set (pixelHash p) p }

theorem pixelChunks_accessed (p : Pixel) (last : Bool) (s : State) (m : Memory) (d r : Nat) :
    pixelChunks p last (accessed s m d r) = pixelChunks p last s := rfl

theorem neutral_pixelDone (p : Pixel) (last : Bool) : Neutral (pixelDone p last) :=
  ⟨fun _ => rfl, fun _ => rfl, fun _ => rfl, fun _ => rfl, fun _ => rfl, fun _ _ _ _ => rfl, fun _ _ => rfl⟩

theorem pixelDone_counted {p : Pixel} {last : Bool} {s : State} (he : p = s.prev)
    (hl : ¬(s.run.toNat + 1 = 62 ∨ last = true)) : pixelDone p last s = { s with run := s.run + 1 } := by
  rw [pixelDone, pixelChunks, if_pos he, if_neg hl, bytesOfChunks_nil, List.length_nil, advanceOut_zero,
    if_pos ⟨he, fun h => hl (.inl h), by cases last <;> simp_all⟩, if_pos he]
  subst he
  rfl

theorem pixelDone_flushed {p : Pixel} {last : Bool} {s : State} (he : p = s.prev)
    (hl : s.run.toNat + 1 = 62 ∨ last = true) : pixelDone p last s = { advanceOut 1 s with run := 0 } := by
  rw [pixelDone, pixelChunks, if_pos he, if_pos hl, if_neg, if_pos he]
  · subst he
    rfl
  · rintro ⟨-, h1, h2⟩
    rcases hl with hl | hl
    · exact h1 hl
    · rw [hl] at h2
      cases h2

theorem pixelDone_differing {p : Pixel} {last : Bool} {s : State} (he : p ≠ s.prev) :
    pixelDone p last s = advanceOut (bytesOfChunks (pixelChunks p last s)).length
      { s with prev := p, run := 0, cache := s.cache.set (pixelHash p) p } := by
  rw [pixelDone, if_neg fun h => he h.1, if_neg he]

theorem run_succ {n : BitVec 6} (h : n.toNat ≤ 61) : (n + 1).toNat = n.toNat + 1 := by
  rw [BitVec.toNat_add]
  exact Nat.mod_eq_of_lt (show n.toNat + 1 < 64 by omega)

theorem emitRun_finish {s : State} (hp : s.op.outPos.toNat + 1 < 2 ^ 32) (k : Unit → State → Answer) :
    (emitRun s).finish k = (writeBytes (streamBytes (.run s.run.toNat)) s.op.outPos.toNat s).finish
      fun u t => k u { advanceOut 1 t with run := 0 } := by
  rw [emitRun, Acc.finish_bind, emitAll_finish (by simpa using hp)]
  rfl

/-- The state after the chunk of a differing pixel. -/
def colourDone (p : Pixel) (n : Nat) (s : State) : State :=
  advanceOut n { s with prev := p, cache := s.cache.set (pixelHash p) p }

theorem emitColour_finish {p : Pixel} {s : State} (hp : s.op.outPos.toNat + 5 < 2 ^ 32) (k : Unit → State → Answer) :
    ((emitAll (streamBytes (chooseChunk p s)) (storeColour p s)).bind fun _ s2 => .ok () { s2 with prev := p }).finish k =
      (writeBytes (streamBytes (chooseChunk p s)) s.op.outPos.toNat s).finish
        fun u t => k u (colourDone p (streamBytes (chooseChunk p s)).length t) := by
  have hc5 := (chooseChunk_length p s).1
  rw [Acc.finish_bind, emitAll_finish (by rw [storeColour_op]; omega), (neutral_storeColour p).writeBytes_finish,
    storeColour_op]
  refine Acc.finish_congr fun u t _ => ?_
  rw [storeColour_eq]
  rfl

theorem encodeDiffering_finish {p : Pixel} {last : Bool} {s : State} (he : p ≠ s.prev)
    (hp : s.op.outPos.toNat + 6 < 2 ^ 32) (k : Unit → State → Answer) :
    (encodeDiffering p s).finish k =
      (writeBytes (bytesOfChunks (pixelChunks p last s)) s.op.outPos.toNat s).finish
        fun u t => k u (pixelDone p last t) := by
  rw [encodeDiffering, Acc.finish_bind, flushRun]
  by_cases h0 : s.run.toNat > 0
  · have hcs : pixelChunks p last s = [.run s.run.toNat, chooseChunk p s] := by
      rw [pixelChunks, if_neg he, if_pos h0]
      rfl
    rw [if_pos h0, emitRun_finish (by omega), hcs, bytesOfChunks_cons, bytesOfChunks_cons, bytesOfChunks_nil,
      List.append_nil, writeBytes_append, Acc.finish_bind]
    refine Acc.finish_congr fun u t h => ?_
    have e1 := (writeBytes_ok h).2
    have ht : t.op = s.op := by rw [e1, accessed_op]
    have hpos := advanceOut_outPos_toNat (n := 1) (s := t) (by rw [ht]; omega)
    have hch : chooseChunk p { advanceOut 1 t with run := 0 } = chooseChunk p s := by rw [e1]; rfl
    have hpos' : ({ advanceOut 1 t with run := 0 } : State).op.outPos.toNat = s.op.outPos.toNat + 1 := by
      rw [← ht]; exact hpos
    rw [emitColour_finish (by rw [hpos']; omega), hpos', hch,
      show ({ advanceOut 1 t with run := 0 } : State) = (fun s : State => { s with run := 0 }) (advanceOut 1 t) from rfl,
      (neutral_setRun 0).writeBytes_finish, (neutral_advanceOut 1).writeBytes_finish]
    refine Acc.finish_congr fun u' t' h' => ?_
    have hp' : t'.prev = s.prev := by rw [(writeBytes_ok h').2, accessed_prev, e1, accessed_prev]
    have hcs' : pixelChunks p last t' = [.run s.run.toNat, chooseChunk p s] := by
      rw [(writeBytes_ok h').2, pixelChunks_accessed, e1, pixelChunks_accessed, hcs]
    rw [pixelDone_differing (by rw [hp']; exact he), hcs', bytesOfChunks_cons, bytesOfChunks_cons, bytesOfChunks_nil,
      List.append_nil, List.length_append, streamBytes_run, List.length_singleton, ← advanceOut_advanceOut]
    rfl
  · have hcs : pixelChunks p last s = [chooseChunk p s] := by
      rw [pixelChunks, if_neg he, if_neg h0]
      rfl
    have hrun : s.run = 0 := BitVec.eq_of_toNat_eq (by simpa using h0)
    rw [if_neg h0, Acc.finish_ok, emitColour_finish (by omega), hcs, bytesOfChunks_cons, bytesOfChunks_nil,
      List.append_nil]
    refine Acc.finish_congr fun u' t' h' => ?_
    have e2 := (writeBytes_ok h').2
    have hp' : t'.prev = s.prev := by rw [e2, accessed_prev]
    have hr' : t'.run = 0 := by rw [e2, accessed_run, hrun]
    have hcs' : pixelChunks p last t' = [chooseChunk p s] := by rw [e2, pixelChunks_accessed, hcs]
    rw [pixelDone_differing (by rw [hp']; exact he), hcs', bytesOfChunks_cons, bytesOfChunks_nil, List.append_nil, ← hr']
    rfl

/-- ENCODE_PIXEL is one sequence of writes, the bytes of the pixel's chunks, and one change of the codec state. -/
theorem encodePixel_finish {p : Pixel} {last : Bool} {s : State} (hr : s.run.toNat ≤ 61)
    (hp : s.op.outPos.toNat + 6 < 2 ^ 32) (k : Unit → State → Answer) :
    (encodePixel p last s).finish k =
      (writeBytes (bytesOfChunks (pixelChunks p last s)) s.op.outPos.toNat s).finish
        fun u t => k u (pixelDone p last t) := by
  unfold encodePixel
  by_cases he : p = s.prev
  · rw [if_pos he, continueRun]
    simp only [run_succ hr, Config.runMax]
    by_cases hl : s.run.toNat + 1 = 62 ∨ last = true
    · rw [if_pos hl, emitRun_finish (by show s.op.outPos.toNat + 1 < _; omega),
        (neutral_setRun (s.run + 1)).writeBytes_finish, pixelChunks, if_pos he, if_pos hl]
      simp only [run_succ hr, bytesOfChunks_cons, bytesOfChunks_nil, List.append_nil]
      refine Acc.finish_congr fun u t h => ?_
      have e1 := (writeBytes_ok h).2
      rw [e1, (neutral_pixelDone p last).access, pixelDone_flushed he hl]
      rfl
    · rw [if_neg hl, pixelChunks, if_pos he, if_neg hl]
      simp only [bytesOfChunks_nil, writeBytes, Acc.finish_ok]
      rw [pixelDone_counted he hl]
  · rw [if_neg he]
    exact encodeDiffering_finish he hp k

/-! ### The steps -/

theorem encHeader_eq {s : State} (hp : s.op.outPos.toNat + 14 < 2 ^ 32) :
    encHeader s = (writeBytes (headerBytes s.op.w s.op.h s.op.ch s.op.cs) s.op.outPos.toNat s).finish
      fun _ t => .next { advanceOut 14 t with fsm := .encPix } := by
  rw [encHeader, emitAll_finish (by simpa using hp)]
  rfl

theorem encFooter_eq {s : State} (hp : s.op.outPos.toNat + 8 < 2 ^ 32) :
    encFooter s = (writeBytes Config.footer s.op.outPos.toNat s).finish
      fun _ t => .next (complete (advanceOut 8 t).op.outPos (advanceOut 8 t)) := by
  rw [encFooter, emitAll_finish (by simpa using hp)]
  rfl

/-- ENC_PIX: the reads of one pixel, then one sequence of writes and the state after the pixel. -/
theorem encPixel_eq {s : State} (hr : s.run.toNat ≤ 61) (hp : s.op.outPos.toNat + 6 < 2 ^ 32) :
    encPixel s = (readBytes s.op.ch.toNat (s.op.ch.toNat * s.op.pix.toNat) s).finish fun bs s1 =>
      (writeBytes (bytesOfChunks (pixelChunks (pixelOfBytes bs) (isLastPixel s) s)) s.op.outPos.toNat s1).finish
        fun _ t => .next (afterPixel (pixelDone (pixelOfBytes bs) (isLastPixel s) t)) := by
  rw [encPixel, fetchPixel, Acc.finish_bind]
  refine Acc.finish_congr fun bs s1 h => ?_
  obtain ⟨e1, -⟩ := readBytes_ok h
  have hop : s1.op = s.op := by rw [e1, accessed_op]
  have hrun : s1.run = s.run := by rw [e1, accessed_run]
  have hl : isLastPixel s1 = isLastPixel s := by rw [isLastPixel, hop, isLastPixel]
  rw [Acc.finish_ok, encodePixel_finish (by rw [hrun]; exact hr) (by rw [hop]; exact hp), hop, hl]
  rw [show pixelChunks (pixelOfBytes bs) (isLastPixel s) s1 = pixelChunks (pixelOfBytes bs) (isLastPixel s) s by
    rw [e1, pixelChunks_accessed]]

/-- The pixel of the bytes memory holds for it. -/
theorem pixelOfBytes_srcBytes {s : State} (hch : s.op.ch = 3 ∨ s.op.ch = 4) (n : Nat) :
    pixelOfBytes (srcBytes s (s.op.ch.toNat * n) s.op.ch.toNat) = pixelAt s n := by
  unfold pixelAt
  rcases hch with h | h <;> rw [h] <;> rfl

end Sys2Proof.Machine
end

