-- ==== Sys2Proof/Laws/HostPort.lean ====
section
/-! SUPPORT. What a host write to STATUS does, and what it does in the same cycle as an engine step (rule R270). -/

namespace Sys2Proof.Machine

/-- The DONE bit of a same-cycle write is dropped where the engine's step raised DONE. -/
@[simp] theorem keepRaised_done (s t : State) (v : Word) :
    (keepRaised s t v).getLsbD 1 = (v.getLsbD 1 && !(t.done && !s.done)) := by
  rw [keepRaised]
  cases t.done && !s.done <;> cases t.err && !s.err <;> simp [bitAt]

/-- The ERR bit of a same-cycle write is dropped where the engine's step raised ERR. -/
@[simp] theorem keepRaised_err (s t : State) (v : Word) :
    (keepRaised s t v).getLsbD 2 = (v.getLsbD 2 && !(t.err && !s.err)) := by
  rw [keepRaised]
  cases t.done && !s.done <;> cases t.err && !s.err <;> simp [bitAt]

/-- A 32-bit write to STATUS clears what its bits 1 and 2 say, and nothing else happens (rule R234). -/
theorem hostRegWrite_status (v : Word) (s : State) :
    hostRegWrite exec statusOffset .word v s = .next (flagsClear (v.getLsbD 1) (v.getLsbD 2) s) := rfl

/-- A write to STATUS in the same cycle as an engine step clears the flags that were up before the step, and none that
the step raised (rule R270). -/
theorem hostCycleWrite_status (v : Word) (s t : State) :
    hostCycleWrite exec .status v s (.next t) = .next { t with
      done := t.done && !(v.getLsbD 1 && s.done), err := t.err && !(v.getLsbD 2 && s.err) } := by
  rw [hostCycleWrite, commandOffset, cycleValue, hostRegWrite_status, keepRaised_done, keepRaised_err, flagsClear]
  cases t.done <;> cases t.err <;> simp

end Sys2Proof.Machine
end

