-- ==== Sys2Proof/Laws/Invariant.lean ====
section
/-! SUPPORT. How the parts of the invariant pass from one state to the next: the two ends of an operation, a step that
goes on running, the codec state, and each phase of an encode and of a decode. -/

namespace Sys2Proof.Machine

/-! ### The ends of an operation -/

theorem raise_inv {s : State} (hm : Memory.wf s.mem) (ho : s.outLen = 0) (e : ErrKind) : Inv (raise e s) := by
  refine ⟨raise_wf hm e, by simp, by simp, ?_, ?_, ?_, by simp, ⟨rfl, rfl, rfl⟩⟩
  · cases e <;> simp [raise, flagsError, closeOperation, errorCode]
  · cases e <;> simp [raise, flagsError, closeOperation, errorCode]
  · intro _
    simpa using ho

theorem raise_accessed_inv {s : State} {m : Memory} (hm : Memory.wf m) (ho : s.outLen = 0) (e : ErrKind) (d r : Nat) :
    Inv (raise e (accessed s m d r)) :=
  raise_inv (s := accessed s m d r) hm ho e

theorem complete_inv {s : State} (hm : Memory.wf s.mem) (he : s.err = false) (n : Word) : Inv (complete n s) := by
  refine ⟨?_, by simp [he], by simp, by simp, by simp [he], by simp [he], by simp, ⟨rfl, rfl, rfl⟩⟩
  rw [complete_mem]
  exact settleOutput_wf hm

/-! ### A running operation -/

theorem Inv.busy_of {s : State} (hI : Inv s) {f : Fsm} (hf : s.fsm = f) (h : f ≠ .idle) : s.busy = true :=
  hI.busyIff.2 (by rw [hf]; exact h)

theorem Inv.outLen_zero {s : State} (hI : Inv s) (hb : s.busy = true) : s.outLen = 0 := hI.noResult (.inl hb)

theorem Inv.err_false {s : State} (hI : Inv s) (hb : s.busy = true) : s.err = false := by
  have := hI.exclusive.2.1
  rw [hb] at this
  simpa using this

theorem Inv.done_false {s : State} (hI : Inv s) (hb : s.busy = true) : s.done = false := by
  have := hI.exclusive.1
  rw [hb] at this
  simpa using this

/-- The status of the operation is the same in `s` and `t`. -/
structure SameStatus (s t : State) : Prop where
  busy : t.busy = s.busy
  done : t.done = s.done
  err : t.err = s.err
  code : t.errCode = s.errCode
  outLen : t.outLen = s.outLen
  ctrl : t.ctrlMode = s.ctrlMode
  mode : t.op.mode = s.op.mode

/-- A step that leaves the operation running keeps the invariant if it keeps memory's form and the phase. -/
theorem Inv.running {s t : State} (hI : Inv s) (hb : s.busy = true) (h : SameStatus s t) (hm : Memory.wf t.mem)
    (hf : t.fsm ≠ .idle) (hp : PhaseOk t) : Inv t := by
  obtain ⟨a, b, c, d, e, f, g⟩ := h
  refine ⟨hm, ?_, ?_, ?_, ?_, ?_, ?_, hp⟩
  · rw [a, b, c]; exact hI.exclusive
  · rw [a]; simp [hb, hf]
  · rw [d]; exact hI.code
  · rw [a, b, c, d]; exact hI.codeOk
  · rw [a, c, e]; exact hI.noResult
  · rw [a, f, g]; exact hI.latched

/-! ### The codec state -/

theorem codecOk_init {s : State} (h1 : s.prev = Config.initPixel) (h2 : s.cache = Vector.replicate 64 Config.initPixel) :
    CodecOk s := by
  have hg : ∀ k : Fin 64, (Vector.replicate 64 Config.initPixel).get k = Config.initPixel := fun k => by
    simp [Vector.get]
  exact ⟨by rw [h1, h2]; exact hg _, fun k => .inl (by rw [h2]; exact hg _)⟩

theorem CodecOk.store {s t : State} {p : Pixel} (h : CodecOk s) (h1 : t.prev = p)
    (h2 : t.cache = s.cache.set (pixelHash p) p) : CodecOk t := by
  refine ⟨by rw [h1, h2, cache_get_set, if_pos rfl], fun k => ?_⟩
  rw [h2, cache_get_set]
  split
  · next hk => exact .inr hk.symm
  · exact h.slots k

theorem CodecOk.same {s t : State} (h : CodecOk s) (h1 : t.prev = s.prev) (h2 : t.cache = s.cache) : CodecOk t :=
  ⟨by rw [h1, h2]; exact h.own, fun k => by rw [h2]; exact h.slots k⟩

/-! ### Checked latches -/

theorem Checked.moved {op : Latches} (h : Checked op) (i o p : Word) :
    Checked { op with inPos := i, outPos := o, pix := p } :=
  ⟨h.windows, h.dims, h.channels, h.count⟩

/-- The bounds that checked latches give. -/
theorem Checked.bounds {op : Latches} (h : Checked op) :
    1 ≤ op.npix.toNat ∧ op.npix.toNat ≤ 400000000 ∧ 3 ≤ op.ch.toNat ∧ op.ch.toNat ≤ 4 ∧
    op.srcBase.toNat + op.srcLen.toNat ≤ 2 ^ 32 ∧ op.dstBase.toNat + op.dstCap.toNat ≤ 2 ^ 32 := by
  have hdim := dimsOk_iff.1 h.dims
  have hw := windowsIllegal_iff.not.1 (show ¬windowsIllegal op = true by rw [h.windows]; decide)
  have hn : op.npix.toNat = op.w.toNat * op.h.toNat := by rw [h.count, pixelCount_toNat]
  refine ⟨?_, ?_, ?_, ?_, by omega, by omega⟩
  · rw [hn]; exact Nat.mul_pos hdim.1 hdim.2.1
  · rw [hn]; exact hdim.2.2
  · rcases h.channels with h | h <;> rw [h] <;> decide
  · rcases h.channels with h | h <;> rw [h] <;> decide

theorem EncodeOk.moved {s t : State} (h : EncodeOk s) {i o p : Word}
    (hop : t.op = { s.op with inPos := i, outPos := o, pix := p }) (hc : CodecOk t)
    (ha : s.op.ch = 3 → t.prev.a = 255) (hr : t.reach = o.toNat) : EncodeOk t := by
  refine ⟨?_, ?_, ?_, ?_, hc, ?_, ?_⟩
  · rw [hop]; exact h.mode
  · rw [hop]; exact h.checked.moved i o p
  · rw [hop]; exact h.input
  · rw [hop]; exact h.output
  · rw [hop]; exact ha
  · rw [hop]; exact hr

/-! ### Writes at the end of a step -/

/-- What a sequence of writes that ends a step can do. -/
theorem writeBytes_finish_next {bs : List Byte} {off : Nat} {s t : State} {g : State → State} (hm : Memory.wf s.mem)
    (h : (writeBytes bs off s).finish (fun _ u => .next (g u)) = .next t) :
    (∃ d, t = g (accessed s (Memory.store bs (s.op.dstBase.toNat + off) s.mem) d (reachAfter s.reach off bs.length))) ∨
    (∃ m d r, Memory.wf m ∧ t = raise .busError (accessed s m d r) ∧ r ≤ max s.reach (off + bs.length) ∧
      ∀ a, (a < s.op.dstBase.toNat + off ∨ s.op.dstBase.toNat + off + bs.length ≤ a) →
        Memory.read m a = Memory.read s.mem a) := by
  rcases Acc.finish_eq_next.1 h with ⟨u, s1, h1, h2⟩ | ⟨e, s1, h1, h2⟩
  · cases h2
    exact .inl ⟨s1.draws, by rw [← (writeBytes_ok h1).2]⟩
  · obtain ⟨rfl, e1, e2, e3, e4⟩ := writeBytes_raised h1
    exact .inr ⟨s1.mem, s1.draws, s1.reach, e3 hm, by rw [← e1]; exact h2, e2, e4⟩

/-! ### The phases of an encode -/

theorem encCheck_inv {s t : State} (hI : Inv s) (hf : s.fsm = .encCheck) (h : encCheck s = .next t) : Inv t := by
  have hb := hI.busy_of hf (by decide)
  have hph := hI.phase
  rw [PhaseOk, hf] at hph
  obtain ⟨a, b, c, d, e, g⟩ := hph
  rw [encCheck, checkWindows] at h
  split at h
  · cases h
    exact raise_inv hI.mem (hI.outLen_zero hb) _
  next hw =>
  split at h
  · cases h
  split at h
  · cases h
    exact raise_inv hI.mem (hI.outLen_zero hb) _
  next he =>
  cases h
  refine hI.running hb ⟨rfl, rfl, rfl, rfl, rfl, rfl, rfl⟩ hI.mem (by simp) ?_
  rw [encodeError] at he
  split at he
  · cases he
  next h1 =>
  split at he
  · cases he
  next h2 =>
  split at he
  · cases he
  next h3 =>
  split at he
  · cases he
  next h4 =>
  have hck : Checked s.op := ⟨by simpa using hw, by simpa using h1, channelsOk_iff.1 (by simpa using h2), b⟩
  exact ⟨⟨a, hck.moved _ _ _, not_not.1 h3, Nat.le_of_not_lt h4, codecOk_init rfl rfl, fun _ => rfl, g⟩, c, rfl, e, rfl⟩

theorem encHeader_inv {s t : State} (hI : Inv s) (hf : s.fsm = .encHdr) (h : encHeader s = .next t) : Inv t := by
  have hb := hI.busy_of hf (by decide)
  have hph := hI.phase
  rw [PhaseOk, hf] at hph
  obtain ⟨hE, a, b, c, d⟩ := hph
  obtain ⟨f1, f2, f3, f4, f5, f6⟩ := hE.checked.bounds
  have ho := hE.output
  have hcap := s.op.dstCap.isLt
  have hop : s.op.outPos.toNat = 0 := by rw [b]; rfl
  rw [encHeader_eq (by omega)] at h
  rcases writeBytes_finish_next hI.mem h with ⟨dd, ht⟩ | ⟨m, dd, r, hm, ht, -⟩
  · obtain ⟨m, hm⟩ : ∃ m, m = Memory.store (headerBytes s.op.w s.op.h s.op.ch s.op.cs)
      (s.op.dstBase.toNat + s.op.outPos.toNat) s.mem := ⟨_, rfl⟩
    have hwm : Memory.wf m := by
      rw [hm]
      exact Memory.wf_store _ hI.mem (by rw [headerBytes_length]; show _ ≤ 2 ^ 32; omega)
    have hpos := advanceOut_outPos_toNat (n := 14) (s := s) (by omega)
    rw [advanceOut_op] at hpos
    rw [← hm] at ht
    have hop' : t.op = { s.op with outPos := s.op.outPos + BitVec.ofNat 32 14 } := by rw [ht]; rfl
    have hreach : t.reach = (s.op.outPos + BitVec.ofNat 32 14).toNat := by
      rw [hpos, ht]
      show reachAfter s.reach _ 14 = _
      rw [hE.reached, reachAfter]
      simp
    have hfs : t.fsm = .encPix := by rw [ht]
    have hrun : t.run = 0 := by rw [ht]; exact d
    refine hI.running hb (by rw [ht]; exact ⟨rfl, rfl, rfl, rfl, rfl, rfl, rfl⟩) (by rw [ht]; exact hwm)
      (by rw [hfs]; decide) ?_
    rw [PhaseOk, hfs]
    refine ⟨hE.moved hop' (hE.codec.same (by rw [ht]; rfl) (by rw [ht]; rfl)) (by rw [ht]; exact hE.opaqueAlpha) hreach,
      ?_, by rw [hrun]; decide, ?_, ?_, ?_⟩
    · rw [hop']
      show s.op.pix.toNat < s.op.npix.toNat
      rw [c]
      exact f1
    · rw [hop']
      show s.op.inPos.toNat = s.op.ch.toNat * s.op.pix.toNat
      rw [a, c]
      rfl
    · rw [hop', hpos]; omega
    · rw [hop', hpos, hrun, hop]
      show 0 + 14 + 0 ≤ 14 + _
      omega
  · rw [ht]
    exact raise_accessed_inv hm (hI.outLen_zero hb) _ _ _

theorem pixelChunks_length (p : Pixel) (last : Bool) (s : State) :
    (bytesOfChunks (pixelChunks p last s)).length ≤ 6 := by
  have := (chooseChunk_length p s).1
  unfold pixelChunks
  split
  · split <;> simp [bytesOfChunks]
  · split <;> simp [bytesOfChunks] <;> omega

/-- A pixel emits at most `ch + 1` bytes beyond the RUN chunk a pending run was counted for. -/
theorem pixelChunks_budget {p : Pixel} {last : Bool} {s : State} {ch : Nat} (h1 : 3 ≤ ch)
    (h2 : ch = 3 → p.a = s.prev.a) :
    (bytesOfChunks (pixelChunks p last s)).length + (if (pixelDone p last s).run.toNat = 0 then 0 else 1) ≤
      (if s.run.toNat = 0 then 0 else 1) + (ch + 1) := by
  have k := chooseChunk_length p s
  have k' : (streamBytes (chooseChunk p s)).length ≤ ch + 1 := by
    by_cases h : ch = 3
    · subst h
      exact k.2 (h2 rfl)
    · omega
  by_cases hp : p = s.prev
  · by_cases hc : s.run.toNat + 1 = 62 ∨ last = true
    · rw [pixelDone_flushed hp hc, pixelChunks, if_pos hp, if_pos hc]
      simp [bytesOfChunks]
      omega
    · rw [pixelDone_counted hp hc, pixelChunks, if_pos hp, if_neg hc]
      simp [bytesOfChunks]
      split <;> split <;> omega
  · rw [pixelDone_differing hp, advanceOut_run, pixelChunks, if_neg hp]
    split <;> simp [bytesOfChunks] <;> split <;> omega

theorem pixelDone_run_le {p : Pixel} {last : Bool} {s : State} (h : s.run.toNat ≤ 61) :
    (pixelDone p last s).run.toNat ≤ 61 ∧ (last = true → (pixelDone p last s).run = 0) := by
  by_cases hp : p = s.prev
  · by_cases hc : s.run.toNat + 1 = 62 ∨ last = true
    · rw [pixelDone_flushed hp hc]
      exact ⟨by simp, fun _ => rfl⟩
    · rw [pixelDone_counted hp hc]
      refine ⟨?_, fun hl => absurd (.inr hl) hc⟩
      show (s.run + 1).toNat ≤ 61
      rw [run_succ h]
      omega
  · rw [pixelDone_differing hp]
    exact ⟨by simp, fun _ => rfl⟩

theorem pixelDone_codec {p : Pixel} {last : Bool} {s : State} (h : CodecOk s) : CodecOk (pixelDone p last s) := by
  by_cases hp : p = s.prev
  · by_cases hc : s.run.toNat + 1 = 62 ∨ last = true
    · rw [pixelDone_flushed hp hc]
      exact h.same rfl rfl
    · rw [pixelDone_counted hp hc]
      exact h.same rfl rfl
  · rw [pixelDone_differing hp]
    exact h.store rfl rfl

theorem pixelDone_prev (p : Pixel) (last : Bool) (s : State) : (pixelDone p last s).prev = p := rfl

theorem pixelDone_op (p : Pixel) (last : Bool) (s : State) : (pixelDone p last s).op =
    { s.op with outPos := s.op.outPos + BitVec.ofNat 32 (bytesOfChunks (pixelChunks p last s)).length } := rfl

theorem word_succ {x : Word} (h : x.toNat + 1 < 2 ^ 32) : (x + 1).toNat = x.toNat + 1 := by
  rw [BitVec.toNat_add]
  exact Nat.mod_eq_of_lt h

theorem word_add {x : Word} {n : Nat} (h : x.toNat + n < 2 ^ 32) : (x + BitVec.ofNat 32 n).toNat = x.toNat + n := by
  rw [BitVec.toNat_add, BitVec.toNat_ofNat, Nat.mod_eq_of_lt (a := n) (by omega), Nat.mod_eq_of_lt h]

/-- The state after a pixel keeps the encode in order. -/
theorem afterPixel_phase {s : State} {p : Pixel} {m : Memory} {d : Nat} (hE : EncodeOk s)
    (hlt : s.op.pix.toNat < s.op.npix.toNat) (hr : s.run.toNat ≤ 61) (ho1 : 14 ≤ s.op.outPos.toNat)
    (ho2 : s.op.outPos.toNat + (if s.run.toNat = 0 then 0 else 1) ≤ 14 + s.op.pix.toNat * (s.op.ch.toNat + 1))
    (hpa : s.op.ch = 3 → p.a = 255) :
    PhaseOk (afterPixel (accessed (pixelDone p (isLastPixel s) s) m d
      (reachAfter s.reach s.op.outPos.toNat (bytesOfChunks (pixelChunks p (isLastPixel s) s)).length))) := by
  obtain ⟨f1, f2, f3, f4, f5, f6⟩ := hE.checked.bounds
  have ho := hE.output
  have hin := hE.input
  have hcap := s.op.dstCap.isLt
  have hsrc := s.op.srcLen.isLt
  have hmul : (s.op.pix.toNat + 1) * (s.op.ch.toNat + 1) ≤ s.op.npix.toNat * (s.op.ch.toNat + 1) :=
    Nat.mul_le_mul_right _ (by omega)
  have hmul' : s.op.ch.toNat * (s.op.pix.toNat + 1) ≤ s.op.ch.toNat * s.op.npix.toNat := Nat.mul_le_mul_left _ (by omega)
  rw [Nat.mul_comm s.op.npix.toNat] at hin
  rw [Nat.add_mul] at hmul
  have hl6 := pixelChunks_length p (isLastPixel s) s
  have hbud := pixelChunks_budget (p := p) (last := isLastPixel s) (s := s) f3 fun h3 => by
    have h3' : s.op.ch = 3 := BitVec.eq_of_toNat_eq h3
    rw [hpa h3', hE.opaqueAlpha h3']
  have hrun := pixelDone_run_le (p := p) (last := isLastPixel s) hr
  have hcod := pixelDone_codec (p := p) (last := isLastPixel s) hE.codec
  have hpix := word_succ (x := s.op.pix) (by omega)
  have hoN : s.op.outPos.toNat ≤ 14 + s.op.pix.toNat * (s.op.ch.toNat + 1) := by split at ho2 <;> omega
  generalize hn : (bytesOfChunks (pixelChunks p (isLastPixel s) s)).length = n at *
  have hpos := word_add (x := s.op.outPos) (n := n) (by omega)
  generalize hq : pixelDone p (isLastPixel s) s = q at *
  have hqop : q.op = { s.op with outPos := s.op.outPos + BitVec.ofNat 32 n } := by rw [← hq, pixelDone_op, hn]
  have hqp : q.prev = p := by rw [← hq, pixelDone_prev]
  generalize hr' : reachAfter s.reach s.op.outPos.toNat n = r
  have hr'' : r = s.op.outPos.toNat + n := by
    rw [← hr', hE.reached, reachAfter]
    split <;> omega
  generalize ht : afterPixel (accessed q m d r) = t
  have hop : t.op = { s.op with
      inPos := BitVec.ofNat 32 (s.op.ch.toNat * (s.op.pix + 1).toNat)
      outPos := s.op.outPos + BitVec.ofNat 32 n, pix := s.op.pix + 1 } := by
    rw [← ht, afterPixel_op, accessed_op, hqop]
  have htr : t.run = q.run := by rw [← ht]; rfl
  have hin' : (BitVec.ofNat 32 (s.op.ch.toNat * (s.op.pix + 1).toNat)).toNat = s.op.ch.toNat * (s.op.pix + 1).toNat := by
    rw [BitVec.toNat_ofNat, hpix]
    exact Nat.mod_eq_of_lt (by omega)
  have hE' : EncodeOk t := hE.moved hop (hcod.same (by rw [← ht]; rfl) (by rw [← ht]; rfl))
    (by rw [← ht]; show s.op.ch = 3 → q.prev.a = 255; rw [hqp]; exact hpa) (by rw [← ht, hpos, ← hr'']; rfl)
  have hfs : t.fsm = if s.op.pix.toNat + 1 < s.op.npix.toNat then .encPix else .encFtr := by
    rw [← ht, afterPixel_fsm, accessed_op, hqop]
    show (if (s.op.pix + 1).toNat < s.op.npix.toNat then Fsm.encPix else Fsm.encFtr) = _
    rw [hpix]
  by_cases hnext : s.op.pix.toNat + 1 < s.op.npix.toNat
  · rw [if_pos hnext] at hfs
    rw [PhaseOk, hfs]
    refine ⟨hE', ?_, by rw [htr]; exact hrun.1, ?_, ?_, ?_⟩
    · rw [hop]
      show (s.op.pix + 1).toNat < s.op.npix.toNat
      rw [hpix]
      exact hnext
    · rw [hop]
      exact hin'
    · rw [hop, hpos]
      omega
    · rw [hop, hpos, htr]
      show s.op.outPos.toNat + n + _ ≤ 14 + (s.op.pix + 1).toNat * (s.op.ch.toNat + 1)
      rw [hpix, Nat.add_mul]
      omega
  · rw [if_neg hnext] at hfs
    have hnp : s.op.npix.toNat = s.op.pix.toNat + 1 := by omega
    have hlast : isLastPixel s = true := decide_eq_true hnp.symm
    rw [PhaseOk, hfs]
    refine ⟨hE', ?_, by rw [htr]; exact hrun.2 hlast, ?_, ?_⟩
    · rw [hop]
      show (s.op.pix + 1).toNat = s.op.npix.toNat
      omega
    · rw [hop, hpos]
      omega
    · rw [hop, hpos]
      show s.op.outPos.toNat + n ≤ 14 + s.op.npix.toNat * (s.op.ch.toNat + 1)
      rw [hnp, Nat.add_mul]
      omega

theorem afterPixel_status (p : Pixel) (last : Bool) (s : State) (m : Memory) (d r : Nat) :
    SameStatus s (afterPixel (accessed (pixelDone p last s) m d r)) := by
  constructor <;> simp [pixelDone]

theorem pixelOfBytes_alpha {bs : List Byte} (h : bs.length = 3) : (pixelOfBytes bs).a = 255 := by
  rcases bs with _ | ⟨_, _ | ⟨_, _ | ⟨_, _ | ⟨_, _⟩⟩⟩⟩ <;> simp at h
  rfl

theorem encPixel_inv {s t : State} (hI : Inv s) (hf : s.fsm = .encPix) (h : encPixel s = .next t) : Inv t := by
  have hb := hI.busy_of hf (by decide)
  have hph := hI.phase
  rw [PhaseOk, hf] at hph
  obtain ⟨hE, a, b, c, d, e⟩ := hph
  obtain ⟨f1, f2, f3, f4, f5, f6⟩ := hE.checked.bounds
  have ho := hE.output
  have hcap := s.op.dstCap.isLt
  have hmul : (s.op.pix.toNat + 1) * (s.op.ch.toNat + 1) ≤ s.op.npix.toNat * (s.op.ch.toNat + 1) :=
    Nat.mul_le_mul_right _ (by omega)
  rw [Nat.add_mul] at hmul
  have hoN : s.op.outPos.toNat ≤ 14 + s.op.pix.toNat * (s.op.ch.toNat + 1) := by split at e <;> omega
  rw [encPixel_eq b (by omega)] at h
  rcases Acc.finish_eq_next.1 h with ⟨bs, s1, h1, h2⟩ | ⟨ee, s1, h1, h2⟩
  · obtain ⟨e1, hbl, -⟩ := readBytes_ok h1
    rw [e1] at h2
    have hl6 := pixelChunks_length (pixelOfBytes bs) (isLastPixel s) s
    rcases writeBytes_finish_next (s := accessed s s.mem s1.draws s.reach) hI.mem h2 with
      ⟨dd, ht⟩ | ⟨m, dd, r, hm, ht, -⟩
    · have hp := afterPixel_phase (p := pixelOfBytes bs)
        (m := Memory.store (bytesOfChunks (pixelChunks (pixelOfBytes bs) (isLastPixel s) s))
          (s.op.dstBase.toNat + s.op.outPos.toNat) s.mem) (d := dd) hE a b d e
        (fun h3 => pixelOfBytes_alpha (by rw [hbl, h3]; rfl))
      have hwm := Memory.wf_store (bytesOfChunks (pixelChunks (pixelOfBytes bs) (isLastPixel s) s)) hI.mem
        (a := s.op.dstBase.toNat + s.op.outPos.toNat) (by show _ ≤ 2 ^ 32; omega)
      rw [(neutral_pixelDone _ _).access, (neutral_pixelDone _ _).access, accessed_accessed] at ht
      simp only [accessed_op, accessed_mem, accessed_reach] at ht
      rw [← ht] at hp
      have hst := afterPixel_status (pixelOfBytes bs) (isLastPixel s) s
        (Memory.store (bytesOfChunks (pixelChunks (pixelOfBytes bs) (isLastPixel s) s))
          (s.op.dstBase.toNat + s.op.outPos.toNat) s.mem) dd
        (reachAfter s.reach s.op.outPos.toNat (bytesOfChunks (pixelChunks (pixelOfBytes bs) (isLastPixel s) s)).length)
      rw [← ht] at hst
      have htm : t.mem = Memory.store (bytesOfChunks (pixelChunks (pixelOfBytes bs) (isLastPixel s) s))
          (s.op.dstBase.toNat + s.op.outPos.toNat) s.mem := by rw [ht]; rfl
      refine hI.running hb hst (by rw [htm]; exact hwm) ?_ hp
      rw [ht, afterPixel_fsm]
      split <;> decide
    · rw [ht]
      exact raise_accessed_inv hm (hI.outLen_zero hb) _ _ _
  · rw [h2, (readBytes_raised h1).2]
    exact raise_accessed_inv hI.mem (hI.outLen_zero hb) _ _ _

theorem encFooter_inv {s t : State} (hI : Inv s) (hf : s.fsm = .encFtr) (h : encFooter s = .next t) : Inv t := by
  have hb := hI.busy_of hf (by decide)
  have hph := hI.phase
  rw [PhaseOk, hf] at hph
  obtain ⟨hE, a, b, c, d⟩ := hph
  obtain ⟨f1, f2, f3, f4, f5, f6⟩ := hE.checked.bounds
  have ho := hE.output
  have hcap := s.op.dstCap.isLt
  rw [encFooter_eq (by omega)] at h
  rcases writeBytes_finish_next hI.mem h with ⟨dd, ht⟩ | ⟨m, dd, r, hm, ht, -⟩
  · have hm := Memory.wf_store Config.footer hI.mem (a := s.op.dstBase.toNat + s.op.outPos.toNat)
      (by rw [footer_length]; show _ ≤ 2 ^ 32; omega)
    have he := hI.err_false hb
    rw [ht]
    exact complete_inv (s := advanceOut 8 (accessed s _ dd _)) hm he _
  · rw [ht]
    exact raise_accessed_inv hm (hI.outLen_zero hb) _ _ _

/-! ### The phases of a decode -/

theorem DecodeOk.fits {s : State} (h : DecodeOk s) (hp : s.op.pix.toNat ≤ s.op.npix.toNat) : OutputFits s.op :=
  ⟨h.checked.channels, h.checked.bounds.2.1, h.output, h.checked.bounds.2.2.2.2.2, hp⟩

theorem DecodeOk.accessed {s : State} (h : DecodeOk s) (d : Nat) : DecodeOk (accessed s s.mem d s.reach) :=
  ⟨h.mode, h.checked, h.output, h.codec.same rfl rfl, h.cursor, h.runUnused, h.reached⟩

theorem decodeHeader_ok {bs rest : List Byte} {i : Instr} (h : decodeHeader bs = .ok (i, rest)) :
    ∃ w ht ch cs, i = .header w ht ch cs := by
  rw [decodeHeader] at h
  split at h
  · cases h
  split at h
  · unfold decodeHeaderFields at h
    split at h
    · cases h
      exact ⟨_, _, _, _, rfl⟩
    · cases h
  · cases h

theorem decodeFooter_ok {bs rest : List Byte} {i : Instr} (h : decodeFooter bs = .ok (i, rest)) : i = .footer := by
  rw [decodeFooter] at h
  split at h
  · cases h
  split at h <;> cases h
  rfl

/-- What a decoded chunk runs. -/
theorem exec_chunk {bs rest : List Byte} {i : Instr} (h : decodeChunk bs = .ok (i, rest)) (s : State) :
    ∃ len p cnt, 1 ≤ len ∧ exec i s = decodeTail len p cnt s := by
  cases bs with
  | nil => cases h
  | cons t bs =>
    rw [decodeChunk] at h
    split at h
    · unfold decodeRgb at h
      split at h <;> cases h
      exact ⟨4, _, _, by omega, rfl⟩
    split at h
    · unfold decodeRgba at h
      split at h <;> cases h
      exact ⟨5, _, _, by omega, rfl⟩
    split at h
    · cases h
      exact ⟨1, _, _, by omega, rfl⟩
    split at h
    · cases h
      exact ⟨1, _, _, by omega, rfl⟩
    split at h
    · unfold decodeLuma at h
      split at h <;> cases h
      exact ⟨2, _, _, by omega, rfl⟩
    · cases h
      exact ⟨1, _, _, by omega, rfl⟩

theorem execHeader_inv {s t : State} {w ht : Word} {ch cs : Byte} (hI : Inv s) (hf : s.fsm = .decCheck)
    (hw : windowsIllegal s.op = false) (hl : 22 ≤ s.op.srcLen.toNat) (h : execHeader w ht ch cs s = .next t) :
    Inv t := by
  have hb := hI.busy_of hf (by decide)
  have hph := hI.phase
  rw [PhaseOk, hf] at hph
  obtain ⟨a, b, c, d, e⟩ := hph
  rw [execHeader] at h
  split at h
  · cases h
    exact raise_inv hI.mem (hI.outLen_zero hb) _
  next he =>
  cases h
  refine hI.running hb ⟨rfl, rfl, rfl, rfl, rfl, rfl, rfl⟩ hI.mem (by simp) ?_
  rw [headerError] at he
  split at he
  · cases he
  next h1 =>
  split at he
  · cases he
  next h2 =>
  split at he
  · cases he
  next h3 =>
  have hck : Checked (headerLatches w ht ch cs s.op) :=
    ⟨hw, by show dimsOk w ht = true; simpa using h1, channelsOk_iff.1 (by show channelsOk ch = true; simpa using h2), rfl⟩
  exact ⟨⟨a, hck, Nat.le_of_not_lt h3, codecOk_init rfl rfl, ⟨Nat.le_refl 14, Nat.le_trans (Nat.le_add_right 14 8) hl⟩,
    rfl, e⟩, hck.bounds.1⟩

theorem decCheck_inv {s t : State} (hI : Inv s) (hf : s.fsm = .decCheck) (h : decCheck exec s = .next t) : Inv t := by
  have hb := hI.busy_of hf (by decide)
  have ho := hI.outLen_zero hb
  have hacc : ∀ d, Inv (accessed s s.mem d s.reach) := fun d => by
    have hph := hI.phase
    rw [PhaseOk, hf] at hph
    refine hI.running hb ⟨rfl, rfl, rfl, rfl, rfl, rfl, rfl⟩ hI.mem (by rw [accessed_fsm, hf]; decide) ?_
    rw [PhaseOk, accessed_fsm, hf]
    exact hph
  rw [decCheck, checkWindows] at h
  split at h
  · cases h
    exact raise_inv hI.mem ho _
  next hw =>
  split at h
  · cases h
  split at h
  · cases h
    exact raise_inv hI.mem ho _
  next hlen =>
  rcases Acc.finish_eq_next.1 h with ⟨mg, s1, h1, h2⟩ | ⟨e, s1, h1, h2⟩
  · rw [(readBytes_ok h1).1] at h2
    split at h2
    · cases h2
      exact raise_accessed_inv hI.mem ho _ _ _
    · rcases Acc.finish_eq_next.1 h2 with ⟨bs, s2, h3, h4⟩ | ⟨e, s2, h3, h4⟩
      · rw [(readBytes_ok h3).1, accessed_accessed, accessed_mem, accessed_reach] at h4
        unfold runDecoded at h4
        split at h4
        · next i rest hd =>
          obtain ⟨w, ht, ch, cs, rfl⟩ := decodeHeader_ok hd
          exact execHeader_inv (hacc s2.draws) hf (by simpa using hw) (Nat.le_of_not_lt hlen) h4
        · cases h4
          exact raise_accessed_inv hI.mem ho _ _ _
      · rw [h4, (readBytes_raised h3).2]
        exact raise_accessed_inv (s := accessed s s.mem s1.draws s.reach) hI.mem ho _ _ _
  · rw [h2, (readBytes_raised h1).2]
    exact raise_accessed_inv hI.mem ho _ _ _

/-- A chunk keeps the decode in order. -/
theorem chunkEffect_phase {s t : State} {len cnt : Nat} {p : Pixel} (hD : DecodeOk s)
    (hlt : s.op.pix.toNat < s.op.npix.toNat) (hlen : s.op.inPos.toNat + len ≤ s.op.srcLen.toNat)
    (h : ChunkEffect s t len p cnt) (hr : t.reach = reachAfter s.reach (s.op.ch.toNat * s.op.pix.toNat)
      (s.op.ch.toNat * min cnt (s.op.npix.toNat - s.op.pix.toNat))) : PhaseOk t := by
  obtain ⟨f1, f2, f3, f4, f5, f6⟩ := hD.checked.bounds
  have hsrc := s.op.srcLen.isLt
  have hop : t.op = { s.op with
      inPos := BitVec.ofNat 32 (s.op.inPos.toNat + len)
      pix := BitVec.ofNat 32 (min (s.op.pix.toNat + cnt) s.op.npix.toNat) } := by rw [h.fields]
  have hin : (BitVec.ofNat 32 (s.op.inPos.toNat + len)).toNat = s.op.inPos.toNat + len := by
    rw [BitVec.toNat_ofNat]
    exact Nat.mod_eq_of_lt (by omega)
  have hpix : (BitVec.ofNat 32 (min (s.op.pix.toNat + cnt) s.op.npix.toNat)).toNat =
      min (s.op.pix.toNat + cnt) s.op.npix.toNat := by
    rw [BitVec.toNat_ofNat]
    exact Nat.mod_eq_of_lt (by omega)
  have hfs : t.fsm = if s.op.pix.toNat + cnt < s.op.npix.toNat then .decChunk else .decFtr := by rw [h.fields]
  have hreach : t.reach = s.op.ch.toNat * min (s.op.pix.toNat + cnt) s.op.npix.toNat := by
    rw [hr, hD.reached, reachAfter, ← Nat.mul_add,
      show s.op.pix.toNat + min cnt (s.op.npix.toNat - s.op.pix.toNat) =
        min (s.op.pix.toNat + cnt) s.op.npix.toNat by omega]
    have hle : s.op.ch.toNat * s.op.pix.toNat ≤ s.op.ch.toNat * min (s.op.pix.toNat + cnt) s.op.npix.toNat :=
      Nat.mul_le_mul_left _ (by omega)
    split
    · next h0 =>
      have hm0 : min cnt (s.op.npix.toNat - s.op.pix.toNat) = 0 := by
        rcases Nat.mul_eq_zero.1 h0 with h0 | h0
        · omega
        · exact h0
      rw [show min (s.op.pix.toNat + cnt) s.op.npix.toNat = s.op.pix.toNat by omega]
    · omega
  have hD' : DecodeOk t := by
    refine ⟨?_, ?_, ?_, hD.codec.store (by rw [h.fields]) (by rw [h.fields]), ?_, ?_, ?_⟩
    · rw [hop]; exact hD.mode
    · rw [hop]; exact hD.checked.moved _ _ _
    · rw [hop]; exact hD.output
    · rw [hop]
      show 14 ≤ (BitVec.ofNat 32 (s.op.inPos.toNat + len)).toNat ∧
        (BitVec.ofNat 32 (s.op.inPos.toNat + len)).toNat ≤ s.op.srcLen.toNat
      rw [hin]
      exact ⟨by have := hD.cursor.1; omega, hlen⟩
    · rw [h.fields]; exact hD.runUnused
    · rw [hop]
      show t.reach = s.op.ch.toNat * (BitVec.ofNat 32 _).toNat
      rw [hpix, hreach]
  by_cases hnext : s.op.pix.toNat + cnt < s.op.npix.toNat
  · rw [if_pos hnext] at hfs
    rw [PhaseOk, hfs]
    refine ⟨hD', ?_⟩
    rw [hop]
    show (BitVec.ofNat 32 _).toNat < s.op.npix.toNat
    omega
  · rw [if_neg hnext] at hfs
    rw [PhaseOk, hfs]
    refine ⟨hD', ?_⟩
    rw [hop]
    show (BitVec.ofNat 32 _).toNat = s.op.npix.toNat
    omega

theorem decodeTail_inv {s t : State} {len cnt : Nat} {p : Pixel} (hI : Inv s) (hf : s.fsm = .decChunk)
    (h : decodeTail len p cnt s = .next t) : Inv t := by
  have hb := hI.busy_of hf (by decide)
  have ho := hI.outLen_zero hb
  have hph := hI.phase
  rw [PhaseOk, hf] at hph
  obtain ⟨hD, hlt⟩ := hph
  rcases decodeTail_next (hD.fits (by omega)) hI.mem h with ⟨-, ht⟩ | ⟨m, d, r, ht, hm, -⟩ | ⟨hlen, he, hm, hr⟩
  · rw [ht]
    exact raise_inv hI.mem ho _
  · rw [ht]
    exact raise_accessed_inv hm ho _ _ _
  · refine hI.running hb ?_ hm ?_ (chunkEffect_phase hD hlt hlen he hr)
    · rw [he.fields]
      exact ⟨rfl, rfl, rfl, rfl, rfl, rfl, rfl⟩
    · rw [he.fields]
      show (if _ then Fsm.decChunk else Fsm.decFtr) ≠ _
      split <;> decide

theorem inv_accessed_decChunk {s : State} (hI : Inv s) (hf : s.fsm = .decChunk) (d : Nat) :
    Inv (accessed s s.mem d s.reach) := by
  have hph := hI.phase
  rw [PhaseOk, hf] at hph
  refine hI.running (hI.busy_of hf (by decide)) ⟨rfl, rfl, rfl, rfl, rfl, rfl, rfl⟩ hI.mem
    (by rw [accessed_fsm, hf]; decide) ?_
  rw [PhaseOk, accessed_fsm, hf]
  exact ⟨hph.1.accessed d, hph.2⟩

theorem decChunk_inv {s t : State} (hI : Inv s) (hf : s.fsm = .decChunk) (h : decChunk exec s = .next t) : Inv t := by
  have hb := hI.busy_of hf (by decide)
  have ho := hI.outLen_zero hb
  rw [decChunk] at h
  split at h
  · cases h
    exact raise_inv hI.mem ho _
  rcases Acc.finish_eq_next.1 h with ⟨tag, s1, h1, h2⟩ | ⟨e, s1, h1, h2⟩
  · rw [(readIn_ok h1).1] at h2
    split at h2
    · cases h2
      exact raise_accessed_inv hI.mem ho _ _ _
    rcases Acc.finish_eq_next.1 h2 with ⟨bs, s2, h3, h4⟩ | ⟨e, s2, h3, h4⟩
    · rw [(readBytes_ok h3).1, accessed_accessed, accessed_mem, accessed_reach] at h4
      unfold runDecoded at h4
      split at h4
      · next i rest hd =>
        obtain ⟨len, p, cnt, -, hx⟩ := exec_chunk hd (accessed s s.mem s2.draws s.reach)
        rw [hx] at h4
        exact decodeTail_inv (inv_accessed_decChunk hI hf s2.draws) hf h4
      · cases h4
        exact raise_accessed_inv hI.mem ho _ _ _
    · rw [h4, (readBytes_raised h3).2]
      exact raise_accessed_inv (s := accessed s s.mem s1.draws s.reach) hI.mem ho _ _ _
  · rw [h2, (readIn_raised h1).2]
    exact raise_accessed_inv hI.mem ho _ _ _

theorem execFooter_inv {s t : State} (hm : Memory.wf s.mem) (ho : s.outLen = 0) (he : s.err = false)
    (h : execFooter s = .next t) : Inv t := by
  rw [execFooter] at h
  split at h
  · cases h
    exact raise_inv hm ho _
  split at h
  · cases h
    exact raise_inv hm ho _
  · cases h
    exact complete_inv (s := writeResult s) hm he _

theorem decFooter_inv {s t : State} (hI : Inv s) (hf : s.fsm = .decFtr) (h : decFooter exec s = .next t) : Inv t := by
  have hb := hI.busy_of hf (by decide)
  have ho := hI.outLen_zero hb
  rw [decFooter] at h
  split at h
  · cases h
    exact raise_inv hI.mem ho _
  rcases Acc.finish_eq_next.1 h with ⟨bs, s1, h1, h2⟩ | ⟨e, s1, h1, h2⟩
  · rw [(readBytes_ok h1).1] at h2
    unfold runDecoded at h2
    split at h2
    · next i rest hd =>
      rw [decodeFooter_ok hd] at h2
      exact execFooter_inv (s := accessed s s.mem s1.draws s.reach) hI.mem ho (hI.err_false hb) h2
    · cases h2
      exact raise_accessed_inv hI.mem ho _ _ _
  · rw [h2, (readBytes_raised h1).2]
    exact raise_accessed_inv hI.mem ho _ _ _

end Sys2Proof.Machine
end

