-- ==== Sys2Proof/Laws/PerInstr.lean ====
section
/-! SUPPORT. Statements made per instruction: decoding an encoded well-formed instruction gives it back. -/

namespace Sys2Proof.Laws.RoundTrip

/-- Decoding what the encoder writes for a well-formed instruction gives the instruction, with every operand. -/
def Statement (i : Instr) : Prop := i.WellFormed → decode (encode i) = .ok i

theorem rgb (r g b : Byte) : Statement (.rgb r g b) := fun _ => rfl

theorem rgba (r g b a : Byte) : Statement (.rgba r g b a) := fun _ => rfl

theorem index (idx : Fin 64) : Statement (.index idx) := fun _ => by
  obtain ⟨h1, h2, h3⟩ := indexByte_tag idx
  rw [encode, decode, decodeChunk, if_neg h1, if_neg h2, if_pos h3, slotField_indexByte, instrOf]

theorem diff (dr dg db : Int) : Statement (.diff dr dg db) := fun h => by
  obtain ⟨hr, hg, hb⟩ := of_decide_eq_true h
  rw [encode, decode, decodeChunk_diffByte hr hg hb, instrOf]

theorem luma (dg drg dbg : Int) : Statement (.luma dg drg dbg) := fun h => by
  obtain ⟨hg, hr, hb⟩ := of_decide_eq_true h
  obtain ⟨h1, h2, h3, h4⟩ := lumaByte0_tag hg
  obtain ⟨h5, h6⟩ := lumaByte1_fields hr hb
  rw [encode, decode, decodeChunk, if_neg h1, if_neg h2, if_neg (by rw [h3]; decide), if_neg (by rw [h3]; decide),
    if_pos h3, decodeLuma, h4, h5, h6, instrOf]

theorem run (len : Nat) : Statement (.run len) := fun h => by
  rw [encode, decode, decodeChunk_runByte (of_decide_eq_true h), instrOf]

theorem header (w h : Word) (ch cs : Byte) : Statement (.header w h ch cs) := fun _ => by
  have hd : decode (encode (.header w h ch cs)) = .ok (.header
      (be32 (w.extractLsb' 24 8) (w.extractLsb' 16 8) (w.extractLsb' 8 8) (w.extractLsb' 0 8))
      (be32 (h.extractLsb' 24 8) (h.extractLsb' 16 8) (h.extractLsb' 8 8) (h.extractLsb' 0 8)) ch cs) := rfl
  rw [hd, be32_be32Bytes, be32_be32Bytes]

theorem footer : Statement .footer := fun _ => rfl

theorem startEncode (irqEn : Bool) : Statement (.startEncode irqEn) := fun _ => by cases irqEn <;> rfl

theorem startDecode (irqEn : Bool) : Statement (.startDecode irqEn) := fun _ => by cases irqEn <;> rfl

theorem setIrqEn (mode : Mode) (irqEn : Bool) : Statement (.setIrqEn mode irqEn) := fun _ => by
  cases mode <;> cases irqEn <;> rfl

theorem clearStatus (done err : Bool) : Statement (.clearStatus done err) := fun _ => by
  cases done <;> cases err <;> rfl

end Sys2Proof.Laws.RoundTrip
end

