-- ==== Sys2Proof/Tests/Slice0.lean ====
section
/-! SUPPORT. The model's own tests: ill-formed terms that WellFormed refuses, words written out from the spec's
encodings, one step of each instruction with the result the spec gives, and for each statement with hypotheses a
concrete state that meets them. -/

namespace Sys2Proof.Tests

open Sys2Proof Sys2Proof.Machine

/-! ### Ill-formed terms (rule R107) -/

theorem test_ill_formed_diff_red : (Instr.diff (-3) 0 0).wellFormed = false := by decide
theorem test_ill_formed_diff_green : (Instr.diff 0 2 0).wellFormed = false := by decide
theorem test_ill_formed_diff_blue : (Instr.diff 0 0 (-3)).wellFormed = false := by decide
theorem test_ill_formed_luma_green : (Instr.luma (-33) 0 0).wellFormed = false := by decide
theorem test_ill_formed_luma_red : (Instr.luma 0 8 0).wellFormed = false := by decide
theorem test_ill_formed_luma_blue : (Instr.luma 0 0 (-9)).wellFormed = false := by decide
theorem test_ill_formed_run_zero : (Instr.run 0).wellFormed = false := by decide
theorem test_ill_formed_run_63 : (Instr.run 63).wellFormed = false := by decide

/-! ### Words written out from the encodings of 30_encoding.md -/

theorem test_word_rgb : decode (.chunk [0b11111110, 0x05, 0xC8, 0x07]) = .ok (.rgb 5 200 7) := by decide
theorem test_word_rgba : decode (.chunk [0b11111111, 0x0A, 0x14, 0x1E, 0x28]) = .ok (.rgba 10 20 30 40) := by decide
theorem test_word_index : decode (.chunk [0b00001100]) = .ok (.index 12) := by decide
theorem test_word_diff_low : decode (.chunk [0b01000000]) = .ok (.diff (-2) (-2) (-2)) := by decide
theorem test_word_diff : decode (.chunk [0b01110101]) = .ok (.diff 1 (-1) (-1)) := by decide
theorem test_word_luma : decode (.chunk [0b10100001, 0b10101000]) = .ok (.luma 1 2 0) := by decide
theorem test_word_luma_low : decode (.chunk [0b10000000, 0b00100110]) = .ok (.luma (-32) (-6) (-2)) := by decide
theorem test_word_run : decode (.chunk [0b11100101]) = .ok (.run 38) := by decide
theorem test_word_run_max : decode (.chunk [0b11111101]) = .ok (.run 62) := by decide
theorem test_word_header : decode (.header [0x71, 0x6F, 0x69, 0x66, 0, 0, 0, 2, 0, 0, 0, 1, 3, 0]) =
    .ok (.header 2 1 3 0) := by decide
theorem test_word_footer : decode (.footer [0, 0, 0, 0, 0, 0, 0, 1]) = .ok .footer := by decide
theorem test_word_bad_magic : decode (.header [0x71, 0x6F, 0x69, 0x46, 0, 0, 0, 2, 0, 0, 0, 1, 3, 0]) =
    .error .badMagic := by decide
theorem test_word_start_encode : decode (.regWrite 0x04 0x00000005) = .ok (.startEncode true) := by decide
theorem test_word_start_decode : decode (.regWrite 0x04 0xFFFFFFFB) = .ok (.startDecode false) := by decide
theorem test_word_set_irq_en : decode (.regWrite 0x04 0x00000006) = .ok (.setIrqEn .decode true) := by decide
theorem test_word_clear_status : decode (.regWrite 0x08 0xFFFFFFFD) = .ok (.clearStatus false true) := by decide
theorem test_word_no_command : decode (.regWrite 0x10 1) = .error .notACommand := by decide

/-! ### Small states -/

/-- A decode of a 64 x 1, four-channel image in control state `fsm`: `len` stream bytes, the cursor at `pos`, `pix`
pixels decoded, `bs` in memory at the cursor. -/
def decodeState (fsm : Fsm) (len pos pix : Word) (bs : List Byte) : State :=
  placeStream fsm (placeLatches Config.resetParams len pos pix) bs State.reset

/-- The same with PREV given. -/
def decodeFrom (prev : Pixel) (len : Word) (bs : List Byte) : State :=
  { decodeState .decChunk len 14 0 bs with prev := prev }

/-- An encode of a 2 x 1, three-channel image (SRC at 0x1000, DST at 0x2000, DST_CAP = 30) in control state `fsm`:
`pix` pixels encoded, `out` bytes emitted, `bs` the input. -/
def encodeState (fsm : Fsm) (pix out : Word) (bs : List Byte) : State :=
  { initCodec State.reset with
    busy := true, fsm := fsm, mem := Memory.store bs 0x1000 [], reach := out.toNat
    op := { mode := .encode, w := 2, h := 1, ch := 3, cs := 0, npix := 2, srcBase := 0x1000, srcLen := 6,
            dstBase := 0x2000, dstCap := 30, inPos := BitVec.ofNat 32 (3 * pix.toNat), outPos := out, pix := pix } }

/-- Register values for the 2 x 1 encode, at rest. -/
def configured : State :=
  { State.reset with
    width := 2, height := 1, channels := 3, srcBase := 0x1000, srcLen := 6, dstBase := 0x2000, dstCap := 30 }

/-- The answer's next state, looked at through `f`. -/
def seen {α : Type} (f : State → α) : Answer → Option α
  | .next s => some (f s)
  | .fault _ => none
  | .refused _ => none

/-! ### One step of each instruction (results from 95_test_vectors.md and the rules named) -/

/-- L2: RGB keeps PREV.a. -/
theorem test_step_rgb : seen (fun t => (t.prev, t.op.inPos, t.op.pix)) (exec (.rgb 5 200 7) (decodeFrom ⟨1, 2, 3, 40⟩ 27 [])) =
    some (⟨5, 200, 7, 40⟩, 18, 1) := by decide

/-- L2.4: RGBA stores (10,20,30,40) in slot 12 and writes its four bytes. -/
theorem test_step_rgba : seen (fun t => (t.cache.get 12, Memory.read t.mem 0x1000, Memory.read t.mem 0x1003, t.op.inPos))
    (exec (.rgba 10 20 30 40) (decodeFrom ⟨0, 0, 0, 255⟩ 27 [])) = some (⟨10, 20, 30, 40⟩, 10, 40, 19) := by decide

/-- L2.4: an untouched slot holds (0,0,0,255), which is stored at slot 53. -/
theorem test_step_index : seen (fun t => (t.prev, t.cache.get 53)) (exec (.index 16) (decodeFrom ⟨10, 20, 30, 40⟩ 27 [])) =
    some (⟨0, 0, 0, 255⟩, ⟨0, 0, 0, 255⟩) := by decide

/-- L2: chunk 0x75 on PREV = (255,0,128,255) gives (0,255,127,255). -/
theorem test_step_diff_wraps : seen (fun t => t.prev) (exec (.diff 1 (-1) (-1)) (decodeFrom ⟨255, 0, 128, 255⟩ 27 [])) =
    some ⟨0, 255, 127, 255⟩ := by decide

/-- L2: chunk 0x40 on PREV = (10,20,30,40) gives (8,18,28,40). -/
theorem test_step_diff_keeps_alpha : seen (fun t => t.prev) (exec (.diff (-2) (-2) (-2)) (decodeFrom ⟨10, 20, 30, 40⟩ 27 [])) =
    some ⟨8, 18, 28, 40⟩ := by decide

/-- L1 X7: chunk 80 26 on PREV = (20,210,15,255) gives (238,178,237,255). -/
theorem test_step_luma : seen (fun t => (t.prev, t.op.inPos)) (exec (.luma (-32) (-6) (-2)) (decodeFrom ⟨20, 210, 15, 255⟩ 27 [])) =
    some (⟨238, 178, 237, 255⟩, 16) := by decide

/-- R204: a run of 3 writes three copies of PREV. -/
theorem test_step_run : seen (fun t => (t.op.pix, Memory.read t.mem 0x1008, Memory.read t.mem 0x100C, t.fsm))
    (exec (.run 3) (decodeFrom ⟨9, 8, 7, 6⟩ 27 [])) = some (3, 9, 0, .decChunk) := by decide

/-- R205: the excess of a run over the pixels left is dropped. -/
theorem test_step_run_excess : seen (fun t => (t.op.pix, t.fsm)) (exec (.run 62) (decodeState .decChunk 27 14 60 [])) =
    some (64, .decFtr) := by decide

/-- L2.2: H(2,1,4,0) with DST_CAP = 7 is OutputOverflow. -/
theorem test_step_header_overflow :
    seen (fun t => (t.err, t.errCode)) (exec (.header 2 1 4 0) { decodeState .decCheck 22 0 0 [] with
      op := { placeLatches Config.resetParams 22 0 0 with dstCap := 7 } }) = some (true, 7) := by decide

/-- L2.2: w = 0 and ch = 5 is InvalidDimensions, not InvalidChannelCount. -/
theorem test_step_header_priority :
    seen (fun t => (t.err, t.errCode)) (exec (.header 0 1 5 0) (decodeState .decCheck 22 0 0 [])) = some (true, 1) := by
  decide

/-- R216, R218, R233: the footer writes the result registers. -/
theorem test_step_footer : seen (fun t => (t.done, t.busy, t.width, t.channels, t.outLen))
    (exec .footer (decodeState .decFtr 22 14 64 [])) = some (true, false, 64, 4, 256) := by decide

/-- R215: a byte after the footer is BadFooter. -/
theorem test_step_footer_not_last : seen (fun t => (t.err, t.errCode)) (exec .footer (decodeState .decFtr 23 14 64 [])) =
    some (true, 6) := by decide

/-- R231: START latches the configuration. -/
theorem test_step_start_encode : seen (fun t => (t.busy, t.fsm, t.op.npix, t.op.srcLen, t.irqEn))
    (exec (.startEncode true) configured) = some (true, .encCheck, 2, 6, true) := by decide

/-- R231: a decode does not latch WIDTH. -/
theorem test_step_start_decode : seen (fun t => (t.busy, t.fsm, t.op.w, t.op.dstCap, t.ctrlMode))
    (exec (.startDecode false) configured) = some (true, .decCheck, 0, 30, .decode) := by decide

/-- R235: MODE is taken only while BUSY = 0. -/
theorem test_step_set_irq_en : seen (fun t => (t.irqEn, t.ctrlMode)) (exec (.setIrqEn .encode true) (decodeFrom ⟨0, 0, 0, 255⟩ 27 [])) =
    some (true, .decode) := by decide

/-- R234: ERR cleared, ERROR.CODE kept. -/
theorem test_step_clear_status :
    seen (fun t => (t.done, t.err, t.errCode)) (exec (.clearStatus false true) { State.reset with err := true, errCode := 5 }) =
      some (false, false, 5) := by decide

/-- L1 X1: the first pixel (10,10,10) of the 2 x 1 example is LUMA AA 88. -/
theorem test_encode_luma : seen (fun t => (Memory.read t.mem 0x200E, Memory.read t.mem 0x200F, t.op.outPos, t.fsm))
    (step (encodeState .encPix 0 14 [10, 10, 10, 11, 11, 11])) = some (0xAA, 0x88, 16, .encPix) := by decide

/-- L1 X1: the second pixel (11,11,11) is DIFF 7F. -/
theorem test_encode_diff : seen (fun t => (Memory.read t.mem 0x2010, t.op.outPos, t.fsm))
    (step { encodeState .encPix 1 16 [10, 10, 10, 11, 11, 11] with prev := ⟨10, 10, 10, 255⟩ }) =
      some (0x7F, 17, .encFtr) := by decide

/-- L2.1: two zero pixels are one run of 2, C1. -/
theorem test_encode_run : seen (fun t => (Memory.read t.mem 0x200E, t.run))
    (step { encodeState .encPix 1 14 [] with run := 1 }) = some (0xC1, 0) := by decide

/-! ### Fetching an instruction of the opcode table as the first step -/

theorem test_fetch_rgb : step (State.reset.withFetchWord 32 0x07C805FE) =
    exec (.rgb 5 200 7) (State.reset.withFetchWord 32 0x07C805FE) := by rfl

theorem test_table_words : decodeTableWord 8 0xC0 = some (.run 1) ∧ decodeTableWord 32 3 = some (.startDecode false) ∧
    decodeTableWord 64 0x0100000000000000 = some .footer ∧ decodeTableWord 64 0x0000000600000008 = some (.clearStatus true true) ∧
    decodeTableWord 112 0x00030100000002000000_66696F71 = some (.header 2 1 3 0) := by decide

/-! ### Witnesses: states and operands that meet the hypotheses of the statements -/

/-- A chunk state whose cursor is at offset 14 of 27 stream bytes. -/
def chunkAt (bs : List Byte) : State := decodeState .decChunk 27 14 0 bs

/-- `s` with host actions pending. -/
def hosted (q : List HostOp) (s : State) : State := { s with hostQ := q }

/-- The latches of `chunkAt`, and what holds of them. -/
def chunkLatches : Latches := placeLatches Config.resetParams 27 14 0

theorem fits_chunkLatches : OutputFits chunkLatches := ⟨.inr rfl, by decide, by decide, by decide, by decide⟩

theorem checked_chunkLatches : Checked chunkLatches := ⟨by decide, by decide, .inr rfl, by decide⟩

theorem reads_chunkAt (bs : List Byte) : ReadsMemory (chunkAt bs) :=
  ⟨rfl, (by decide : chunkLatches.srcBase.toNat + chunkLatches.srcLen.toNat ≤ Config.addressSpace), rfl⟩
theorem reads_encodeState (f : Fsm) (bs : List Byte) : ReadsMemory (encodeState f 0 14 bs) :=
  ⟨rfl, (by decide : 0x1000 + 6 ≤ 4294967296), rfl⟩

theorem witness_DecodeOfEncode : (Instr.diff (-2) 0 1).WellFormed ∧ (Instr.luma (-32) (-8) 7).WellFormed ∧
    (Instr.luma 31 7 (-8)).WellFormed ∧ (Instr.run 1).WellFormed ∧ (Instr.run 62).WellFormed ∧
    (Instr.index 63).WellFormed ∧ Instr.footer.WellFormed := by decide

theorem witness_EncodeOfDecode : decodeChunk [0xC0, 0x07] = .ok (.run 1, [0x07]) ∧
    decodeHeader [0x71, 0x6F, 0x69, 0x66, 0, 0, 0, 2, 0, 0, 0, 1, 3, 0, 9] = .ok (.header 2 1 3 0, [9]) ∧
    decodeFooter [0, 0, 0, 0, 0, 0, 0, 1] = .ok (.footer, []) := by decide

theorem witness_OnlyMissingBytesRejectAChunk : decodeChunk [0xFE, 1, 2] = .error .short ∧
    [1, 2].length + 1 < chunkLength 0xFE ∧ decodeChunk [] = .error .short := by decide

theorem witness_BiasedFieldsAreBijections : (-2 : Int) ≤ -2 ∧ (1 : Int) ≤ 1 ∧ (-32 : Int) ≤ -32 ∧ (31 : Int) ≤ 31 ∧
    (-8 : Int) ≤ -8 ∧ (7 : Int) ≤ 7 ∧ 1 ≤ 1 ∧ 62 ≤ 62 := by decide

theorem witness_RunsExpansion : 1 ≤ 1 ∧ expandRuns 62 = [.run 62] ∧ expandRuns 63 = [.run 62, .run 1] ∧
    expandRuns 1 = [.run 1] := by decide

theorem witness_HashAtAnyWidth : 6 ≤ 6 ∧ pixelHash ⟨255, 255, 255, 255⟩ = 38 := by decide

theorem witness_PredictorRoundTrip_wrap8 : IsDelta .wrap8 0 255 1 ∧ IsDelta .wrap8 254 0 (-2) ∧
    IsDelta .wrap8 128 0 (-128) ∧ diffOk 1 (-2) 1 = true ∧ lumaOk (-38) (-32) (-34) = true := by
  refine ⟨?_, ?_, ?_, by decide, by decide⟩ <;> simp [IsDelta]

theorem witness_PredictorRoundTrip_wide : IsDelta .wide 0 255 (-255) ∧ IsDelta .wide 11 10 1 := by
  constructor <;> simp [IsDelta]

theorem witness_StepRunsStreamInstruction_chunk : let s := chunkAt [0x7F]
    s.hostQ = [] ∧ ReadsMemory s ∧ s.fsm = .decChunk ∧
      decodeChunk (srcBytes s s.op.inPos.toNat (s.op.srcLen.toNat - s.op.inPos.toNat)) =
        .ok (.diff 1 1 1, List.replicate 12 0) :=
  ⟨rfl, reads_chunkAt _, rfl, by decide⟩

theorem witness_StepRunsStreamInstruction_header :
    let s := decodeState .decCheck 22 0 0 [0x71, 0x6F, 0x69, 0x66, 0, 0, 0, 1, 0, 0, 0, 1, 4]
    s.hostQ = [] ∧ ReadsMemory s ∧ s.fsm = .decCheck ∧ windowsIllegal s.op = false ∧ windowsOverRegisters s = false ∧
      22 ≤ s.op.srcLen.toNat ∧ decodeHeader (srcBytes s 0 14) = .ok (.header 1 1 4 0, []) :=
  ⟨rfl, ⟨rfl, by decide, rfl⟩, rfl, by decide, by decide, by decide, by decide⟩

theorem witness_StepRunsStreamInstruction_footer :
    let s := decodeState .decFtr 22 14 64 [0, 0, 0, 0, 0, 0, 0, 1]
    s.hostQ = [] ∧ ReadsMemory s ∧ s.fsm = .decFtr ∧ s.op.inPos.toNat + 8 ≤ s.op.srcLen.toNat ∧
      decodeFooter (srcBytes s s.op.inPos.toNat 8) = .ok (.footer, []) :=
  ⟨rfl, ⟨rfl, by decide, rfl⟩, rfl, by decide, by decide⟩

theorem witness_StepRunsHostCommand : (0x04 : BitVec 8).toNat % 4 = 0 ∧ decodeRegWrite 0x04 1 = .ok (.startEncode false) ∧
    (hosted [.regWrite 0x04 .word 1] configured).hostQ = [.regWrite 0x04 .word 1] := by decide

/-- A decode at its footer, the last bytes of its stream, with host actions pending. -/
def endingWith (q : List HostOp) : State := hosted q (decodeState .decFtr 22 14 64 [0, 0, 0, 0, 0, 0, 0, 1])

/-- R270: a write to STATUS in the same cycle as completion does not clear DONE. -/
theorem test_same_cycle_clear : seen (fun t => (t.busy, t.done)) (step (endingWith [.cycleWrite .status 6])) =
    some (false, true) := by decide

/-- R270: a write to CTRL in the same cycle as completion is ordered after it, so it starts the next operation. -/
theorem test_same_cycle_start : seen (fun t => (t.busy, t.done, t.width, t.fsm))
    (step (endingWith [.cycleWrite .ctrl 1])) = some (true, false, 64, .encCheck) := by decide

theorem witness_StepRunsHostCommand_same_cycle : seen State.done (engineTurn exec (endingWith [])) = some true ∧
    decodeRegWrite 0x04 1 = .ok (.startEncode false) ∧
    (endingWith [.cycleWrite .ctrl 1]).hostQ = [.cycleWrite .ctrl 1] ∧
    (endingWith [.cycleWrite .status 6]).hostQ = [.cycleWrite .status 6] := by decide

theorem witness_DecoderRejectsBadStreams_short : let s := decodeState .decCheck 21 0 0 []
    s.hostQ = [] ∧ ReadsMemory s ∧ s.fsm = .decCheck ∧ windowsIllegal s.op = false ∧ windowsOverRegisters s = false ∧
      s.op.srcLen.toNat < 22 :=
  ⟨rfl, ⟨rfl, by decide, rfl⟩, rfl, by decide, by decide, by decide⟩

theorem witness_DecoderRejectsBadStreams_magic : let s := decodeState .decCheck 22 0 0 [0x71, 0x6F, 0x69, 0x46]
    s.hostQ = [] ∧ ReadsMemory s ∧ s.fsm = .decCheck ∧ windowsIllegal s.op = false ∧ windowsOverRegisters s = false ∧
      22 ≤ s.op.srcLen.toNat ∧ srcBytes s 0 4 ≠ [0x71, 0x6F, 0x69, 0x66] :=
  ⟨rfl, ⟨rfl, by decide, rfl⟩, rfl, by decide, by decide, by decide, by decide⟩

theorem witness_DecoderRejectsBadStreams_no_tag : let s := decodeState .decChunk 14 14 0 []
    s.hostQ = [] ∧ ReadsMemory s ∧ s.fsm = .decChunk ∧ s.op.srcLen.toNat < s.op.inPos.toNat + 1 :=
  ⟨rfl, ⟨rfl, by decide, rfl⟩, rfl, by decide⟩

theorem witness_DecoderRejectsBadStreams_payload : let s := decodeState .decChunk 17 14 0 [0xFE]
    s.hostQ = [] ∧ ReadsMemory s ∧ s.fsm = .decChunk ∧ s.op.inPos.toNat + 1 ≤ s.op.srcLen.toNat ∧
      s.op.srcLen.toNat < s.op.inPos.toNat + chunkLength (Memory.read s.mem (s.op.srcBase.toNat + s.op.inPos.toNat)) :=
  ⟨rfl, ⟨rfl, by decide, rfl⟩, rfl, by decide, by decide⟩

theorem witness_DecoderRejectsBadStreams_footer_short : let s := decodeState .decFtr 21 14 64 []
    s.hostQ = [] ∧ ReadsMemory s ∧ s.fsm = .decFtr ∧ s.op.srcLen.toNat < s.op.inPos.toNat + 8 :=
  ⟨rfl, ⟨rfl, by decide, rfl⟩, rfl, by decide⟩

theorem witness_DecoderRejectsBadStreams_footer : let s := decodeState .decFtr 22 14 64 [0, 0, 0, 0, 0, 0, 0, 2]
    s.hostQ = [] ∧ ReadsMemory s ∧ s.fsm = .decFtr ∧ s.op.inPos.toNat + 8 ≤ s.op.srcLen.toNat ∧
      srcBytes s s.op.inPos.toNat 8 ≠ [0, 0, 0, 0, 0, 0, 0, 1] :=
  ⟨rfl, ⟨rfl, by decide, rfl⟩, rfl, by decide, by decide⟩

/-- The chunk state is ready for a chunk of at most 13 bytes, whatever its pixel count. -/
theorem ready_chunkAt (bs : List Byte) (hb : 14 + bs.length ≤ Config.addressSpace) {len : Nat} (h : len ≤ 13) (cnt : Nat) :
    ChunkReady (chunkAt bs) len cnt :=
  ⟨by show 14 + len ≤ 27; omega, fits_chunkLatches,
    accessesAnswered_of_noFaults rfl _, Memory.wf_store bs reset_mem_wf hb⟩

theorem witness_RgbChunk : ChunkReady (chunkAt [0xFE, 5, 200, 7]) 4 1 ∧
    (decodeState .decChunk 17 14 0 []).op.srcLen.toNat < (decodeState .decChunk 17 14 0 []).op.inPos.toNat + 4 :=
  ⟨ready_chunkAt _ (by decide) (by decide) _, by decide⟩

theorem witness_RgbaChunk : ChunkReady (chunkAt [0xFF, 1, 2, 3, 4]) 5 1 ∧
    (decodeState .decChunk 18 14 0 []).op.srcLen.toNat < (decodeState .decChunk 18 14 0 []).op.inPos.toNat + 5 :=
  ⟨ready_chunkAt _ (by decide) (by decide) _, by decide⟩

theorem witness_IndexChunk : ChunkReady (chunkAt [0x35]) 1 1 := ready_chunkAt _ (by decide) (by decide) _

theorem witness_DiffChunk : ChunkReady (chunkAt [0x7F]) 1 1 := ready_chunkAt _ (by decide) (by decide) _

theorem witness_LumaChunk : ChunkReady (chunkAt [0x80, 0x26]) 2 1 ∧
    (decodeState .decChunk 15 14 0 []).op.srcLen.toNat < (decodeState .decChunk 15 14 0 []).op.inPos.toNat + 2 :=
  ⟨ready_chunkAt _ (by decide) (by decide) _, by decide⟩

theorem witness_RunChunk : ChunkReady (chunkAt [0xC0]) 1 1 ∧ ChunkReady (chunkAt [0xFD]) 1 62 :=
  ⟨ready_chunkAt _ (by decide) (by decide) _, ready_chunkAt _ (by decide) (by decide) _⟩

theorem codecOk_chunkAt (bs : List Byte) : CodecOk (chunkAt bs) := codecOk_init rfl rfl

theorem witness_chunk_tags : (0x3F : Byte).toNat ≤ 0x3F ∧ 0x40 ≤ (0x40 : Byte).toNat ∧ (0x7F : Byte).toNat ≤ 0x7F ∧
    0x80 ≤ (0x80 : Byte).toNat ∧ (0xBF : Byte).toNat ≤ 0xBF ∧ 0xC0 ≤ (0xC0 : Byte).toNat ∧
    (0xFD : Byte).toNat ≤ 0xFD := by decide

theorem witness_control_writes : (0xFFFFFFFE : Word).getLsbD 0 = false ∧ (0x00000005 : Word).getLsbD 0 = true := by
  decide

theorem witness_RunLeavesCacheUnchanged : CodecOk (chunkAt [0xFD]) ∧ ChunkReady (chunkAt [0xFD]) 1 62 :=
  ⟨codecOk_chunkAt _, ready_chunkAt _ (by decide) (by decide) _⟩

theorem witness_ChannelCountChangesOnlyOutput : decodeChunk [0xC1] = .ok (.run 2, []) ∧ (chunkAt [0xC1]).err = false ∧
    seen State.err (exec (.run 2) { chunkAt [0xC1] with op := { (chunkAt [0xC1]).op with ch := 3 } }) = some false ∧
    seen State.err (exec (.run 2) { chunkAt [0xC1] with op := { (chunkAt [0xC1]).op with ch := 4 } }) = some false := by
  decide

theorem witness_HeaderAccepted : 1 ≤ (20000 : Word).toNat ∧ (20000 : Word).toNat * (20000 : Word).toNat ≤ 400000000 ∧
    ((3 : Byte) = 3 ∨ (3 : Byte) = 4) ∧
    (20000 : Word).toNat * (20000 : Word).toNat * (3 : Byte).toNat ≤ (1200000000 : Word).toNat := by decide

theorem witness_HeaderRejected :
    ¬(1 ≤ (20000 : Word).toNat ∧ 1 ≤ (20001 : Word).toNat ∧ (20000 : Word).toNat * (20001 : Word).toNat ≤ 400000000) ∧
    (1 ≤ (1 : Word).toNat ∧ (1 : Word).toNat * (1 : Word).toNat ≤ 400000000) ∧ ¬((5 : Byte) = 3 ∨ (5 : Byte) = 4) ∧
    (7 : Word).toNat < (2 : Word).toNat * (1 : Word).toNat * (4 : Byte).toNat := by decide

theorem witness_FooterCompletes : let s := decodeState .decFtr 22 14 64 [0, 0, 0, 0, 0, 0, 0, 1]
    s.op.inPos.toNat + 8 = s.op.srcLen.toNat ∧ s.outTaint = false := by decide

theorem witness_FooterRejected : let s := decodeState .decFtr 21 14 64 []
    let u := decodeState .decFtr 23 14 64 []
    s.op.srcLen.toNat < s.op.inPos.toNat + 8 ∧ u.op.inPos.toNat + 8 < u.op.srcLen.toNat := by decide

theorem witness_StartLatchesConfiguration : configured.busy = false := rfl

theorem witness_StartWhileBusyIgnored : (chunkAt []).busy = true := rfl

theorem witness_ConfigurationWrites : let s := hosted [.regWrite 0x18 .word 0x00000704] configured
    s.hostQ = [.regWrite 0x18 .word 0x00000704] ∧ (0x18 : BitVec 8).toNat % 4 = 0 ∧ (0x18 : BitVec 8).toNat ≠ 0x04 ∧
      (0x18 : BitVec 8).toNat ≠ 0x08 ∧ s.busy = false ∧ (hosted [.regWrite 0x18 .word 0x00000704] (chunkAt [])).busy = true := by
  decide

/-- FORMAT takes its low 16 bits (R26), and ID ignores a write (R21). -/
theorem witness_ConfigurationWrites_values :
    seen (fun t => (t.channels, t.colorspace)) (step (hosted [.regWrite 0x18 .word 0xFFFF0704] configured)) = some (4, 7) ∧
    step (hosted [.regWrite 0x00 .word 5] configured) = .next configured ∧
    step (hosted [.regWrite 0x30 .word 5] configured) = .next configured ∧
    step (hosted [.regWrite 0xFC .word 5] configured) = .next configured := ⟨by decide, rfl, rfl, rfl⟩

theorem witness_RegisterReads : (0x00 : BitVec 8).toNat % 4 = 0 ∧ (0x2C : BitVec 8).toNat % 4 = 0 ∧
    (0x30 : BitVec 8).toNat % 4 = 0 ∧ (0xFC : BitVec 8).toNat % 4 = 0 ∧
    seen State.rdata (step (hosted [.regRead 0x00 .word] configured)) = some 0x716F6966 ∧
    seen State.rdata (step (hosted [.regRead 0x30 .word] configured)) = some 0 := by decide

theorem witness_BadRegisterAccessRefused : (AccessSize.half ≠ .word ∨ (0x04 : BitVec 8).toNat % 4 ≠ 0) ∧
    (AccessSize.word ≠ .word ∨ (0x05 : BitVec 8).toNat % 4 ≠ 0) ∧
    State.reset.cfg.engineBase.toNat ≤ (0xF0000000 : Word).toNat ∧
    (0xF00000FF : Word).toNat < State.reset.cfg.engineBase.toNat + 256 := by decide

theorem witness_WindowLegality :
    let s := encodeState .encCheck 0 0 []
    let op := s.op
    s.hostQ = [] ∧ s.fsm = .encCheck ∧
      (0xFFFFFFFF : Word).toNat + (2 : Word).toNat > 2 ^ 32 ∧
      windowsIllegal { op with srcBase := 0xFFFFFFFF, srcLen := 2 } = true ∧
      windowsIllegal { op with dstBase := 0xFFFFFFFF, dstCap := 2 } = true ∧
      windowsIllegal { op with srcBase := 0x201D } = true ∧ windowsIllegal { op with srcBase := 0x201E } = false := by decide

theorem witness_WindowOverRegistersRefused :
    let s := encodeState .encCheck 0 0 []
    let u := { s with op := { s.op with srcBase := 0xF00000FF } }
    u.hostQ = [] ∧ u.fsm = .encCheck ∧ windowsIllegal u.op = false ∧ u.op.srcLen.toNat > 0 ∧
      u.op.srcBase.toNat < u.cfg.engineBase.toNat + 256 ∧ u.cfg.engineBase.toNat < u.op.srcBase.toNat + u.op.srcLen.toNat := by
  decide

/-- L2.1: DST_CAP = 29 is short by one, 30 passes; SRC_LEN = 5 is short by one. -/
theorem witness_EncodeChecksInOrder :
    let s := encodeState .encCheck 0 0 []
    s.hostQ = [] ∧ s.fsm = .encCheck ∧ windowsIllegal s.op = false ∧ windowsOverRegisters s = false ∧
      encodeError s.op = none ∧ encodeError { s.op with dstCap := 29 } = some .outputOverflow ∧
      encodeError { s.op with srcLen := 5 } = some .bufferSizeMismatch ∧
      encodeError { s.op with ch := 2 } = some .invalidChannelCount ∧
      encodeError { s.op with w := 0 } = some .invalidDimensions := by decide

theorem wf_encodeState (f : Fsm) (p o : Word) {bs : List Byte} (h : bs.length ≤ 6) : Memory.wf (encodeState f p o bs).mem :=
  Memory.wf_store bs reset_mem_wf (by show 0x1000 + bs.length ≤ 4294967296; omega)

theorem witness_EncodeHeaderStep : let s := encodeState .encHdr 0 0 [10, 10, 10, 11, 11, 11]
    s.hostQ = [] ∧ s.fsm = .encHdr ∧ Memory.wf s.mem ∧ AccessesAnswered s 14 ∧ RoomFor s 14 :=
  ⟨rfl, rfl, wf_encodeState _ _ _ (by decide), accessesAnswered_of_noFaults rfl _, by unfold RoomFor; decide⟩

theorem witness_EncodePixelStep : let s := encodeState .encPix 0 14 [10, 10, 10, 11, 11, 11]
    s.hostQ = [] ∧ s.fsm = .encPix ∧ Memory.wf s.mem ∧ ReadsMemory s ∧ RoomFor s 6 ∧ s.op.ch = 3 ∧
      s.op.pix.toNat < s.op.npix.toNat ∧ s.op.npix.toNat ≤ 400000000 ∧
      s.op.npix.toNat * s.op.ch.toNat ≤ s.op.srcLen.toNat ∧ s.run.toNat ≤ 61 :=
  ⟨rfl, rfl, wf_encodeState _ _ _ (by decide), reads_encodeState _ _, by unfold RoomFor; decide, rfl, by decide, by decide,
    by decide, by decide⟩

/-- The latches of the 2 x 1 encode are checked. -/
theorem checked_encode (f : Fsm) (p o : Word) (bs : List Byte) : Checked (encodeState f p o bs).op :=
  Checked.moved (op := (encodeState .encCheck 0 0 []).op) ⟨by decide, by decide, .inl rfl, by decide⟩ _ _ _

theorem encodeOk_encode (f : Fsm) (p o : Word) (bs : List Byte) : EncodeOk (encodeState f p o bs) :=
  ⟨rfl, checked_encode f p o bs, rfl, (by decide : 22 + 2 * (3 + 1) ≤ 30), codecOk_init rfl rfl, fun _ => rfl, rfl⟩

theorem inv_encPix (bs : List Byte) (h : bs.length ≤ 6) : Inv (encodeState .encPix 0 14 bs) :=
  ⟨wf_encodeState _ _ _ h, ⟨rfl, rfl, rfl⟩, ⟨fun _ => Fsm.noConfusion, fun _ => rfl⟩, (by decide : 0 ≤ 9),
    ⟨fun _ => rfl, fun h => Bool.noConfusion h⟩, fun _ => rfl, fun _ => rfl,
    ⟨encodeOk_encode _ _ _ _, by show 0 < 2; decide, by show 0 ≤ 61; decide, rfl, Nat.le_refl 14, Nat.le_refl 14⟩⟩

theorem witness_PendingRunEqualsPrev : let s := encodeState .encPix 0 14 [0, 0, 0, 1, 1, 1]
    Inv s ∧ ReadsMemory s ∧ s.hostQ = [] ∧ s.fsm = .encPix ∧ PendingRun s ∧
      seen State.fsm (step s) = some .encPix :=
  ⟨inv_encPix _ (by decide), reads_encodeState _ _, rfl, rfl, fun i hi => absurd hi (by show ¬i < 0; omega), by decide⟩

theorem witness_EncoderChoosesByPriority :
    IsDelta .wrap8 238 20 (-38) ∧ IsDelta .wrap8 178 210 (-32) ∧ IsDelta .wrap8 237 15 (-34) ∧
    ¬((-2 ≤ (-38 : Int) ∧ (-38 : Int) ≤ 1) ∧ (-2 ≤ (-32 : Int) ∧ (-32 : Int) ≤ 1) ∧ (-2 ≤ (-34 : Int) ∧ (-34 : Int) ≤ 1)) ∧
    ((-32 ≤ (-32 : Int) ∧ (-32 : Int) ≤ 31) ∧ (-8 ≤ (-38 : Int) - -32 ∧ (-38 : Int) - -32 ≤ 7) ∧
      (-8 ≤ (-34 : Int) - -32 ∧ (-34 : Int) - -32 ≤ 7)) ∧
    (encodeState .encPix 0 14 []).cache.get (pixelHash ⟨238, 178, 237, 255⟩) ≠ ⟨238, 178, 237, 255⟩ ∧
    (encodeState .encPix 0 14 []).cache.get (pixelHash ⟨0, 0, 0, 255⟩) = ⟨0, 0, 0, 255⟩ := by
  refine ⟨?_, ?_, ?_, by decide, by decide, by decide, by decide⟩ <;> simp [IsDelta]

theorem witness_EncodeFooterStep : let s := encodeState .encFtr 2 17 []
    s.hostQ = [] ∧ s.fsm = .encFtr ∧ Memory.wf s.mem ∧ AccessesAnswered s 8 ∧ RoomFor s 8 ∧ s.outTaint = false :=
  ⟨rfl, rfl, wf_encodeState _ _ _ (by decide), accessesAnswered_of_noFaults rfl _, by unfold RoomFor; decide, rfl⟩

theorem witness_ThreeChannelsNeverEmitRgba : let s := encodeState .encPix 0 14 [10, 10, 10, 11, 11, 11]
    Inv s ∧ s.fsm = .encPix ∧ s.op.ch = 3 ∧ fetchPixel s = .ok ⟨10, 10, 10, 255⟩ s ∧ (⟨10, 10, 10, 255⟩ : Pixel) ≠ s.prev :=
  ⟨inv_encPix _ (by decide), rfl, rfl, rfl, by decide⟩

theorem witness_EncoderAndDecoderStayInStep : let e := encodeState .encPix 0 14 [10, 10, 10, 11, 11, 11]
    let d := chunkAt []
    CodecOk e ∧ InStep e d ∧ e.run.toNat ≤ 61 ∧ (∃ e1, encodePixel ⟨10, 10, 10, 255⟩ false e = .ok () e1) ∧
      e.op.pix.toNat + 1 < 2 ^ 32 ∧ Memory.wf d.mem ∧ OutputFits d.op ∧ d.cfg.busFaults = false ∧
      e.op.pix.toNat + 1 ≤ d.op.npix.toNat ∧
      d.op.inPos.toNat + (bytesOfChunks (pixelChunks ⟨10, 10, 10, 255⟩ false e)).length ≤ d.op.srcLen.toNat :=
  ⟨codecOk_init rfl rfl, ⟨rfl, rfl, rfl⟩, by decide, ⟨_, rfl⟩, by decide, reset_mem_wf,
    ⟨.inr rfl, by decide, by decide, by decide, by decide⟩, rfl, by decide, by decide⟩

theorem witness_BusErrorEndsTheAccess :
    let s := { chunkAt [] with cfg := { Config.resetParams with busFaults := true } }
    s.cfg.busFaults = true ∧ s.op.srcBase.toNat + 14 < 2 ^ 32 ∧ s.inTaint = false ∧ s.op.dstBase.toNat + 0 < 2 ^ 32 ∧
      s.hostQ = [] ∧ s.fsm = .decChunk ∧ s.op.inPos.toNat < s.op.srcLen.toNat ∧
      s.op.srcBase.toNat + s.op.srcLen.toNat ≤ 2 ^ 32 := by decide

theorem witness_ErrorTermination : Memory.wf (chunkAt []).mem ∧
    (0xFFF < (chunkAt []).op.dstBase.toNat ∨
      (chunkAt []).op.dstBase.toNat + (if (chunkAt []).outTaint = true then (chunkAt []).op.dstCap.toNat else (chunkAt []).reach) ≤ 0xFFF) :=
  ⟨reset_mem_wf, by decide⟩

theorem witness_ResetValues : (hosted [.rst] (chunkAt [])).hostQ = [.rst] ∧
    seen State.fsm (step (hosted [.rst] (chunkAt []))) = some .idle := ⟨rfl, rfl⟩

theorem witness_ResetEvent : (hosted [.rst] (chunkAt [])).hostQ = [.rst] ∧ (hosted [.rst] configured).busy = false ∧
    (chunkAt []).busy = true ∧ 0xFFF < (chunkAt []).op.dstBase.toNat := by decide

theorem witness_HostMemoryAccess : let s := hosted [.memWrite 0x1000 7] configured
    Memory.wf s.mem ∧ s.busy = false ∧ (0x1000 : Word).toNat < s.cfg.engineBase.toNat ∧
      s.hostQ = [.memWrite 0x1000 7] ∧ (hosted [.memRead 0xF0000100] configured).hostQ = [.memRead 0xF0000100] ∧
      s.cfg.engineBase.toNat + 256 ≤ (0xF0000100 : Word).toNat :=
  ⟨reset_mem_wf, rfl, by decide, rfl, rfl, by decide⟩

theorem witness_BrokenHostDuty : let s := hosted [.memWrite 14 7] (chunkAt [])
    let u := hosted [.memRead 0x10FF] (chunkAt [])
    s.busy = true ∧ (14 : Word).toNat < s.cfg.engineBase.toNat ∧ s.op.srcBase.toNat ≤ (14 : Word).toNat ∧
      (14 : Word).toNat < s.op.srcBase.toNat + s.op.srcLen.toNat ∧ s.cfg.busFaults = false ∧
      u.op.dstBase.toNat ≤ (0x10FF : Word).toNat ∧ (0x10FF : Word).toNat < u.op.dstBase.toNat + u.op.dstCap.toNat := by
  decide

/-- A decode in the middle of its chunks meets the invariant. -/
theorem inv_chunkAt (bs : List Byte) (h : 14 + bs.length ≤ Config.addressSpace) : Inv (chunkAt bs) :=
  ⟨Memory.wf_store bs reset_mem_wf h, ⟨rfl, rfl, rfl⟩, ⟨fun _ => Fsm.noConfusion, fun _ => rfl⟩, (by decide : 0 ≤ 9),
    ⟨fun _ => rfl, fun h => Bool.noConfusion h⟩, fun _ => rfl, fun _ => rfl,
    ⟨⟨rfl, checked_chunkLatches, Nat.le_refl 256, codecOk_chunkAt _,
      ⟨Nat.le_refl 14, Nat.le_add_right 14 13⟩, rfl, rfl⟩, by show 0 < 64; decide⟩⟩

theorem witness_ReadsWhileBusy : Inv (chunkAt [0x7F]) ∧ (chunkAt [0x7F]).busy = true :=
  ⟨inv_chunkAt _ (by decide), rfl⟩

theorem witness_StepKeepsInvariant : Inv (chunkAt [0x7F]) ∧ seen State.fsm (step (chunkAt [0x7F])) = some .decChunk :=
  ⟨inv_chunkAt _ (by decide), by decide⟩

theorem witness_InvariantNeverFaults : Inv (chunkAt [0x7F]) ∧ Inv State.reset :=
  ⟨inv_chunkAt _ (by decide), ⟨reset_mem_wf, ⟨rfl, rfl, rfl⟩, ⟨fun h => Bool.noConfusion h, fun h => absurd rfl h⟩,
    (by decide : 0 ≤ 9), ⟨fun _ => rfl, fun h => Bool.noConfusion h⟩, fun _ => rfl, fun h => Bool.noConfusion h,
    ⟨rfl, rfl, rfl⟩⟩⟩

theorem witness_EngineWritesOnlyOutputWindow : let s := chunkAt [0x7F]
    Inv s ∧ seen State.fsm (engineTurn exec s) = some .decChunk ∧ 0xFFF < s.op.dstBase.toNat ∧
      s.op.dstBase.toNat + s.op.dstCap.toNat ≤ 0x1100 ∧ s.op.srcBase.toNat ≤ 14 ∧
      14 < s.op.srcBase.toNat + s.op.srcLen.toNat ∧ windowsIllegal s.op = false :=
  ⟨inv_chunkAt _ (by decide), by decide, by decide, by decide, by decide, by decide, by decide⟩

theorem witness_EngineNeverReadsOutputWindow : let s := chunkAt [0x7F]
    let m := Memory.write s.mem 0x1000 9
    Inv s ∧ Memory.wf m ∧ (∀ a, (a < s.op.dstBase.toNat ∨ s.op.dstBase.toNat + s.op.dstCap.toNat ≤ a) →
      Memory.read m a = Memory.read s.mem a) ∧ seen State.fsm (engineTurn exec { s with mem := m }) = some .decChunk := by
  refine ⟨inv_chunkAt _ (by decide), ?_, fun a ha => Memory.read_write_other _ _ ?_, by decide⟩
  · exact Memory.wf_write (inv_chunkAt [0x7F] (by decide)).mem (by decide) 9
  · change a < 0x1000 ∨ 0x1000 + 256 ≤ a at ha
    omega

theorem witness_OperationIgnoresHostRegisters : (chunkAt [0x7F]).fsm ≠ .decFtr ∧
    (decodeState .decFtr 22 14 64 [0, 0, 0, 0, 0, 0, 0, 1]).fsm = .decFtr := by decide

theorem witness_DeltaModeDoesNotAffectDecoder : (chunkAt [0x7F]).fsm = .decChunk := rfl

theorem witness_OnlyCompletionErrorOrResetEndsBusy : let s := decodeState .decChunk 14 14 0 []
    s.busy = true ∧ seen State.busy (step s) = some false ∧ seen State.err (step s) = some true := by decide

/-- The latches of a stream that ends where a chunk should start. -/
theorem checked_cutShort : Checked (placeLatches Config.resetParams 14 14 0) := ⟨by decide, by decide, .inr rfl, by decide⟩

/-- The stream ends where a chunk should start, whatever the host does next. -/
theorem inv_cutShort (q : List HostOp) : Inv (hosted q (decodeState .decChunk 14 14 0 [])) :=
  ⟨reset_mem_wf, ⟨rfl, rfl, rfl⟩, ⟨fun _ => Fsm.noConfusion, fun _ => rfl⟩, (by decide : 0 ≤ 9),
    ⟨fun _ => rfl, fun h => Bool.noConfusion h⟩, fun _ => rfl, fun _ => rfl,
    ⟨⟨rfl, checked_cutShort, Nat.le_refl 256, codecOk_init rfl rfl, ⟨Nat.le_refl 14, Nat.le_refl 14⟩, rfl, rfl⟩,
      by show 0 < 64; decide⟩⟩

theorem witness_OnlyCompletionErrorOrResetEndsBusy_same_cycle :
    let s := hosted [.cycleWrite .status 6] (decodeState .decChunk 14 14 0 [])
    Inv s ∧ s.busy = true ∧ seen State.err (step s) = some true ∧ s.hostQ = [.cycleWrite .status 6] :=
  ⟨inv_cutShort _, rfl, by decide, rfl⟩

theorem witness_ErrorsKeepResultRegisters : let s := decodeState .decChunk 14 14 0 []
    Inv s ∧ s.busy = true ∧ seen State.err (step s) = some true := ⟨inv_cutShort [], rfl, by decide⟩

theorem witness_EncodeTakesPixelsPlusThreeSteps : let s := encodeState .encCheck 0 0 [10, 10, 10, 11, 11, 11]
    Inv s ∧ s.fsm = .encCheck ∧ s.hostQ = [] ∧ s.cfg.busFaults = false ∧ windowsIllegal s.op = false ∧
      windowsOverRegisters s = false ∧ encodeError s.op = none :=
  ⟨⟨wf_encodeState _ _ _ (by decide), ⟨rfl, rfl, rfl⟩, ⟨fun _ => Fsm.noConfusion, fun _ => rfl⟩, (by decide : 0 ≤ 9),
    ⟨fun _ => rfl, fun h => Bool.noConfusion h⟩, fun _ => rfl, fun _ => rfl, ⟨rfl, by decide, rfl, rfl, rfl, rfl⟩⟩,
    rfl, rfl, rfl, by decide, by decide, by decide⟩

theorem witness_DecodeEndsWithinStepBound : Inv (chunkAt [0x7F]) ∧ (chunkAt [0x7F]).fsm = .decChunk ∧
    (chunkAt [0x7F]).hostQ = [] := ⟨inv_chunkAt _ (by decide), rfl, rfl⟩

end Sys2Proof.Tests
end

section
/-! PROOFS. Fault freedom (O52). An engine access faults only at or above 2^32. A check step reads memory only where the
windows have passed rule R61, and in each later phase of an operation the accesses of the next step lie inside the two
windows (rule R62), so inside the address space. A host action makes no engine access of its own. -/

namespace Sys2Proof.Machine

/-! ### Accesses -/

theorem Acc.finish_not_fault {α : Type} {x : Acc α} {k : α → State → Answer} {f : Fault} (hx : x ≠ .fault f)
    (hk : ∀ a s, x = .ok a s → k a s ≠ .fault f) : x.finish k ≠ .fault f := fun h => by
  rcases Acc.finish_eq_fault.1 h with h | ⟨a, s, h1, h2⟩
  · exact hx h
  · exact hk a s h1 h2

theorem readIn_not_fault {off : Nat} {s : State} (h : s.op.srcBase.toNat + off < 2 ^ 32) (f : Fault) :
    readIn off s ≠ .fault f := fun hf => Nat.not_le.2 h (readIn_fault hf)

theorem readBytes_not_fault {n off : Nat} {s : State} (h : s.op.srcBase.toNat + off + n ≤ 2 ^ 32) (f : Fault) :
    readBytes n off s ≠ .fault f := fun hf => Nat.not_lt.2 h (readBytes_fault hf)

/-- Writes inside the address space that end a step do not fault. -/
theorem writeBytes_finish_not_fault {bs : List Byte} {off : Nat} {s : State}
    (h : s.op.dstBase.toNat + off + bs.length ≤ 2 ^ 32) (g : State → State) (f : Fault) :
    (writeBytes bs off s).finish (fun _ t => .next (g t)) ≠ .fault f :=
  Acc.finish_not_fault (fun hf => Nat.not_lt.2 h (writeBytes_fault hf)) fun _ _ _ => nofun

/-! ### The check steps -/

theorem checkWindows_not_fault {s : State} {k : Answer} {f : Fault} (hk : windowsIllegal s.op = false → k ≠ .fault f) :
    checkWindows s k ≠ .fault f := by
  unfold checkWindows
  split
  · nofun
  · next hw =>
    split
    · nofun
    · exact hk (Bool.eq_false_iff.2 hw)

/-- Legal windows lie inside the address space (rule R61). -/
theorem windows_inSpace {op : Latches} (h : windowsIllegal op = false) :
    op.srcBase.toNat + op.srcLen.toNat ≤ 2 ^ 32 ∧ op.dstBase.toNat + op.dstCap.toNat ≤ 2 ^ 32 := by
  have hw := windowsIllegal_iff.not.1 (Bool.eq_false_iff.1 h)
  omega

theorem encCheck_not_fault (s : State) (f : Fault) : encCheck s ≠ .fault f := by
  refine checkWindows_not_fault fun _ => ?_
  split <;> nofun

/-! ### The encode steps -/

theorem encHeader_not_fault {s : State} (hE : EncodeOk s) (ho : s.op.outPos = 0) (f : Fault) :
    encHeader s ≠ .fault f := by
  obtain ⟨-, -, -, -, -, hdst⟩ := hE.checked.bounds
  have hout := hE.output
  have hpos : s.op.outPos.toNat = 0 := by rw [ho]; rfl
  rw [encHeader_eq (by omega)]
  exact writeBytes_finish_not_fault (by rw [headerBytes_length]; omega) (fun t => { advanceOut 14 t with fsm := .encPix }) f

/-- A pixel is read inside the input window and its chunks are written inside the output window (rules R153, R168). -/
theorem encPixel_not_fault {s : State} (hE : EncodeOk s) (hp : s.op.pix.toNat < s.op.npix.toNat)
    (hr : s.run.toNat ≤ 61) (ho : s.op.outPos.toNat ≤ 14 + s.op.pix.toNat * (s.op.ch.toNat + 1)) (f : Fault) :
    encPixel s ≠ .fault f := by
  obtain ⟨-, -, -, -, hsrc, hdst⟩ := hE.checked.bounds
  have hin := hE.input
  have hout := hE.output
  have hcap := s.op.dstCap.isLt
  have hread : s.op.ch.toNat * s.op.pix.toNat + s.op.ch.toNat ≤ s.op.npix.toNat * s.op.ch.toNat := by
    rw [← Nat.mul_succ, Nat.mul_comm]
    exact Nat.mul_le_mul_right _ hp
  have hwrite : s.op.pix.toNat * (s.op.ch.toNat + 1) ≤ s.op.npix.toNat * (s.op.ch.toNat + 1) :=
    Nat.mul_le_mul_right _ hp.le
  rw [encPixel_eq hr (by omega)]
  refine Acc.finish_not_fault (readBytes_not_fault (by omega) f) fun bs s1 h1 => ?_
  have hlen := pixelChunks_length (pixelOfBytes bs) (isLastPixel s) s
  have hop : s1.op = s.op := by rw [(readBytes_ok h1).1, accessed_op]
  exact writeBytes_finish_not_fault (by rw [hop]; omega)
    (fun t => afterPixel (pixelDone (pixelOfBytes bs) (isLastPixel s) t)) f

theorem encFooter_not_fault {s : State} (hE : EncodeOk s)
    (ho : s.op.outPos.toNat ≤ 14 + s.op.npix.toNat * (s.op.ch.toNat + 1)) (f : Fault) : encFooter s ≠ .fault f := by
  obtain ⟨-, -, -, -, -, hdst⟩ := hE.checked.bounds
  have hout := hE.output
  have hcap := s.op.dstCap.isLt
  rw [encFooter_eq (by omega)]
  exact writeBytes_finish_not_fault (by rw [footer_length]; omega)
    (fun t => complete (advanceOut 8 t).op.outPos (advanceOut 8 t)) f

/-! ### The decode steps -/

theorem runDecoded_not_fault {run : Instr → State → Answer} {e : ErrKind} {x : Except DecodeError (Instr × List Byte)}
    {s : State} {f : Fault} (h : ∀ i rest, x = .ok (i, rest) → run i s ≠ .fault f) : runDecoded run e x s ≠ .fault f := by
  rcases x with _ | ⟨i, rest⟩
  · nofun
  · exact h i rest rfl

theorem execHeader_not_fault (w h : Word) (ch cs : Byte) (s : State) (f : Fault) :
    execHeader w h ch cs s ≠ .fault f := by
  unfold execHeader
  split <;> nofun

theorem execFooter_not_fault (s : State) (f : Fault) : execFooter s ≠ .fault f := by
  unfold execFooter
  split
  · nofun
  · split <;> nofun

/-- The header is read after the windows and the length of the stream are checked (rules R61, R191). -/
theorem decCheck_not_fault (s : State) (f : Fault) : decCheck exec s ≠ .fault f := by
  refine checkWindows_not_fault fun hw => ?_
  obtain ⟨hsrc, -⟩ := windows_inSpace hw
  split
  · nofun
  next hlen =>
  simp only [Config.headerLen, Config.footerLen] at hlen
  refine Acc.finish_not_fault (readBytes_not_fault (by omega) f) fun m s1 h1 => ?_
  have hop : s1.op = s.op := by rw [(readBytes_ok h1).1, accessed_op]
  split
  · nofun
  refine Acc.finish_not_fault (readBytes_not_fault (by rw [hop]; omega) f) fun bs s2 _ => ?_
  refine runDecoded_not_fault fun i rest hd => ?_
  obtain ⟨w, h, ch, cs, rfl⟩ := decodeHeader_ok hd
  exact execHeader_not_fault w h ch cs s2 f

/-- Every byte of a chunk is read after `need` (rule R210) and its pixels fit the output window. -/
theorem decChunk_not_fault {s : State} (hD : DecodeOk s) (hp : s.op.pix.toNat < s.op.npix.toNat) (f : Fault) :
    decChunk exec s ≠ .fault f := by
  obtain ⟨-, -, -, -, hsrc, -⟩ := hD.checked.bounds
  unfold decChunk
  split
  · nofun
  refine Acc.finish_not_fault (readIn_not_fault (by omega) f) fun t s1 h1 => ?_
  have hop1 : s1.op = s.op := by rw [(readIn_ok h1).1, accessed_op]
  have hlen := (chunkLength_pos t).1
  rw [hop1]
  split
  · nofun
  refine Acc.finish_not_fault (readBytes_not_fault (by rw [hop1]; omega) f) fun bs s2 h2 => ?_
  have hop2 : s2.op = s.op := by rw [(readBytes_ok h2).1, accessed_op, hop1]
  refine runDecoded_not_fault fun i rest hd => ?_
  obtain ⟨len, p, cnt, -, hx⟩ := exec_chunk hd s2
  rw [hx]
  exact decodeTail_not_fault (by rw [hop2]; exact hD.fits hp.le)

theorem decFooter_not_fault {s : State} (hD : DecodeOk s) (f : Fault) : decFooter exec s ≠ .fault f := by
  obtain ⟨-, -, -, -, hsrc, -⟩ := hD.checked.bounds
  unfold decFooter
  split
  · nofun
  refine Acc.finish_not_fault (readBytes_not_fault (by omega) f) fun bs s1 _ => ?_
  refine runDecoded_not_fault fun i rest hd => ?_
  rw [decodeFooter_ok hd]
  exact execFooter_not_fault s1 f

/-! ### The engine -/

/-- No step of the engine faults in a state whose phase is in order. -/
theorem engineTurn_not_fault {s : State} (hph : PhaseOk s) (f : Fault) : engineTurn exec s ≠ .fault f := by
  unfold engineTurn
  rw [PhaseOk] at hph
  cases hf : s.fsm <;> simp only [hf] at hph
  case idle => nofun
  case encCheck => exact encCheck_not_fault s f
  case encHdr =>
    obtain ⟨hE, -, ho, -⟩ := hph
    exact encHeader_not_fault hE ho f
  case encPix =>
    obtain ⟨hE, hp, hr, -, -, ho⟩ := hph
    exact encPixel_not_fault hE hp hr (le_of_add_le_left ho) f
  case encFtr =>
    obtain ⟨hE, -, -, -, ho⟩ := hph
    exact encFooter_not_fault hE ho f
  case decCheck => exact decCheck_not_fault s f
  case decChunk =>
    obtain ⟨hD, hp⟩ := hph
    exact decChunk_not_fault hD hp f
  case decFtr => exact decFooter_not_fault hph.1 f

/-! ### The host -/

theorem writeStart_not_fault (mode : Mode) (q : Bool) (s : State) (f : Fault) : writeStart mode q s ≠ .fault f := by
  unfold writeStart
  split <;> nofun

theorem exec_decodeCtrl_not_fault (v : Word) (s : State) (f : Fault) : exec (decodeCtrl v) s ≠ .fault f := by
  unfold decodeCtrl
  split
  · split
    · exact writeStart_not_fault .decode _ s f
    · exact writeStart_not_fault .encode _ s f
  · nofun

/-- A command the host writes makes no engine access. -/
theorem hostRegWrite_not_fault (offset : BitVec 8) (size : AccessSize) (v : Word) (s : State) (f : Fault) :
    hostRegWrite exec offset size v s ≠ .fault f := by
  unfold hostRegWrite
  split
  · by_cases hc : offset = ctrlOffset
    · rw [hc, decodeRegWrite_ctrl]
      exact exec_decodeCtrl_not_fault v s f
    · by_cases hs : offset = statusOffset
      · rw [hs, decodeRegWrite_status]
        nofun
      · rw [decodeRegWrite_other v hc hs]
        nofun
  · nofun

theorem hostCycleWrite_not_fault {x : Answer} {f : Fault} (hx : x ≠ .fault f) (reg : CommandReg) (v : Word) (s : State) :
    hostCycleWrite exec reg v s x ≠ .fault f := by
  cases x with
  | next t => exact hostRegWrite_not_fault _ _ _ t f
  | fault g => exact hx
  | refused r => nofun

theorem hostRegRead_not_fault (offset : BitVec 8) (size : AccessSize) (s : State) (f : Fault) :
    hostRegRead offset size s ≠ .fault f := by
  unfold hostRegRead
  split <;> nofun

theorem hostMemWrite_not_fault (addr : Word) (v : Byte) (s : State) (f : Fault) : hostMemWrite addr v s ≠ .fault f := by
  unfold hostMemWrite
  split <;> nofun

theorem hostMemRead_not_fault (addr : Word) (s : State) (f : Fault) : hostMemRead addr s ≠ .fault f := by
  unfold hostMemRead
  split
  · nofun
  · split <;> nofun

theorem hostTurn_not_fault {s : State} (hph : PhaseOk s) (op : HostOp) (f : Fault) : hostTurn exec op s ≠ .fault f := by
  cases op with
  | engineTurn => exact engineTurn_not_fault hph f
  | regWrite offset size v => exact hostRegWrite_not_fault offset size v s f
  | cycleWrite reg v => exact hostCycleWrite_not_fault (engineTurn_not_fault hph f) reg v s
  | regRead offset size => exact hostRegRead_not_fault offset size s f
  | memWrite addr v => exact hostMemWrite_not_fault addr v s f
  | memRead addr => exact hostMemRead_not_fault addr s f
  | rst => nofun

/-! ### The host's queue -/

theorem EncodeOk.setQueue {s : State} (h : EncodeOk s) (q : List HostOp) : EncodeOk { s with hostQ := q } :=
  ⟨h.mode, h.checked, h.input, h.output, h.codec.same rfl rfl, h.opaqueAlpha, h.reached⟩

theorem DecodeOk.setQueue {s : State} (h : DecodeOk s) (q : List HostOp) : DecodeOk { s with hostQ := q } :=
  ⟨h.mode, h.checked, h.output, h.codec.same rfl rfl, h.cursor, h.runUnused, h.reached⟩

/-- The phase does not depend on what the host does next. -/
theorem PhaseOk.setQueue {s : State} (h : PhaseOk s) (q : List HostOp) : PhaseOk { s with hostQ := q } := by
  generalize ht : { s with hostQ := q } = t
  have hfsm : t.fsm = s.fsm := by rw [← ht]
  rw [PhaseOk] at h ⊢
  rw [hfsm]
  cases hf : s.fsm <;> simp only [hf] at h ⊢ <;> subst ht
  case idle | encCheck | decCheck => exact h
  case encHdr | encPix | encFtr | decChunk | decFtr => exact ⟨h.1.setQueue q, h.2⟩

/-- The invariant does not depend on what the host does next. -/
theorem Inv.setQueue {s : State} (h : Inv s) (q : List HostOp) : Inv { s with hostQ := q } :=
  ⟨h.mem, h.exclusive, h.busyIff, h.code, h.codeOk, h.noResult, h.latched, h.phase.setQueue q⟩

/-! ### The statement -/

/-- Settles O52: by cases on whether the host acts or the engine, whose step keeps to the windows in every phase. -/
theorem invariantNeverFaults : Obligations.InvariantNeverFaults := by
  intro s f hI
  unfold step turn
  split
  · exact engineTurn_not_fault hI.phase f
  · next op rest _ => exact hostTurn_not_fault (hI.setQueue rest).phase op f

end Sys2Proof.Machine
end

section
/-! PROOFS. Encoder and decoder in step (O43). A chunk the encoder chooses for a pixel is, for a decoder with the same
PREV and cache, a chunk that stands for this one pixel (rules R130, R172); so the decoder's codec state after the chunks
of a pixel is the encoder's, and the decoder lacks only the pixels of the run that is still pending. -/

namespace Sys2Proof.Machine

/-! ### What the encoder does to its codec state -/

/-- The codec registers and the pixel count of `s` and `t` agree. -/
structure SameCodec (s t : State) : Prop where
  prev : t.prev = s.prev
  run : t.run = s.run
  cache : t.cache = s.cache
  pix : t.op.pix = s.op.pix

theorem SameCodec.trans {s t u : State} (h : SameCodec s t) (h' : SameCodec t u) : SameCodec s u :=
  ⟨h'.prev.trans h.prev, h'.run.trans h.run, h'.cache.trans h.cache, h'.pix.trans h.pix⟩

/-- Emission does not touch the codec state, wherever the output cursor stands. -/
theorem emitAll_sameCodec {bs : List Byte} {s t : State} {u : Unit} (h : emitAll bs s = .ok u t) : SameCodec s t := by
  induction bs generalizing s with
  | nil => cases h; exact ⟨rfl, rfl, rfl, rfl⟩
  | cons b bs ih =>
    obtain ⟨u', s1, h1, h2⟩ := Acc.bind_eq_ok.1 h
    refine SameCodec.trans ?_ (ih h2)
    rw [(emit_ok h1).2]
    exact ⟨rfl, rfl, rfl, rfl⟩

theorem emitRun_sameCodec {s t : State} {u : Unit} (h : emitRun s = .ok u t) : SameCodec { s with run := 0 } t := by
  obtain ⟨u', s1, h1, h2⟩ := Acc.bind_eq_ok.1 h
  obtain ⟨hp, -, hc, hx⟩ := emitAll_sameCodec h1
  cases h2
  exact ⟨hp, rfl, hc, hx⟩

theorem flushRun_sameCodec {s t : State} {u : Unit} (h : flushRun s = .ok u t) : SameCodec { s with run := 0 } t := by
  unfold flushRun at h
  split at h
  · exact emitRun_sameCodec h
  · next h0 =>
    cases h
    exact ⟨rfl, BitVec.eq_of_toNat_eq (by simpa using h0), rfl, rfl⟩

/-- ENCODE_PIXEL leaves the codec state of `pixelDone`, wherever the output cursor stands. -/
theorem encodePixel_sameCodec {p : Pixel} {last : Bool} {s t : State} {u : Unit} (hr : s.run.toNat ≤ 61)
    (h : encodePixel p last s = .ok u t) : SameCodec (pixelDone p last s) t := by
  unfold encodePixel at h
  split at h
  · next he =>
    simp only [continueRun, run_succ hr, Config.runMax] at h
    split at h
    · next hl =>
      rw [pixelDone_flushed he hl]
      obtain ⟨hp1, hr1, hc1, hx1⟩ := emitRun_sameCodec h
      exact ⟨hp1, hr1, hc1, hx1⟩
    · next hl =>
      rw [pixelDone_counted he hl]
      cases h
      exact ⟨rfl, rfl, rfl, rfl⟩
  · next he =>
    obtain ⟨u1, s1, h1, h2⟩ := Acc.bind_eq_ok.1 h
    obtain ⟨u2, s2, h3, h4⟩ := Acc.bind_eq_ok.1 h2
    obtain ⟨-, hr1, hc1, hx1⟩ := flushRun_sameCodec h1
    obtain ⟨-, hr2, hc2, hx2⟩ := emitAll_sameCodec h3
    rw [storeColour_eq] at hr2 hc2 hx2
    cases h4
    rw [pixelDone_differing he]
    exact ⟨rfl, hr2.trans hr1, by rw [hc2, hc1]; rfl, hx2.trans hx1⟩

/-! ### What the encoder's chunk means to the decoder -/

/-- The decoder's addition undoes the encoder's subtraction, in both delta modes (rule R130). -/
theorem add8_delta (m : Config.DeltaMode) (c q : Byte) : add8 q (delta m c q) = c := by
  cases m with
  | wrap8 =>
    rw [add8, delta, BitVec.ofInt_add, BitVec.ofInt_toInt, BitVec.ofInt_natCast, BitVec.ofNat_toNat,
      BitVec.setWidth_eq, BitVec.add_comm, BitVec.sub_add_cancel]
  | wide => simp [add8, delta]

theorem diffPixel_delta {m : Config.DeltaMode} {prev p : Pixel} (ha : p.a = prev.a) :
    diffPixel prev (delta m p.r prev.r) (delta m p.g prev.g) (delta m p.b prev.b) = p := by
  simp only [diffPixel, add8_delta, ← ha]

theorem lumaPixel_delta {m : Config.DeltaMode} {prev p : Pixel} (ha : p.a = prev.a) :
    lumaPixel prev (delta m p.g prev.g) (delta m p.r prev.r - delta m p.g prev.g)
      (delta m p.b prev.b - delta m p.g prev.g) = p := by
  simp only [lumaPixel, add_sub_cancel, add8_delta, ← ha]

theorem exec_deltaChunk {m : Config.DeltaMode} {prev p : Pixel} {d : State} (hp : d.prev = prev) :
    exec (deltaChunk m prev p) d = decodeTail (streamBytes (deltaChunk m prev p)).length p 1 d := by
  subst hp
  unfold deltaChunk
  dsimp only
  split
  · next ha =>
    split
    · show decodeTail 1 (diffPixel d.prev _ _ _) 1 d = _
      rw [diffPixel_delta ha]
      rfl
    split
    · show decodeTail 2 (lumaPixel d.prev _ _ _) 1 d = _
      rw [lumaPixel_delta ha]
      rfl
    · show decodeTail 4 { r := p.r, g := p.g, b := p.b, a := d.prev.a } 1 d = _
      rw [← ha]
      rfl
  · rfl

/-- The chunk the encoder chooses for a pixel stands for that pixel, in a decoder with the encoder's PREV and cache. -/
theorem exec_chooseChunk {p : Pixel} {e d : State} (hp : d.prev = e.prev) (hc : d.cache = e.cache) :
    exec (chooseChunk p e) d = decodeTail (streamBytes (chooseChunk p e)).length p 1 d := by
  unfold chooseChunk
  split
  · next hk =>
    show decodeTail 1 (d.cache.get (pixelHash p)) 1 d = _
    rw [hc, hk]
    rfl
  · exact exec_deltaChunk hp

/-! ### Chunks that execute to their end -/

/-- The decoder's writes complete: the output fits and the platform answers. -/
structure CanDecode (d : State) : Prop where
  mem : Memory.wf d.mem
  fits : OutputFits d.op
  noFaults : d.cfg.busFaults = false

/-- `t` is the decoder `d` after chunks of `len` bytes that stand for `cnt` pixels, the last of them `p`, with the cache
`c`. -/
structure Decoded (d t : State) (len cnt : Nat) (p : Pixel) (c : Vector Pixel 64) : Prop where
  ready : CanDecode t
  prev : t.prev = p
  cache : t.cache = c
  pixels : t.op.pix.toNat = d.op.pix.toNat + cnt
  cursor : t.op.inPos.toNat = d.op.inPos.toNat + len
  srcLen : t.op.srcLen = d.op.srcLen
  npix : t.op.npix = d.op.npix

/-- A chunk whose bytes and pixels are there executes to its end. -/
theorem decodeTail_decoded {d : State} {len cnt : Nat} (p : Pixel) (hd : CanDecode d)
    (hlen : d.op.inPos.toNat + len ≤ d.op.srcLen.toNat) (hcnt : d.op.pix.toNat + cnt ≤ d.op.npix.toNat) :
    ∃ t, decodeTail len p cnt d = .next t ∧ Decoded d t len cnt p (d.cache.set (pixelHash p) p) := by
  obtain ⟨t, ht, he, hm⟩ := decodeTail_of_ready p
    ⟨hlen, hd.fits, accessesAnswered_of_noFaults hd.noFaults _, hd.mem⟩
  obtain ⟨hch, hcount, hcap, hspace, -⟩ := hd.fits
  have hsrc := d.op.srcLen.isLt
  have hmax : d.op.npix.toNat ≤ 400000000 := hcount
  have hpix : (BitVec.ofNat 32 (min (d.op.pix.toNat + cnt) d.op.npix.toNat)).toNat = d.op.pix.toNat + cnt := by
    rw [BitVec.toNat_ofNat, Nat.mod_eq_of_lt (by omega), Nat.min_eq_left hcnt]
  have hpos : (BitVec.ofNat 32 (d.op.inPos.toNat + len)).toNat = d.op.inPos.toNat + len := by
    rw [BitVec.toNat_ofNat, Nat.mod_eq_of_lt (by omega)]
  refine ⟨t, ht, ⟨hm, ?_, ?_⟩, ?_, ?_, ?_, ?_, ?_, ?_⟩ <;> rw [he.fields]
  · exact ⟨hch, hcount, hcap, hspace, by rw [hpix]; exact hcnt⟩
  · exact hd.noFaults
  · exact hpix
  · exact hpos

/-- A RUN chunk repeats PREV and leaves the cache as it is. -/
theorem exec_run_decoded {d : State} {len : Nat} (hd : CanDecode d) (hc : d.cache.get (pixelHash d.prev) = d.prev)
    (hlen : d.op.inPos.toNat + 1 ≤ d.op.srcLen.toNat) (hcnt : d.op.pix.toNat + len ≤ d.op.npix.toNat) :
    ∃ t, exec (.run len) d = .next t ∧ Decoded d t 1 len d.prev d.cache := by
  have h := decodeTail_decoded d.prev hd hlen hcnt
  rwa [cache_set_own hc] at h

/-- Flushing a run of `n` pixels, none of them if `n` is 0. -/
theorem execAll_flush {d : State} {n : Nat} (is : List Instr) (hd : CanDecode d)
    (hc : d.cache.get (pixelHash d.prev) = d.prev)
    (hlen : d.op.inPos.toNat + (bytesOfChunks (if n > 0 then [.run n] else [])).length ≤ d.op.srcLen.toNat)
    (hcnt : d.op.pix.toNat + n ≤ d.op.npix.toNat) :
    ∃ t, execAll ((if n > 0 then [.run n] else []) ++ is) d = execAll is t ∧
      Decoded d t (bytesOfChunks (if n > 0 then [.run n] else [])).length n d.prev d.cache := by
  split
  · next h0 =>
    rw [if_pos h0] at hlen
    obtain ⟨t, ht, hD⟩ := exec_run_decoded hd hc hlen hcnt
    exact ⟨t, by rw [List.singleton_append, execAll, ht], hD⟩
  · next h0 =>
    obtain rfl : n = 0 := by omega
    exact ⟨d, rfl, hd, rfl, rfl, rfl, rfl, rfl, rfl⟩

/-- The chunks of a pixel, executed by a decoder in step with the encoder: its codec state becomes the encoder's, and
it lacks the pixels of the encoder's run. -/
theorem execAll_pixelChunks {e d : State} {p : Pixel} {last : Bool} (hcod : CodecOk e) (hin : InStep e d)
    (hr : e.run.toNat ≤ 61) (hd : CanDecode d) (hcnt : e.op.pix.toNat + 1 ≤ d.op.npix.toNat)
    (hlen : d.op.inPos.toNat + (bytesOfChunks (pixelChunks p last e)).length ≤ d.op.srcLen.toNat) :
    ∃ t cnt, execAll (pixelChunks p last e) d = .next t ∧
      Decoded d t (bytesOfChunks (pixelChunks p last e)).length cnt p (pixelDone p last e).cache ∧
      d.op.pix.toNat + cnt + (pixelDone p last e).run.toNat = e.op.pix.toNat + 1 := by
  obtain ⟨hprev, hcache, hpix⟩ := hin
  have hown : d.cache.get (pixelHash d.prev) = d.prev := by rw [hprev, hcache]; exact hcod.own
  by_cases he : p = e.prev
  · by_cases hl : e.run.toNat + 1 = 62 ∨ last = true
    · have hcs : pixelChunks p last e = [.run (e.run.toNat + 1)] := by rw [pixelChunks, if_pos he, if_pos hl]
      rw [hcs] at hlen ⊢
      obtain ⟨t, ht, hD⟩ := exec_run_decoded (len := e.run.toNat + 1) hd hown hlen (by omega)
      rw [hprev, hcache, ← he] at hD
      rw [pixelDone_flushed he hl]
      exact ⟨t, _, by rw [execAll, ht]; rfl, hD, by show _ + 0 = _; omega⟩
    · have hcs : pixelChunks p last e = [] := by rw [pixelChunks, if_pos he, if_neg hl]
      rw [hcs, pixelDone_counted he hl]
      refine ⟨d, 0, rfl, ⟨hd, hprev.trans he.symm, hcache, rfl, rfl, rfl, rfl⟩, ?_⟩
      show _ + 0 + (e.run + 1).toNat = _
      rw [run_succ hr]
      omega
  · have hcs : pixelChunks p last e = (if e.run.toNat > 0 then [.run e.run.toNat] else []) ++ [chooseChunk p e] := by
      rw [pixelChunks, if_neg he]
    have hbytes : (bytesOfChunks (pixelChunks p last e)).length =
        (bytesOfChunks (if e.run.toNat > 0 then [.run e.run.toNat] else [])).length +
          (streamBytes (chooseChunk p e)).length := by
      rw [hcs]
      simp [bytesOfChunks]
    rw [hbytes] at hlen ⊢
    rw [hcs, pixelDone_differing he]
    obtain ⟨d1, h1, hd1, hp1, hc1, hx1, hi1, hs1, hn1⟩ := execAll_flush [chooseChunk p e] (n := e.run.toNat) hd hown
      (by omega) (by omega)
    obtain ⟨t, ht, hdt, hpt, hct, hxt, hit, hst, hnt⟩ := decodeTail_decoded (cnt := 1)
      (len := (streamBytes (chooseChunk p e)).length) p hd1 (by rw [hi1, hs1]; omega) (by rw [hx1, hn1]; omega)
    rw [← exec_chooseChunk (hp1.trans hprev) (hc1.trans hcache)] at ht
    refine ⟨t, e.run.toNat + 1, by rw [h1, execAll, ht]; rfl, ⟨hdt, hpt, ?_, by omega, by omega, hst.trans hs1,
      hnt.trans hn1⟩, by show _ + 0 = _; omega⟩
    rw [hct, hc1, hcache]
    rfl

/-! ### The statement -/

/-- Settles O43: by cases on whether the pixel is counted, ends a run or differs from PREV, with the decoder's state after
the chunks of each. -/
theorem encoderAndDecoderStayInStep : Obligations.EncoderAndDecoderStayInStep := by
  intro e e1 d p last hcod hin hr henc hpix hm hf hb hcnt hlen
  obtain ⟨t, cnt, ht, hD, hx⟩ := execAll_pixelChunks hcod hin hr ⟨hm, hf, hb⟩ hcnt hlen
  obtain ⟨hp1, hr1, hc1, hx1⟩ := encodePixel_sameCodec hr henc
  refine ⟨t, ht, ⟨hD.prev.trans hp1.symm, hD.cache.trans hc1.symm, ?_⟩, hD.cursor⟩
  have hx1' : e1.op.pix = e.op.pix := hx1
  show t.op.pix.toNat + e1.run.toNat = (e1.op.pix + 1).toNat
  rw [hx1', hr1, word_succ hpix, hD.pixels, hx]

end Sys2Proof.Machine
end

section
/-! PROOFS. The invariant along every step (O51), from reset on (O50). An engine step keeps it in each phase
(Laws/Invariant.lean). A host action either leaves the operation and its status as they are, or starts an operation, or
resets the engine. -/

namespace Sys2Proof.Machine

/-! ### Reset -/

/-- An engine in reset meets the invariant, whatever the memory in its canonical form holds. -/
theorem inv_of_reset {m : Memory} (hm : Memory.wf m) (c : Config.Params) (d : Nat) (q : List HostOp) (v : Word) :
    Inv { State.reset with cfg := c, mem := m, draws := d, hostQ := q, rdata := v } :=
  ⟨hm, ⟨rfl, rfl, rfl⟩, ⟨nofun, fun h => (h rfl).elim⟩, Nat.zero_le 9, ⟨fun _ => rfl, nofun⟩, fun _ => rfl, nofun,
    ⟨rfl, rfl, rfl⟩⟩

theorem hostReset_inv {s : State} (hm : Memory.wf s.mem) : Inv (hostReset s) := inv_of_reset (resetOutput_wf hm) _ _ _ _

/-- Settles O50: the state after reset is an engine in reset with empty memory. -/
theorem resetMeetsInvariant : Obligations.ResetMeetsInvariant := inv_of_reset reset_mem_wf _ _ _ _

/-! ### The engine -/

theorem engineTurn_inv {s t : State} (hI : Inv s) (h : engineTurn exec s = .next t) : Inv t := by
  unfold engineTurn at h
  cases hf : s.fsm <;> simp only [hf] at h
  case idle => cases h; exact hI
  case encCheck => exact encCheck_inv hI hf h
  case encHdr => exact encHeader_inv hI hf h
  case encPix => exact encPixel_inv hI hf h
  case encFtr => exact encFooter_inv hI hf h
  case decCheck => exact decCheck_inv hI hf h
  case decChunk => exact decChunk_inv hI hf h
  case decFtr => exact decFooter_inv hI hf h

/-! ### Host actions that leave the operation alone -/

/-- The operation of `s` goes on in `t`; the marks of a broken duty may change while it runs (rule R75). -/
structure SameOperation (s t : State) : Prop where
  fsm : t.fsm = s.fsm := by rfl
  op : t.op = s.op := by rfl
  prev : t.prev = s.prev := by rfl
  run : t.run = s.run := by rfl
  cache : t.cache = s.cache := by rfl
  reach : t.reach = s.reach := by rfl
  idleTaint : s.fsm = .idle → t.inTaint = s.inTaint ∧ t.outTaint = s.outTaint := by exact fun _ => ⟨rfl, rfl⟩

theorem EncodeOk.same {s t : State} (h : EncodeOk s) (hs : SameOperation s t) : EncodeOk t :=
  ⟨hs.op ▸ h.mode, hs.op ▸ h.checked, hs.op ▸ h.input, hs.op ▸ h.output, h.codec.same hs.prev hs.cache,
    by rw [hs.op, hs.prev]; exact h.opaqueAlpha, by rw [hs.op, hs.reach]; exact h.reached⟩

theorem DecodeOk.same {s t : State} (h : DecodeOk s) (hs : SameOperation s t) : DecodeOk t :=
  ⟨hs.op ▸ h.mode, hs.op ▸ h.checked, hs.op ▸ h.output, h.codec.same hs.prev hs.cache, hs.op ▸ h.cursor,
    hs.run.trans h.runUnused, by rw [hs.op, hs.reach]; exact h.reached⟩

theorem PhaseOk.same {s t : State} (h : PhaseOk s) (hs : SameOperation s t) : PhaseOk t := by
  rw [PhaseOk] at h ⊢
  rw [hs.fsm, hs.op, hs.run, hs.reach]
  cases hf : s.fsm <;> simp only [hf] at h ⊢
  case idle =>
    obtain ⟨h1, h2⟩ := hs.idleTaint hf
    rw [h1, h2]
    exact h
  case encCheck | decCheck => exact h
  case encHdr | encPix | encFtr | decChunk | decFtr => exact ⟨h.1.same hs, h.2⟩

/-- A host action from `s` to `t` that leaves the operation alone: it may clear DONE or ERR, and change CTRL.MODE only
while the engine is IDLE (rules R22, R234). What is not given has not changed. -/
structure LeavesOperation (s t : State) : Prop where
  operation : SameOperation s t := by exact {}
  mem : Memory.wf s.mem → Memory.wf t.mem := by exact id
  busy : t.busy = s.busy := by rfl
  done : t.done = true → s.done = true := by exact id
  err : t.err = true → s.err = true := by exact id
  code : t.errCode = s.errCode := by rfl
  outLen : t.outLen = s.outLen := by rfl
  ctrl : s.busy = true → t.ctrlMode = s.ctrlMode := by exact fun _ => rfl

theorem and_eq_false_of_imp : ∀ {a b c d : Bool}, (c = true → a = true) → (d = true → b = true) →
    (a && b) = false → (c && d) = false := by decide

theorem Inv.leaves {s t : State} (hI : Inv s) (h : LeavesOperation s t) : Inv t := by
  obtain ⟨hop, hm, hb, hd, he, hc, ho, hl⟩ := h
  obtain ⟨x1, x2, x3⟩ := hI.exclusive
  obtain ⟨c1, c2⟩ := hI.codeOk
  refine ⟨hm hI.mem, ⟨?_, ?_, and_eq_false_of_imp hd he x3⟩, ?_, ?_, ⟨?_, ?_⟩, ?_, ?_, hI.phase.same hop⟩
  · rw [hb]; exact and_eq_false_of_imp id hd x1
  · rw [hb]; exact and_eq_false_of_imp id he x2
  · rw [hb, hop.fsm]; exact hI.busyIff
  · rw [hc]; exact hI.code
  · rw [hb, hc]; exact fun h => c1 (h.imp_right hd)
  · rw [hc]; exact fun h => c2 (he h)
  · rw [hb, ho]; exact fun h => hI.noResult (h.imp_right he)
  · rw [hb, hop.op]; exact fun h => (hl h).trans (hI.latched h)

/-- Writes of the configuration registers leave the operation alone. -/
theorem writeConfig_leaves (offset : BitVec 8) (v : Word) (s : State) : LeavesOperation s (writeConfig offset v s) := by
  unfold writeConfig
  split
  · exact {}
  · split <;> exact {}

theorem flagsClear_leaves (d r : Bool) (s : State) : LeavesOperation s (flagsClear d r s) :=
  { done := fun h => (Bool.and_eq_true_iff.1 h).1, err := fun h => (Bool.and_eq_true_iff.1 h).1 }

/-! ### Commands -/

theorem startOperation_inv {s : State} (hm : Memory.wf s.mem) (mode : Mode) (q : Bool) :
    Inv (startOperation mode q s) := by
  cases mode <;>
    exact ⟨hm, ⟨rfl, rfl, rfl⟩, ⟨fun _ => nofun, fun _ => rfl⟩, Nat.zero_le 9, ⟨fun _ => rfl, nofun⟩, fun _ => rfl,
      fun _ => rfl, by simp [PhaseOk, startOperation, startLatches, startFsm]⟩

theorem writeStart_inv {s t : State} {mode : Mode} {q : Bool} (hI : Inv s) (h : writeStart mode q s = .next t) :
    Inv t := by
  unfold writeStart at h
  split at h <;> cases h
  · exact hI.leaves {}
  · exact startOperation_inv hI.mem mode q

theorem execSetIrqEn_inv {s t : State} {mode : Mode} {q : Bool} (hI : Inv s) (h : execSetIrqEn mode q s = .next t) :
    Inv t := by
  cases h
  exact hI.leaves { ctrl := fun hb => if_pos hb }

theorem exec_decodeCtrl_inv {s t : State} {v : Word} (hI : Inv s) (h : exec (decodeCtrl v) s = .next t) : Inv t := by
  unfold decodeCtrl at h
  split at h
  · split at h
    · exact writeStart_inv (mode := .decode) hI h
    · exact writeStart_inv (mode := .encode) hI h
  · exact execSetIrqEn_inv hI h

theorem hostRegWrite_inv {s t : State} {offset : BitVec 8} {size : AccessSize} {v : Word} (hI : Inv s)
    (h : hostRegWrite exec offset size v s = .next t) : Inv t := by
  unfold hostRegWrite at h
  split at h
  · by_cases hc : offset = ctrlOffset
    · rw [hc, decodeRegWrite_ctrl] at h
      exact exec_decodeCtrl_inv hI h
    · by_cases hs : offset = statusOffset
      · rw [hs, decodeRegWrite_status] at h
        cases h
        exact hI.leaves (flagsClear_leaves _ _ s)
      · rw [decodeRegWrite_other v hc hs] at h
        cases h
        exact hI.leaves (writeConfig_leaves offset v s)
  · cases h

theorem hostCycleWrite_inv {s t : State} {reg : CommandReg} {v : Word} (hI : Inv s)
    (h : hostCycleWrite exec reg v s (engineTurn exec s) = .next t) : Inv t := by
  cases hx : engineTurn exec s <;> rw [hx] at h
  case next u => exact hostRegWrite_inv (engineTurn_inv hI hx) h
  case fault | refused => cases h

/-! ### Reads, memory accesses -/

theorem hostRegRead_inv {s t : State} {offset : BitVec 8} {size : AccessSize} (hI : Inv s)
    (h : hostRegRead offset size s = .next t) : Inv t := by
  unfold hostRegRead at h
  split at h <;> cases h
  exact hI.leaves {}

theorem Inv.busy_idle {s : State} (hI : Inv s) (hf : s.fsm = .idle) : s.busy = false :=
  Bool.eq_false_iff.2 fun hb => hI.busyIff.1 hb hf

theorem hostMemWrite_inv {s t : State} {addr : Word} {v : Byte} (hI : Inv s) (h : hostMemWrite addr v s = .next t) :
    Inv t := by
  unfold hostMemWrite at h
  split at h <;> cases h
  exact hI.leaves {
    operation := { idleTaint := fun hf => by simp [hI.busy_idle hf] }
    mem := fun hm => Memory.wf_write hm addr.isLt v }

theorem hostMemRead_inv {s t : State} {addr : Word} (hI : Inv s) (h : hostMemRead addr s = .next t) : Inv t := by
  unfold hostMemRead at h
  split at h
  · cases h
  split at h <;> cases h
  · next hb =>
    exact hI.leaves { operation := { idleTaint := fun hf => by simp [hI.busy_idle hf] at hb } }
  · exact hI.leaves {}

theorem hostTurn_inv {s t : State} {op : HostOp} (hI : Inv s) (h : hostTurn exec op s = .next t) : Inv t := by
  cases op with
  | engineTurn => exact engineTurn_inv hI h
  | regWrite offset size v => exact hostRegWrite_inv hI h
  | cycleWrite reg v => exact hostCycleWrite_inv hI h
  | regRead offset size => exact hostRegRead_inv hI h
  | memWrite addr v => exact hostMemWrite_inv hI h
  | memRead addr => exact hostMemRead_inv hI h
  | rst => cases h; exact hostReset_inv hI.mem

/-! ### The statement -/

/-- Settles O51: by cases on whether the host acts or the engine. -/
theorem stepKeepsInvariant : Obligations.StepKeepsInvariant := by
  intro s t hI h
  unfold step turn at h
  split at h
  · exact engineTurn_inv hI h
  · next op rest _ => exact hostTurn_inv (hI.setQueue rest) h

end Sys2Proof.Machine
end

section
/-! PROOFS. A running operation reads only its latches (O55). An engine step reads and writes the engine's own fields and
no others, so it is the same step wherever the engine stands: what the host has written to its registers, and what it
does next, passes through the step unchanged. -/

namespace Sys2Proof.Machine

/-! ### The engine of one state among the host registers of another -/

/-- The engine of `s` where everything an engine step of an operation does not read is as in `u`: the host registers, the
host's queue and the record of its last read. ENC_DELTA_MODE is `u`'s too, which only the encoder reads (rule R213). -/
def among (u s : State) : State :=
  { s with
    cfg := { s.cfg with deltaMode := u.cfg.deltaMode }
    ctrlMode := u.ctrlMode, irqEn := u.irqEn, width := u.width, height := u.height, channels := u.channels
    colorspace := u.colorspace, srcBase := u.srcBase, srcLen := u.srcLen, dstBase := u.dstBase, dstCap := u.dstCap
    hostQ := u.hostQ, rdata := u.rdata }

theorem among_self (s : State) : among s s = s := rfl

theorem withHostRegs_eq_among (r : HostRegs) (s : State) : withHostRegs r s = among (withHostRegs r s) s := rfl

/-! ### Sequencing -/

theorem Acc.bind_mapState {α β : Type} {f : State → State} {x : Acc α} {k k' : α → State → Acc β}
    (h : ∀ a s, x = .ok a s → k a (f s) = (k' a s).mapState f) :
    (x.mapState f).bind k = (x.bind k').mapState f := by
  cases x with
  | ok a s => exact h a s rfl
  | raised e s => rfl
  | fault r => rfl

theorem Acc.finish_mapState {α : Type} {f g : State → State} {x : Acc α} {k k' : α → State → Answer}
    (hr : ∀ e s, raise e (f s) = g (raise e s)) (h : ∀ a s, x = .ok a s → k a (f s) = mapNext g (k' a s)) :
    (x.mapState f).finish k = mapNext g (x.finish k') := by
  cases x with
  | ok a s => exact h a s rfl
  | raised e s => exact congrArg Host.Outcome.next (hr e s)
  | fault r => rfl

theorem raise_among (u : State) (e : ErrKind) (s : State) : raise e (among u s) = among u (raise e s) := rfl

theorem complete_among (u : State) (n : Word) (s : State) : complete n (among u s) = among u (complete n s) := by
  unfold complete settleOutput
  cases h : s.outTaint
  · rw [if_neg (by rw [show (among u s).outTaint = s.outTaint from rfl, h]; decide)]
    rfl
  · rw [if_pos (by rw [show (among u s).outTaint = s.outTaint from rfl, h])]
    rfl

/-! ### Accesses -/

theorem busAnswer_among (u s : State) : busAnswer (among u s) = (busAnswer s).mapState (among u) := by
  unfold busAnswer
  show (if s.cfg.busFaults then (if Config.busError s.draws then _ else _) else _) = _
  split
  · split <;> rfl
  · rfl

theorem srcByte_among (u s : State) (a : Nat) : srcByte a (among u s) = (srcByte a s).mapState (among u) := by
  unfold srcByte
  show (if s.inTaint then _ else _) = _
  split <;> rfl

theorem readIn_among (u s : State) (off : Nat) : readIn off (among u s) = (readIn off s).mapState (among u) := by
  unfold readIn
  show (if Config.addressSpace ≤ s.op.srcBase.toNat + off then _ else _) = _
  split
  · rfl
  · rw [busAnswer_among]
    exact Acc.bind_mapState fun _ s1 _ => srcByte_among u s1 _

theorem writeOut_among (u s : State) (off : Nat) (v : Byte) :
    writeOut off v (among u s) = (writeOut off v s).mapState (among u) := by
  rw [writeOut_eq, writeOut_eq]
  show (if Config.addressSpace ≤ s.op.dstBase.toNat + off then _ else if s.cfg.busFaults = true then
    if Config.busError s.draws = true then _ else _ else _) = _
  split
  · rfl
  · split
    · split <;> rfl
    · rfl

theorem readBytes_among (u : State) (n off : Nat) (s : State) :
    readBytes n off (among u s) = (readBytes n off s).mapState (among u) := by
  induction n generalizing off s with
  | zero => rfl
  | succ n ih =>
    rw [readBytes, readBytes, readIn_among]
    refine Acc.bind_mapState fun b s1 _ => ?_
    rw [ih]
    exact Acc.bind_mapState fun _ _ _ => rfl

theorem writeBytes_among (u : State) (bs : List Byte) (off : Nat) (s : State) :
    writeBytes bs off (among u s) = (writeBytes bs off s).mapState (among u) := by
  induction bs generalizing off s with
  | nil => rfl
  | cons b bs ih =>
    rw [writeBytes, writeBytes, writeOut_among]
    exact Acc.bind_mapState fun _ s1 _ => ih _ s1

theorem emit_among (u : State) (b : Byte) (s : State) : emit b (among u s) = (emit b s).mapState (among u) := by
  rw [emit, emit]
  show (writeOut s.op.outPos.toNat b (among u s)).bind _ = _
  rw [writeOut_among]
  exact Acc.bind_mapState fun _ _ _ => rfl

theorem emitAll_among (u : State) (bs : List Byte) (s : State) :
    emitAll bs (among u s) = (emitAll bs s).mapState (among u) := by
  induction bs generalizing s with
  | nil => rfl
  | cons b bs ih =>
    rw [emitAll, emitAll, emit_among]
    exact Acc.bind_mapState fun _ s1 _ => ih s1

/-- What passes through unchanged is kept. -/
theorem among_of_ok {α : Type} {s t : State} {x : Acc α} {a : α} (hx : x = x.mapState (among s)) (h : x = .ok a t) :
    among s t = t := by
  rw [h] at hx
  exact (Acc.ok.inj hx).2.symm

/-! ### The encode steps -/

theorem checkWindows_among {u s : State} {k k' : Answer} (h : k' = mapNext (among u) k) :
    checkWindows (among u s) k' = mapNext (among u) (checkWindows s k) := by
  unfold checkWindows
  show (if windowsIllegal s.op then _ else if windowsOverRegisters s then _ else _) = _
  split
  · rfl
  · split
    · rfl
    · exact h

theorem encCheck_among (u s : State) : encCheck (among u s) = mapNext (among u) (encCheck s) := by
  refine checkWindows_among ?_
  show (match encodeError s.op with | some e => _ | none => _) = _
  cases encodeError s.op <;> rfl

theorem encHeader_among (u s : State) : encHeader (among u s) = mapNext (among u) (encHeader s) := by
  rw [encHeader, encHeader]
  show (emitAll (headerBytes s.op.w s.op.h s.op.ch s.op.cs) (among u s)).finish _ = _
  rw [emitAll_among]
  exact Acc.finish_mapState (raise_among u) fun _ _ _ => rfl

theorem emitRun_among (u s : State) : emitRun (among u s) = (emitRun s).mapState (among u) := by
  rw [emitRun, emitRun]
  show (emitAll (streamBytes (.run s.run.toNat)) (among u s)).bind _ = _
  rw [emitAll_among]
  exact Acc.bind_mapState fun _ _ _ => rfl

theorem flushRun_among (u s : State) : flushRun (among u s) = (flushRun s).mapState (among u) := by
  unfold flushRun
  show (if s.run.toNat > 0 then _ else _) = _
  split
  · exact emitRun_among u s
  · rfl

theorem continueRun_among (u : State) (last : Bool) (s : State) :
    continueRun last (among u s) = (continueRun last s).mapState (among u) := by
  unfold continueRun
  show (if (s.run + 1).toNat = Config.runMax ∨ last = true then _ else _) = _
  dsimp only
  split
  · exact emitRun_among u { s with run := s.run + 1 }
  · rfl

/-- The encoder's choice of a chunk depends on ENC_DELTA_MODE alone of what is around the engine. -/
theorem chooseChunk_among {u s : State} (hd : u.cfg.deltaMode = s.cfg.deltaMode) (p : Pixel) :
    chooseChunk p (among u s) = chooseChunk p s := by
  unfold chooseChunk
  rw [show (among u s).cfg.deltaMode = s.cfg.deltaMode from hd]
  rfl

theorem encodeDiffering_among {u s : State} (hd : u.cfg.deltaMode = s.cfg.deltaMode) (p : Pixel) :
    encodeDiffering p (among u s) = (encodeDiffering p s).mapState (among u) := by
  rw [encodeDiffering, encodeDiffering, flushRun_among]
  refine Acc.bind_mapState fun _ s1 h1 => ?_
  have hs1 := among_of_ok (flushRun_among s s) h1
  rw [chooseChunk_among (hd.trans (by rw [← hs1]; rfl)), storeColour_eq, storeColour_eq]
  show (emitAll _ (among u { s1 with cache := s1.cache.set (pixelHash p) p })).bind _ = _
  rw [emitAll_among]
  exact Acc.bind_mapState fun _ _ _ => rfl

theorem encodePixel_among {u s : State} (hd : u.cfg.deltaMode = s.cfg.deltaMode) (p : Pixel) (last : Bool) :
    encodePixel p last (among u s) = (encodePixel p last s).mapState (among u) := by
  unfold encodePixel
  show (if p = s.prev then _ else _) = _
  split
  · exact continueRun_among u last s
  · exact encodeDiffering_among hd p

theorem fetchPixel_among (u s : State) : fetchPixel (among u s) = (fetchPixel s).mapState (among u) := by
  rw [fetchPixel, fetchPixel, readBytes_among]
  exact Acc.bind_mapState fun _ _ _ => rfl

theorem encPixel_among {u s : State} (hd : u.cfg.deltaMode = s.cfg.deltaMode) :
    encPixel (among u s) = mapNext (among u) (encPixel s) := by
  rw [encPixel, encPixel, fetchPixel_among]
  refine Acc.finish_mapState (raise_among u) fun p s1 h1 => ?_
  have hs1 := among_of_ok (fetchPixel_among s s) h1
  show (encodePixel p (isLastPixel s1) (among u s1)).finish _ = _
  rw [encodePixel_among (hd.trans (by rw [← hs1]; rfl))]
  exact Acc.finish_mapState (raise_among u) fun _ _ _ => rfl

theorem encFooter_among (u s : State) : encFooter (among u s) = mapNext (among u) (encFooter s) := by
  rw [encFooter, encFooter, emitAll_among]
  exact Acc.finish_mapState (raise_among u) fun _ s1 _ => congrArg Host.Outcome.next (complete_among u _ s1)

/-! ### The decode steps -/

theorem writePixels_among (u : State) (p : Pixel) (n : Nat) (s : State) :
    writePixels p n (among u s) = (writePixels p n s).mapState (among u) := by
  induction n generalizing s with
  | zero => rfl
  | succ n ih =>
    rw [writePixels_succ, writePixels_succ, writeBytes_among]
    exact Acc.bind_mapState fun _ s1 _ => ih (advancePix 1 s1)

theorem decodeTail_among (u : State) (len : Nat) (p : Pixel) (cnt : Nat) (s : State) :
    decodeTail len p cnt (among u s) = mapNext (among u) (decodeTail len p cnt s) := by
  unfold decodeTail
  show (if s.op.inPos.toNat + len > s.op.srcLen.toNat then _ else
    (writePixels p (min cnt (pixelsLeft s)) (among u (cacheUpdate p (advanceCursor len s)))).finish _) = _
  split
  · rfl
  · rw [writePixels_among]
    exact Acc.finish_mapState (raise_among u) fun _ _ _ => rfl

/-- The stream chunks among the instructions. -/
def isChunk : Instr → Bool
  | .rgb _ _ _ | .rgba _ _ _ _ | .index _ | .diff _ _ _ | .luma _ _ _ | .run _ => true
  | _ => false

theorem decodeChunk_isChunk {bs rest : List Byte} {i : Instr} (h : decodeChunk bs = .ok (i, rest)) :
    isChunk i = true := by
  unfold decodeChunk decodeRgb decodeRgba decodeLuma at h
  repeat' split at h
  all_goals cases h <;> rfl

theorem exec_chunk_among {i : Instr} (hi : isChunk i = true) (u s : State) :
    exec i (among u s) = mapNext (among u) (exec i s) := by
  cases i with
  | rgb r g b => exact decodeTail_among u 4 _ 1 s
  | rgba r g b a => exact decodeTail_among u 5 _ 1 s
  | index k => exact decodeTail_among u 1 _ 1 s
  | diff dr dg db => exact decodeTail_among u 1 _ 1 s
  | luma dg drg dbg => exact decodeTail_among u 2 _ 1 s
  | run len => exact decodeTail_among u 1 _ len s
  | _ => cases hi

theorem execHeader_among (u : State) (w h : Word) (ch cs : Byte) (s : State) :
    execHeader w h ch cs (among u s) = mapNext (among u) (execHeader w h ch cs s) := by
  unfold execHeader
  show (match headerError w h ch s.op.dstCap with | some e => _ | none => _) = _
  cases headerError w h ch s.op.dstCap <;> rfl

theorem decCheck_among (u s : State) : decCheck exec (among u s) = mapNext (among u) (decCheck exec s) := by
  refine checkWindows_among ?_
  show (if s.op.srcLen.toNat < Config.headerLen + Config.footerLen then _ else _) = _
  split
  · rfl
  · rw [readBytes_among]
    refine Acc.finish_mapState (raise_among u) fun m s1 _ => ?_
    split
    · rfl
    · rw [readBytes_among]
      refine Acc.finish_mapState (raise_among u) fun bs s2 _ => ?_
      unfold runDecoded
      split
      · next hd =>
        obtain ⟨w, h, ch, cs, rfl⟩ := decodeHeader_ok hd
        exact execHeader_among u w h ch cs s2
      · rfl

theorem decChunk_among (u s : State) : decChunk exec (among u s) = mapNext (among u) (decChunk exec s) := by
  unfold decChunk
  show (if s.op.inPos.toNat + 1 > s.op.srcLen.toNat then _ else
    (readIn s.op.inPos.toNat (among u s)).finish _) = _
  split
  · rfl
  · rw [readIn_among]
    refine Acc.finish_mapState (raise_among u) fun t s1 _ => ?_
    show (if s1.op.inPos.toNat + chunkLength t > s1.op.srcLen.toNat then _ else
      (readBytes (chunkLength t - 1) (s1.op.inPos.toNat + 1) (among u s1)).finish _) = _
    split
    · rfl
    · rw [readBytes_among]
      refine Acc.finish_mapState (raise_among u) fun bs s2 _ => ?_
      unfold runDecoded
      split
      · next hd => exact exec_chunk_among (decodeChunk_isChunk hd) u s2
      · rfl

/-- The engine of `t` among the host registers of `u`, but for the result registers a completed decode has written. -/
def amongResult (u t : State) : State :=
  if t.done = true then
    among { u with width := t.width, height := t.height, channels := t.channels, colorspace := t.colorspace } t
  else among u t

theorem complete_writeResult_among (u : State) (n : Word) (s : State) :
    complete n (writeResult (among u s)) = amongResult u (complete n (writeResult s)) := by
  rw [amongResult, if_pos (complete_done _ _), complete_width, complete_height, complete_channels,
    complete_colorspace, ← complete_among]
  rfl

theorem execFooter_among (u s : State) : execFooter (among u s) = mapNext (amongResult u) (execFooter s) := by
  unfold execFooter
  show (if s.op.inPos.toNat + Config.footerLen > s.op.srcLen.toNat then _ else
    if s.op.inPos.toNat + Config.footerLen ≠ s.op.srcLen.toNat then _ else _) = _
  split
  · rfl
  · split
    · rfl
    · exact congrArg Host.Outcome.next (complete_writeResult_among u _ s)

theorem decFooter_among (u s : State) : decFooter exec (among u s) = mapNext (amongResult u) (decFooter exec s) := by
  unfold decFooter
  show (if s.op.inPos.toNat + Config.footerLen > s.op.srcLen.toNat then _ else
    (readBytes Config.footerLen s.op.inPos.toNat (among u s)).finish _) = _
  split
  · rfl
  · rw [readBytes_among]
    refine Acc.finish_mapState (fun _ _ => rfl) fun bs s1 _ => ?_
    unfold runDecoded
    split
    · next hd =>
      rw [decodeFooter_ok hd]
      exact execFooter_among u s1
    · rfl

/-! ### The engine -/

/-- An engine step is the same step among other host registers. -/
theorem engineTurn_among {u s : State} (hf : s.fsm ≠ .decFtr) (hd : u.cfg.deltaMode = s.cfg.deltaMode) :
    engineTurn exec (among u s) = mapNext (among u) (engineTurn exec s) := by
  unfold engineTurn
  rw [show (among u s).fsm = s.fsm from rfl]
  cases h : s.fsm with
  | idle => rfl
  | encCheck => exact encCheck_among u s
  | encHdr => exact encHeader_among u s
  | encPix => exact encPixel_among hd
  | encFtr => exact encFooter_among u s
  | decCheck => exact decCheck_among u s
  | decChunk => exact decChunk_among u s
  | decFtr => exact absurd h hf

theorem engineTurn_amongResult (u : State) {s : State} (hf : s.fsm = .decFtr) :
    engineTurn exec (among u s) = mapNext (amongResult u) (engineTurn exec s) := by
  unfold engineTurn
  rw [show (among u s).fsm = s.fsm from rfl, hf]
  exact decFooter_among u s

theorem mapNext_congr {f g : State → State} {x : Answer} (h : ∀ t, x = .next t → f t = g t) :
    mapNext f x = mapNext g x := by
  cases x with
  | next t => exact congrArg Host.Outcome.next (h t rfl)
  | fault r => rfl
  | refused r => rfl

theorem eq_of_mapNext {f : State → State} {x : Answer} {t : State} (hx : x = mapNext f x) (h : x = .next t) :
    t = f t := by
  rw [h] at hx
  exact Host.Outcome.next.inj hx

/-! ### The statement -/

/-- Settles O55: an engine step is the same step among the host registers `r`, and it leaves its own host registers
alone. -/
theorem operationIgnoresHostRegisters : Obligations.OperationIgnoresHostRegisters := by
  refine fun s r => ⟨fun hf => ?_, fun hf => ?_⟩
  · rw [withHostRegs_eq_among, engineTurn_among (u := withHostRegs r s) hf rfl]
    refine mapNext_congr fun t ht => ?_
    have hkeep : t = among s t := eq_of_mapNext (engineTurn_among (u := s) hf rfl) ht
    rw [hkeep]
    rfl
  · rw [withHostRegs_eq_among, engineTurn_amongResult _ hf]
    refine mapNext_congr fun t ht => ?_
    have hkeep : t = amongResult s t := eq_of_mapNext (engineTurn_amongResult s hf) ht
    unfold amongResult at hkeep ⊢
    split
    · next hd =>
      rw [if_pos hd] at hkeep
      rw [hkeep]
      rfl
    · next hd =>
      rw [if_neg hd] at hkeep
      rw [hkeep]
      rfl

end Sys2Proof.Machine
end

section
/-! PROOFS. The pending run (O39). A pixel step that leaves a run pending emitted nothing, so memory is as it was; the
pixel it counted equals PREV, as do the pixels counted before it. -/

namespace Sys2Proof.Machine

theorem pixelAt_congr {s t : State} (hm : t.mem = s.mem) (hb : t.op.srcBase = s.op.srcBase) (hc : t.op.ch = s.op.ch)
    (n : Nat) : pixelAt t n = pixelAt s n := by
  unfold pixelAt
  rw [hm, hb, hc]

/-- A step that leaves no run pending owes nothing. -/
theorem pendingRun_of_run_zero {t : State} (h : t.run = 0) : PendingRun t := fun i hi => by
  rw [h] at hi
  exact absurd hi (Nat.not_lt_zero i)

/-- Counting a pixel that equals PREV keeps the pending run. -/
theorem PendingRun.counted {s t : State} (h : PendingRun s) (hr : s.run.toNat ≤ 61) (hp : s.op.pix.toNat + 1 < 2 ^ 32)
    (heq : pixelAt s s.op.pix.toNat = s.prev) (hrun : t.run = s.run + 1) (hpix : t.op.pix = s.op.pix + 1)
    (hprev : t.prev = s.prev) (hat : ∀ n, pixelAt t n = pixelAt s n) : PendingRun t := by
  intro i hi hi'
  rw [hrun, run_succ hr] at hi
  rw [hpix, word_succ hp] at hi' ⊢
  rw [hat, hprev]
  cases i with
  | zero => exact heq
  | succ i =>
    rw [show s.op.pix.toNat + 1 - 1 - (i + 1) = s.op.pix.toNat - 1 - i by omega]
    exact h i (by omega) (by omega)

/-- The input pixels of a running encode lie in its input window. -/
theorem EncodeOk.pixel_inWindow {s : State} (h : EncodeOk s) {n : Nat} (hn : n < s.op.npix.toNat) :
    s.op.ch.toNat * n + s.op.ch.toNat ≤ s.op.srcLen.toNat := by
  rw [h.input, Nat.mul_comm s.op.npix.toNat, ← Nat.mul_succ]
  exact Nat.mul_le_mul_left _ hn

/-- ENC_PIX where reads give memory: the chunks of the pixel in memory are written, then the state after it. -/
theorem encPixel_memory {s : State} (hm : ReadsMemory s) (hch : s.op.ch = 3 ∨ s.op.ch = 4) (hr : s.run.toNat ≤ 61)
    (ho : s.op.outPos.toNat + 6 < 2 ^ 32)
    (hin : s.op.ch.toNat * s.op.pix.toNat + s.op.ch.toNat ≤ s.op.srcLen.toNat) :
    encPixel s =
      (writeBytes (bytesOfChunks (pixelChunks (pixelAt s s.op.pix.toNat) (isLastPixel s) s)) s.op.outPos.toNat s).finish
        fun _ t => .next (afterPixel (pixelDone (pixelAt s s.op.pix.toNat) (isLastPixel s) t)) := by
  rw [encPixel_eq hr ho, readBytes_memory hm hin, Acc.finish_ok, pixelOfBytes_srcBytes hch]

/-- The output cursor of a pixel step has room for the pixel's chunks (rule R168). -/
theorem EncodeOk.cursor_room {s : State} (h : EncodeOk s) (hp : s.op.pix.toNat < s.op.npix.toNat)
    (ho : s.op.outPos.toNat ≤ 14 + s.op.pix.toNat * (s.op.ch.toNat + 1)) : s.op.outPos.toNat + 6 < 2 ^ 32 := by
  have hout := h.output
  have hcap := s.op.dstCap.isLt
  have hwrite : s.op.pix.toNat * (s.op.ch.toNat + 1) ≤ s.op.npix.toNat * (s.op.ch.toNat + 1) :=
    Nat.mul_le_mul_right _ hp.le
  omega

/-- The state after a pixel, with what has been written, keeps the pending run: the pixel was counted and nothing was
written, or no run is pending. -/
theorem afterPixel_pendingRun {s : State} {last : Bool} (h : PendingRun s) (hr : s.run.toNat ≤ 61)
    (hp : s.op.pix.toNat + 1 < 2 ^ 32) (a d r : Nat) :
    PendingRun (afterPixel (pixelDone (pixelAt s s.op.pix.toNat) last (accessed s
      (Memory.store (bytesOfChunks (pixelChunks (pixelAt s s.op.pix.toNat) last s)) a s.mem) d r))) := by
  rw [(neutral_pixelDone _ _).access]
  by_cases he : pixelAt s s.op.pix.toNat = s.prev
  · by_cases hl : s.run.toNat + 1 = 62 ∨ last = true
    · exact pendingRun_of_run_zero (by rw [pixelDone_flushed he hl]; rfl)
    · rw [pixelDone_counted he hl, pixelChunks, if_pos he, if_neg hl, bytesOfChunks_nil]
      exact h.counted hr hp he rfl rfl rfl (pixelAt_congr rfl rfl rfl)
  · exact pendingRun_of_run_zero (by rw [pixelDone_differing he]; rfl)

/-- Settles O39: a pixel step ends with an error, and leaves the pixel loop, or with the state after the pixel. -/
theorem pendingRunEqualsPrev : Obligations.PendingRunEqualsPrev := by
  intro s t hI hm hq hf hrun h hft
  have hph := hI.phase
  rw [PhaseOk, hf] at hph
  obtain ⟨hE, hlt, hr, -, -, ho⟩ := hph
  obtain ⟨-, hmax, -⟩ := hE.checked.bounds
  rw [step, turn, hq] at h
  change engineTurn exec s = .next t at h
  rw [engineTurn, hf] at h
  change encPixel s = .next t at h
  rw [encPixel_memory hm hE.checked.channels hr (hE.cursor_room hlt (le_of_add_le_left ho))
    (hE.pixel_inWindow hlt)] at h
  rcases writeBytes_finish_next hI.mem h with ⟨d, rfl⟩ | ⟨m, d, r, -, rfl, -⟩
  · exact afterPixel_pendingRun hrun hr (by omega) _ _ _
  · cases hft

end Sys2Proof.Machine
end

section
/-! PROOFS. The interrupt level (O29) and register reads (O31). -/

namespace Sys2Proof.Machine

/-- Settles O29: an error leaves ERR, a completion leaves DONE, and START leaves neither. -/
theorem interruptLevel : Obligations.InterruptLevel := by
  refine fun s e len mode irqEn => ⟨rfl, ?_, ?_, ?_⟩
  · rw [irq, raise_irqEn, raise_err, Bool.or_true, Bool.and_true]
  · rw [irq, complete_irqEn, complete_done, Bool.true_or, Bool.and_true]
  · rw [irq, startOperation_done, startOperation_err, Bool.or_false, Bool.and_false]

/-! ### The words of the registers with fields -/

theorem ctrlWord_toNat (s : State) : (ctrlWord s).toNat = 2 * s.ctrlMode.bit.toNat + 4 * s.irqEn.toNat := by
  unfold ctrlWord
  cases s.ctrlMode <;> cases s.irqEn <;> rfl

theorem statusWord_toNat (s : State) :
    (statusWord s).toNat = s.busy.toNat + 2 * s.done.toNat + 4 * s.err.toNat := by
  unfold statusWord
  cases s.busy <;> cases s.done <;> cases s.err <;> rfl

theorem errorWord_toNat (c : BitVec 4) : (c.zeroExtend 32).toNat = c.toNat := by
  have := c.isLt
  rw [BitVec.toNat_setWidth, Nat.mod_eq_of_lt (by omega)]

theorem formatWord_toNat (cs ch : Byte) : ((cs ++ ch).zeroExtend 32).toNat = ch.toNat + 256 * cs.toNat := by
  have h1 := cs.isLt
  have h2 := ch.isLt
  rw [BitVec.toNat_setWidth, BitVec.toNat_append, ← Nat.shiftLeft_add_eq_or_of_lt h2, Nat.shiftLeft_eq]
  omega

/-! ### The read -/

theorem readReg_at (s : State) {offset : BitVec 8} {k : Nat} (h : offset.toNat = k) :
    readReg offset s = readReg (BitVec.ofNat 8 k) s := by
  rw [← h, BitVec.ofNat_toNat, BitVec.setWidth_eq]

theorem readReg_reserved {offset : BitVec 8} (s : State) (h : 0x30 ≤ offset.toNat) : readReg offset s = 0 := by
  unfold readReg
  split
  case h_13 => rfl
  all_goals omega

/-- A 32-bit aligned read of the register block records the register's word and changes nothing else. -/
theorem step_regRead {s : State} {offset : BitVec 8} {rest : List HostOp} (hq : s.hostQ = .regRead offset .word :: rest)
    (ha : offset.toNat % 4 = 0) : step s = .next { s with hostQ := rest, rdata := readReg offset s } := by
  rw [step, turn, hq]
  have hgood : goodAccess offset .word = true := decide_eq_true ⟨rfl, ha⟩
  show hostRegRead offset .word { s with hostQ := rest } = _
  rw [hostRegRead, if_pos hgood]
  rfl

/-- Settles O31: the read returns `readReg`, whose word at each offset is the register there. -/
theorem registerReads : Obligations.RegisterReads := by
  intro s offset rest hq ha
  have num {k : Nat} (h : offset.toNat = k) : (readReg offset s).toNat = (readReg (BitVec.ofNat 8 k) s).toNat :=
    congrArg BitVec.toNat (readReg_at s h)
  exact ⟨readReg offset s, step_regRead hq ha,
    readReg_at s,
    fun h => (num h).trans (ctrlWord_toNat s),
    fun h => (num h).trans (statusWord_toNat s),
    fun h => (num h).trans (errorWord_toNat s.errCode),
    readReg_at s,
    readReg_at s,
    fun h => (num h).trans (formatWord_toNat s.colorspace s.channels),
    readReg_at s,
    readReg_at s,
    readReg_at s,
    readReg_at s,
    readReg_at s,
    readReg_reserved s⟩

end Sys2Proof.Machine
end

section
/-! PROOFS. The two windows (O53, O54). Every engine step reads inside the input window, then writes inside the output
window, then ends (rules R62, R217). Run from two memories that agree outside the output window, the step reads the same
bytes, so it answers the same but for memory; and what it writes, free values too, lies inside the output window.
`Confined` says both, and each phase is shown to be confined once. -/

namespace Sys2Proof.Machine

/-- `s` with other bytes in host memory. -/
def withMem (m : Memory) (s : State) : State := { s with mem := m }

/-- Outside the output window of `s`, `m` reads as the memory of `s`. -/
def AgreesOutside (s : State) (m : Memory) : Prop :=
  ∀ a, (a < s.op.dstBase.toNat ∨ s.op.dstBase.toNat + s.op.dstCap.toNat ≤ a) → Memory.read m a = Memory.read s.mem a

/-- In the input window of `s`, `m` reads as the memory of `s`. -/
def SameInput (s : State) (m : Memory) : Prop :=
  ∀ off, off < s.op.srcLen.toNat →
    Memory.read m (s.op.srcBase.toNat + off) = Memory.read s.mem (s.op.srcBase.toNat + off)

/-- `x` and `x'` answer a step from `s`, `x'` with other bytes in memory: the answers are the same but for memory, and
`x` has changed memory in the output window only. -/
def Confined (s : State) (x x' : Answer) : Prop :=
  mapNext (withMem []) x' = mapNext (withMem []) x ∧ ∀ t, x = .next t → AgreesOutside s t.mem

/-! ### The windows -/

/-- No byte of one of two legal windows lies in the other (rule R61). -/
theorem windows_disjoint {op : Latches} (h : windowsIllegal op = false) {a : Nat} (h1 : op.srcBase.toNat ≤ a)
    (h2 : a < op.srcBase.toNat + op.srcLen.toNat) :
    a < op.dstBase.toNat ∨ op.dstBase.toNat + op.dstCap.toNat ≤ a := by
  have hw := windowsIllegal_iff.not.1 (Bool.eq_false_iff.1 h)
  omega

theorem AgreesOutside.refl (s : State) : AgreesOutside s s.mem := fun _ _ => rfl

theorem AgreesOutside.sameInput {s : State} {m : Memory} (h : AgreesOutside s m) (hw : windowsIllegal s.op = false) :
    SameInput s m := fun _ ho => h _ (windows_disjoint hw (Nat.le_add_right _ _) (Nat.add_lt_add_left ho _))

/-- What an operation has reached lies in the output window (rules R62, R168, R194). -/
theorem PhaseOk.reach_le {s : State} (h : PhaseOk s) : s.reach ≤ s.op.dstCap.toNat := by
  have enc (hE : EncodeOk s) (ho : s.op.outPos.toNat ≤ 14 + s.op.npix.toNat * (s.op.ch.toNat + 1)) :
      s.reach ≤ s.op.dstCap.toNat := by
    have := hE.output
    have := hE.reached
    omega
  have dec (hD : DecodeOk s) (hp : s.op.pix.toNat ≤ s.op.npix.toNat) : s.reach ≤ s.op.dstCap.toNat := by
    rw [hD.reached, Nat.mul_comm]
    exact (Nat.mul_le_mul_right _ hp).trans hD.output
  rw [PhaseOk] at h
  cases hf : s.fsm <;> simp only [hf] at h
  case idle => omega
  case encCheck => omega
  case encHdr =>
    obtain ⟨hE, -, ho, -⟩ := h
    exact enc hE (by rw [ho]; exact Nat.zero_le _)
  case encPix =>
    obtain ⟨hE, hp, -, -, -, ho⟩ := h
    exact enc hE ((le_of_add_le_left ho).trans (Nat.add_le_add_left (Nat.mul_le_mul_right _ hp.le) _))
  case encFtr =>
    obtain ⟨hE, -, -, -, ho⟩ := h
    exact enc hE ho
  case decCheck => omega
  case decChunk => exact dec h.1 h.2.le
  case decFtr => exact dec h.1 h.2.le

/-! ### The ends of a step -/

theorem confined_next {s t t' : State} (h : withMem [] t' = withMem [] t) (hm : AgreesOutside s t.mem) :
    Confined s (.next t) (.next t') :=
  ⟨congrArg Host.Outcome.next h, fun _ ht => Host.Outcome.next.inj ht ▸ hm⟩

theorem confined_refused (s : State) (r : Refusal) : Confined s (.refused r) (.refused r) := ⟨rfl, fun _ h => nomatch h⟩

/-- An error makes bytes of the output window unspecified, no others: those reached, or all of them (rule R266). -/
theorem raise_agreesOutside {s : State} (hr : s.reach ≤ s.op.dstCap.toNat) (e : ErrKind) :
    AgreesOutside s (raise e s).mem := fun a ha => by
  have hn : unspecifiedOutput s ≤ s.op.dstCap.toNat := by
    unfold unspecifiedOutput
    split
    · exact Nat.le_refl _
    · exact hr
  rw [raise_mem]
  exact scrambleOutput_read_other _ _ _ (by omega)

theorem raise_withMem (e : ErrKind) (s : State) (m : Memory) :
    withMem [] (raise e (withMem m s)) = withMem [] (raise e s) := by
  rw [raise, raise, scrambleOutput, scrambleOutput]
  rfl

theorem confined_raise {s : State} (hr : s.reach ≤ s.op.dstCap.toNat) (e : ErrKind) (m : Memory) :
    Confined s (.next (raise e s)) (.next (raise e (withMem m s))) :=
  confined_next (raise_withMem e s m) (raise_agreesOutside hr e)

/-- The end of a step may depend on memory, and change it, in the output window only. -/
structure ConfinedEnd (g : State → State) : Prop where
  alike : ∀ s m, withMem [] (g (withMem m s)) = withMem [] (g s)
  frame : ∀ s, AgreesOutside s (g s).mem

/-- An end of a step that has no regard to memory. -/
theorem ConfinedEnd.of_withMem {g : State → State} (h : ∀ s m, g (withMem m s) = withMem m (g s)) : ConfinedEnd g :=
  ⟨fun s m => by rw [h]; rfl, fun s a _ => by rw [show g s = withMem s.mem (g s) from h s s.mem]; rfl⟩

/-- Completion makes all bytes of the output window unspecified, or none (rule R75). -/
theorem complete_agreesOutside (n : Word) (s : State) : AgreesOutside s (complete n s).mem := fun a ha => by
  rw [complete_mem, settleOutput]
  split
  · exact scrambleOutput_read_other _ _ _ (by omega)
  · rfl

theorem complete_withMem (n : Word) (s : State) (m : Memory) :
    withMem [] (complete n (withMem m s)) = withMem [] (complete n s) := by
  unfold complete settleOutput
  show withMem [] (closeOperation { flagsDone (if s.outTaint = true then _ else _) with outLen := n }) = _
  split <;> rfl

/-! ### Reads -/

theorem busAnswer_withMem (s : State) (m : Memory) :
    busAnswer (withMem m s) = (busAnswer s).mapState (withMem m) := by
  unfold busAnswer
  show (if s.cfg.busFaults then (if Config.busError s.draws then _ else _) else _) = _
  split
  · split <;> rfl
  · rfl

theorem srcByte_withMem {a : Nat} {s : State} {m : Memory} (h : Memory.read m a = Memory.read s.mem a) :
    srcByte a (withMem m s) = (srcByte a s).mapState (withMem m) := by
  unfold srcByte
  show (if s.inTaint then _ else Acc.ok (Memory.read m a) _) = _
  rw [h]
  split <;> rfl

theorem readIn_withMem {off : Nat} {s : State} {m : Memory} (hm : SameInput s m) (h : off < s.op.srcLen.toNat) :
    readIn off (withMem m s) = (readIn off s).mapState (withMem m) := by
  unfold readIn
  show (if Config.addressSpace ≤ s.op.srcBase.toNat + off then _ else _) = _
  split
  · rfl
  · rw [busAnswer_withMem]
    refine Acc.bind_mapState fun _ s1 h1 => ?_
    rw [busAnswer_ok h1]
    exact srcByte_withMem (hm off h)

theorem readBytes_withMem {n off : Nat} {s : State} {m : Memory} (hm : SameInput s m)
    (h : off + n ≤ s.op.srcLen.toNat) : readBytes n off (withMem m s) = (readBytes n off s).mapState (withMem m) := by
  induction n generalizing off s with
  | zero => rfl
  | succ n ih =>
    rw [readBytes, readBytes, readIn_withMem hm (by omega)]
    refine Acc.bind_mapState fun b s1 h1 => ?_
    rw [(readIn_ok h1).1, ih (s := accessed s s.mem s1.draws s.reach) hm (by rw [accessed_op]; omega)]
    exact Acc.bind_mapState fun _ _ _ => rfl

/-- `x` is an access from `s` that only reads: it changes the counter of draws, whether it completes or not. -/
structure OnlyReads {α : Type} (s : State) (x : Acc α) : Prop where
  ok : ∀ {a t}, x = .ok a t → t = accessed s s.mem t.draws s.reach
  raised : ∀ {e t}, x = .raised e t → t = accessed s s.mem t.draws s.reach

theorem readIn_onlyReads (off : Nat) (s : State) : OnlyReads s (readIn off s) :=
  ⟨fun h => (readIn_ok h).1, fun h => (readIn_raised h).2⟩

theorem readBytes_onlyReads (n off : Nat) (s : State) : OnlyReads s (readBytes n off s) :=
  ⟨fun h => (readBytes_ok h).1, fun h => (readBytes_raised h).2⟩

/-- A step that begins with reads of the input window is confined if what follows them is. -/
theorem confined_reads {α : Type} {s : State} {m : Memory} {x x' : Acc α} {k k' : α → State → Answer}
    (hr : s.reach ≤ s.op.dstCap.toNat) (hx : OnlyReads s x) (hx' : x' = x.mapState (withMem m))
    (hk : ∀ a d, Confined s (k a (accessed s s.mem d s.reach)) (k' a (withMem m (accessed s s.mem d s.reach)))) :
    Confined s (x.finish k) (x'.finish k') := by
  subst hx'
  cases x with
  | ok a t =>
    have ht := hx.ok rfl
    rw [ht]
    exact hk a t.draws
  | raised e t =>
    have ht := hx.raised rfl
    rw [ht]
    exact confined_raise (s := accessed s s.mem t.draws s.reach) hr e m
  | fault f => exact ⟨rfl, fun _ h => nomatch h⟩

/-! ### Writes -/

theorem writeOut_withMem (off : Nat) (v : Byte) (s : State) (m : Memory) :
    ∃ m', writeOut off v (withMem m s) = (writeOut off v s).mapState (withMem m') := by
  rw [writeOut_eq, writeOut_eq]
  show ∃ m', (if Config.addressSpace ≤ s.op.dstBase.toNat + off then _ else if s.cfg.busFaults = true then
    if Config.busError s.draws = true then _ else _ else _) = _
  split
  · exact ⟨m, rfl⟩
  · split
    · split <;> exact ⟨_, rfl⟩
    · exact ⟨_, rfl⟩

/-- How writes end does not depend on what memory holds. -/
theorem writeBytes_withMem (bs : List Byte) (off : Nat) (s : State) (m : Memory) :
    ∃ m', writeBytes bs off (withMem m s) = (writeBytes bs off s).mapState (withMem m') := by
  induction bs generalizing off s m with
  | nil => exact ⟨m, rfl⟩
  | cons b bs ih =>
    obtain ⟨m1, h1⟩ := writeOut_withMem off b s m
    rw [writeBytes, writeBytes, h1]
    cases writeOut off b s with
    | ok u s1 => exact ih (off + 1) s1 m1
    | raised e s1 => exact ⟨m1, rfl⟩
    | fault f => exact ⟨m1, rfl⟩

/-- A step that ends with writes inside the output window is confined. -/
theorem confined_writes {bs : List Byte} {off : Nat} {s : State} {g : State → State} (hg : ConfinedEnd g)
    (hm : Memory.wf s.mem) (hr : s.reach ≤ s.op.dstCap.toNat) (hl : off + bs.length ≤ s.op.dstCap.toNat) (m : Memory) :
    Confined s ((writeBytes bs off s).finish fun _ t => .next (g t))
      ((writeBytes bs off (withMem m s)).finish fun _ t => .next (g t)) := by
  obtain ⟨m', h'⟩ := writeBytes_withMem bs off s m
  refine ⟨?_, fun t ht a ha => ?_⟩
  · rw [h']
    cases writeBytes bs off s with
    | ok u s1 => exact congrArg Host.Outcome.next (hg.alike s1 m')
    | raised e s1 => exact congrArg Host.Outcome.next (raise_withMem e s1 m')
    | fault f => rfl
  · rcases writeBytes_finish_next hm ht with ⟨d, rfl⟩ | ⟨m1, d, r, -, rfl, hr1, hx⟩
    · exact (hg.frame (accessed s _ d _) a ha).trans (Memory.read_store_other _ _ (by omega))
    · have hr' : r ≤ s.op.dstCap.toNat := by omega
      exact (raise_agreesOutside (s := accessed s m1 d r) hr' _ a ha).trans (hx a (by omega))

/-! ### The check of the windows -/

theorem checkWindows_confined {s : State} {k k' : Answer} (hr : s.reach ≤ s.op.dstCap.toNat) (m : Memory)
    (hk : windowsIllegal s.op = false → Confined s k k') :
    Confined s (checkWindows s k) (checkWindows (withMem m s) k') := by
  unfold checkWindows
  show Confined s _ (if windowsIllegal s.op then _ else if windowsOverRegisters s then _ else _)
  split
  · exact confined_raise hr _ m
  next hw =>
  split
  · exact confined_refused s _
  · exact hk (Bool.eq_false_iff.2 hw)

/-! ### The encode steps -/

theorem encCheck_confined {s : State} (hr : s.reach ≤ s.op.dstCap.toNat) (m : Memory) :
    Confined s (encCheck s) (encCheck (withMem m s)) := by
  refine checkWindows_confined hr m fun _ => ?_
  show Confined s _ (match encodeError s.op with | some e => _ | none => _)
  cases encodeError s.op with
  | some e => exact confined_raise hr e m
  | none => exact confined_next rfl (AgreesOutside.refl s)

theorem encHeader_confined {s : State} (hI : Inv s) (hf : s.fsm = .encHdr) (m : Memory) :
    Confined s (encHeader s) (encHeader (withMem m s)) := by
  have hph := hI.phase
  rw [PhaseOk, hf] at hph
  obtain ⟨hE, -, ho, -⟩ := hph
  have hout := hE.output
  have hpos : s.op.outPos.toNat = 0 := by rw [ho]; rfl
  have hroom : s.op.outPos.toNat + 14 < 2 ^ 32 := by omega
  rw [encHeader_eq hroom, encHeader_eq (s := withMem m s) hroom]
  exact confined_writes (g := fun t => { advanceOut 14 t with fsm := .encPix }) (.of_withMem fun _ _ => rfl)
    hI.mem hI.phase.reach_le (by rw [headerBytes_length]; omega) m

theorem encPixel_confined {s : State} (hI : Inv s) (hf : s.fsm = .encPix) {m : Memory} (hm : AgreesOutside s m) :
    Confined s (encPixel s) (encPixel (withMem m s)) := by
  have hph := hI.phase
  rw [PhaseOk, hf] at hph
  obtain ⟨hE, hlt, hrun, -, -, ho⟩ := hph
  have hout := hE.output
  have hwrite : s.op.pix.toNat * (s.op.ch.toNat + 1) ≤ s.op.npix.toNat * (s.op.ch.toNat + 1) :=
    Nat.mul_le_mul_right _ hlt.le
  have hroom := hE.cursor_room hlt (le_of_add_le_left ho)
  rw [encPixel_eq hrun hroom, encPixel_eq (s := withMem m s) hrun hroom]
  refine confined_reads hI.phase.reach_le (readBytes_onlyReads _ _ s)
    (readBytes_withMem (hm.sameInput hE.checked.windows) (hE.pixel_inWindow hlt)) fun bs d => ?_
  have hlen := pixelChunks_length (pixelOfBytes bs) (isLastPixel s) s
  exact confined_writes (s := accessed s s.mem d s.reach) (off := s.op.outPos.toNat)
    (bs := bytesOfChunks (pixelChunks (pixelOfBytes bs) (isLastPixel s) s))
    (g := fun t => afterPixel (pixelDone (pixelOfBytes bs) (isLastPixel s) t)) (.of_withMem fun _ _ => rfl)
    hI.mem hI.phase.reach_le (by rw [accessed_op]; omega) m

theorem encFooter_confined {s : State} (hI : Inv s) (hf : s.fsm = .encFtr) (m : Memory) :
    Confined s (encFooter s) (encFooter (withMem m s)) := by
  have hph := hI.phase
  rw [PhaseOk, hf] at hph
  obtain ⟨hE, -, -, -, ho⟩ := hph
  have hout := hE.output
  have hcap := s.op.dstCap.isLt
  have hroom : s.op.outPos.toNat + 8 < 2 ^ 32 := by omega
  rw [encFooter_eq hroom, encFooter_eq (s := withMem m s) hroom]
  exact confined_writes (g := fun t => complete (advanceOut 8 t).op.outPos (advanceOut 8 t))
    ⟨fun t m => complete_withMem _ (advanceOut 8 t) m, fun t => complete_agreesOutside _ (advanceOut 8 t)⟩
    hI.mem hI.phase.reach_le (by rw [footer_length]; omega) m

/-! ### The decode steps -/

/-- What the decoder answered runs alike from both memories if every instruction it can answer does. -/
theorem runDecoded_confined {s : State} {e : ErrKind} {x : Except DecodeError (Instr × List Byte)} {m : Memory}
    (hr : s.reach ≤ s.op.dstCap.toNat)
    (h : ∀ i rest, x = .ok (i, rest) → Confined s (exec i s) (exec i (withMem m s))) :
    Confined s (runDecoded exec e x s) (runDecoded exec e x (withMem m s)) := by
  rcases x with _ | ⟨i, rest⟩
  · exact confined_raise hr e m
  · exact h i rest rfl

theorem execHeader_confined {s : State} (hr : s.reach ≤ s.op.dstCap.toNat) (w h : Word) (ch cs : Byte) (m : Memory) :
    Confined s (execHeader w h ch cs s) (execHeader w h ch cs (withMem m s)) := by
  unfold execHeader
  show Confined s _ (match headerError w h ch s.op.dstCap with | some e => _ | none => _)
  cases headerError w h ch s.op.dstCap with
  | some e => exact confined_raise hr e m
  | none => exact confined_next rfl (AgreesOutside.refl s)

theorem decCheck_confined {s : State} (hr : s.reach ≤ s.op.dstCap.toNat) {m : Memory} (hm : AgreesOutside s m) :
    Confined s (decCheck exec s) (decCheck exec (withMem m s)) := by
  refine checkWindows_confined hr m fun hw => ?_
  have hin := hm.sameInput hw
  show Confined s _ (if s.op.srcLen.toNat < Config.headerLen + Config.footerLen then _ else _)
  split
  · exact confined_raise hr _ m
  next hlen =>
  simp only [Config.headerLen, Config.footerLen] at hlen
  refine confined_reads hr (readBytes_onlyReads 4 0 s) (readBytes_withMem hin (by omega)) fun mg d => ?_
  split
  · exact confined_raise (s := accessed s s.mem d s.reach) hr _ m
  refine confined_reads (s := accessed s s.mem d s.reach) hr (readBytes_onlyReads 10 4 _)
    (readBytes_withMem hin (by rw [accessed_op]; omega)) fun bs d' => ?_
  refine runDecoded_confined (s := accessed s s.mem d' s.reach) hr fun i rest hd => ?_
  obtain ⟨w, h, ch, cs, rfl⟩ := decodeHeader_ok hd
  exact execHeader_confined (s := accessed s s.mem d' s.reach) hr w h ch cs m

theorem decodeTail_confined {s : State} (hm : Memory.wf s.mem) (hf : OutputFits s.op) (hr : s.reach ≤ s.op.dstCap.toNat)
    (len : Nat) (p : Pixel) (cnt : Nat) (m : Memory) :
    Confined s (decodeTail len p cnt s) (decodeTail len p cnt (withMem m s)) := by
  obtain ⟨hend, -⟩ := copies_inSpace hf cnt
  rw [decodeTail_eq p cnt hf.channels hf.count hf.sofar,
    decodeTail_eq (s := withMem m s) p cnt hf.channels hf.count hf.sofar]
  show Confined s _ (if s.op.inPos.toNat + len > s.op.srcLen.toNat then _ else _)
  split
  · exact confined_raise hr _ m
  · exact confined_writes (g := chunkDone len p cnt) (.of_withMem fun _ _ => rfl) hm hr
      (by rw [copies_length hf.channels]; omega) m

theorem exec_chunk_confined {i : Instr} (hi : isChunk i = true) {s : State} (hm : Memory.wf s.mem)
    (hf : OutputFits s.op) (hr : s.reach ≤ s.op.dstCap.toNat) (m : Memory) :
    Confined s (exec i s) (exec i (withMem m s)) := by
  cases i with
  | rgb r g b => exact decodeTail_confined hm hf hr 4 _ 1 m
  | rgba r g b a => exact decodeTail_confined hm hf hr 5 _ 1 m
  | index k => exact decodeTail_confined hm hf hr 1 _ 1 m
  | diff dr dg db => exact decodeTail_confined hm hf hr 1 _ 1 m
  | luma dg drg dbg => exact decodeTail_confined hm hf hr 2 _ 1 m
  | run len => exact decodeTail_confined hm hf hr 1 _ len m
  | _ => cases hi

theorem decChunk_confined {s : State} (hI : Inv s) (hf : s.fsm = .decChunk) {m : Memory} (hm : AgreesOutside s m) :
    Confined s (decChunk exec s) (decChunk exec (withMem m s)) := by
  have hph := hI.phase
  rw [PhaseOk, hf] at hph
  obtain ⟨hD, hlt⟩ := hph
  have hr := hI.phase.reach_le
  have hin := hm.sameInput hD.checked.windows
  unfold decChunk
  show Confined s _ (if s.op.inPos.toNat + 1 > s.op.srcLen.toNat then _ else _)
  split
  · exact confined_raise hr _ m
  refine confined_reads hr (readIn_onlyReads _ s)
    (readIn_withMem (off := s.op.inPos.toNat) hin (by omega)) fun tag d => ?_
  have hpos := (chunkLength_pos tag).1
  show Confined s (if s.op.inPos.toNat + chunkLength tag > s.op.srcLen.toNat then _ else _)
    (if s.op.inPos.toNat + chunkLength tag > s.op.srcLen.toNat then _ else _)
  split
  · exact confined_raise (s := accessed s s.mem d s.reach) hr _ m
  refine confined_reads (s := accessed s s.mem d s.reach) hr (readBytes_onlyReads _ _ _)
    (readBytes_withMem (off := s.op.inPos.toNat + 1) hin (by rw [accessed_op]; omega)) fun bs d' => ?_
  exact runDecoded_confined (s := accessed s s.mem d' s.reach) hr fun i rest hd =>
    exec_chunk_confined (s := accessed s s.mem d' s.reach) (decodeChunk_isChunk hd) hI.mem (hD.fits hlt.le) hr m

theorem execFooter_confined {s : State} (hr : s.reach ≤ s.op.dstCap.toNat) (m : Memory) :
    Confined s (execFooter s) (execFooter (withMem m s)) := by
  unfold execFooter
  show Confined s _ (if s.op.inPos.toNat + Config.footerLen > s.op.srcLen.toNat then _ else
    if s.op.inPos.toNat + Config.footerLen ≠ s.op.srcLen.toNat then _ else _)
  split
  · exact confined_raise hr _ m
  · split
    · exact confined_raise hr _ m
    · exact confined_next (complete_withMem _ (writeResult s) m) (complete_agreesOutside _ (writeResult s))

theorem decFooter_confined {s : State} (hI : Inv s) (hf : s.fsm = .decFtr) {m : Memory} (hm : AgreesOutside s m) :
    Confined s (decFooter exec s) (decFooter exec (withMem m s)) := by
  have hph := hI.phase
  rw [PhaseOk, hf] at hph
  obtain ⟨hD, -⟩ := hph
  have hr := hI.phase.reach_le
  have hin := hm.sameInput hD.checked.windows
  unfold decFooter
  show Confined s _ (if s.op.inPos.toNat + Config.footerLen > s.op.srcLen.toNat then _ else _)
  split
  · exact confined_raise hr _ m
  refine confined_reads hr (readBytes_onlyReads _ _ s)
    (readBytes_withMem (off := s.op.inPos.toNat) hin (by omega)) fun bs d => ?_
  refine runDecoded_confined (s := accessed s s.mem d s.reach) hr fun i rest hd => ?_
  rw [decodeFooter_ok hd]
  exact execFooter_confined (s := accessed s s.mem d s.reach) hr m

/-! ### The statements -/

theorem engineTurn_confined {s : State} (hI : Inv s) {m : Memory} (hm : AgreesOutside s m) :
    Confined s (engineTurn exec s) (engineTurn exec (withMem m s)) := by
  have hr := hI.phase.reach_le
  unfold engineTurn
  rw [show (withMem m s).fsm = s.fsm from rfl]
  cases hf : s.fsm with
  | idle => exact confined_next rfl (AgreesOutside.refl s)
  | encCheck => exact encCheck_confined hr m
  | encHdr => exact encHeader_confined hI hf m
  | encPix => exact encPixel_confined hI hf hm
  | encFtr => exact encFooter_confined hI hf m
  | decCheck => exact decCheck_confined hr hm
  | decChunk => exact decChunk_confined hI hf hm
  | decFtr => exact decFooter_confined hI hf hm

theorem engineTurn_agreesOutside {s t : State} (hI : Inv s) (h : engineTurn exec s = .next t) :
    AgreesOutside s t.mem := (engineTurn_confined hI (AgreesOutside.refl s)).2 t h

/-- Settles O53: every step is confined, and a byte of the input window of legal windows lies outside the output
window. -/
theorem engineWritesOnlyOutputWindow : Obligations.EngineWritesOnlyOutputWindow := by
  rintro s t a hI h (ha | ⟨h1, h2, hw⟩)
  · exact engineTurn_agreesOutside hI h a ha
  · exact engineTurn_agreesOutside hI h a (windows_disjoint hw h1 h2)

/-- The invariant asks of memory its canonical form only. -/
theorem Inv.withMem {s : State} (h : Inv s) {m : Memory} (hm : Memory.wf m) : Inv (withMem m s) :=
  ⟨hm, h.exclusive, h.busyIff, h.code, h.codeOk, h.noResult, h.latched, h.phase.same {}⟩

theorem eq_of_withMem_eq {t t' : State} (h : withMem [] t' = withMem [] t) : t' = { t with mem := t'.mem } :=
  show withMem t'.mem (withMem [] t') = withMem t'.mem (withMem [] t) from congrArg _ h

/-- Settles O54: the two steps answer the same but for memory, and neither changes what lies outside the output
window. -/
theorem engineNeverReadsOutputWindow : Obligations.EngineNeverReadsOutputWindow := by
  intro s t' m hI hwf hm h'
  obtain ⟨halike, -⟩ := engineTurn_confined hI hm
  have hframe' := engineTurn_agreesOutside (hI.withMem hwf) h'
  change engineTurn exec (withMem m s) = .next t' at h'
  rw [h'] at halike
  cases h : engineTurn exec s with
  | next t =>
    rw [h] at halike
    refine ⟨t, rfl, eq_of_withMem_eq (Host.Outcome.next.inj halike), fun a ha => ?_⟩
    calc Memory.read t'.mem a
      _ = Memory.read m a := hframe' a ha
      _ = Memory.read s.mem a := hm a ha
      _ = Memory.read t.mem a := (engineTurn_agreesOutside hI h a ha).symm
  | fault f =>
    rw [h] at halike
    cases halike
  | refused r =>
    rw [h] at halike
    cases halike

end Sys2Proof.Machine
end

section
/-! PROOFS. Refused accesses (O33), the window checks of both operations (O34, O35) and the host's accesses to memory
(O48, O49). Each is one turn of the machine: the host action at the head of the queue, or the check step of the engine. -/

namespace Sys2Proof.Machine

/-! ### One turn -/

/-- The host's next action takes the turn. -/
theorem step_hostOp {s : State} {op : HostOp} {rest : List HostOp} (hq : s.hostQ = op :: rest) :
    step s = hostTurn exec op { s with hostQ := rest } := by
  rw [step, turn, hq]

/-- Where the host does nothing, the engine takes the turn. -/
theorem step_engine {s : State} (hq : s.hostQ = []) : step s = engineTurn exec s := by
  rw [step, turn, hq]

/-! ### Refused accesses -/

theorem goodAccess_eq_false {offset : BitVec 8} {size : AccessSize} (h : size ≠ .word ∨ offset.toNat % 4 ≠ 0) :
    goodAccess offset size = false :=
  decide_eq_false fun hg => h.elim (· hg.1) (· hg.2)

theorem hostRegWrite_refused {run : Instr → State → Answer} {offset : BitVec 8} {size : AccessSize}
    (h : goodAccess offset size = false) (v : Word) (s : State) :
    hostRegWrite run offset size v s = .refused .badRegisterAccess := by
  rw [hostRegWrite, h]
  rfl

theorem hostRegRead_refused {offset : BitVec 8} {size : AccessSize} (h : goodAccess offset size = false) (s : State) :
    hostRegRead offset size s = .refused .badRegisterAccess := by
  rw [hostRegRead, h]
  rfl

theorem inRegisterBlock_iff {p : Config.Params} {a : Nat} :
    inRegisterBlock p a = true ↔ p.engineBase.toNat ≤ a ∧ a < p.engineBase.toNat + 256 :=
  decide_eq_true_iff

theorem not_inRegisterBlock {p : Config.Params} {a : Nat}
    (h : a < p.engineBase.toNat ∨ p.engineBase.toNat + 256 ≤ a) : inRegisterBlock p a = false :=
  Bool.eq_false_iff.2 fun hin => by
    have := inRegisterBlock_iff.1 hin
    omega

theorem hostMemWrite_refused {s : State} {a : Word} (h : inRegisterBlock s.cfg a.toNat = true) (b : Byte) :
    hostMemWrite a b s = .refused .badRegisterAccess := if_pos h

theorem hostMemRead_refused {s : State} {a : Word} (h : inRegisterBlock s.cfg a.toNat = true) :
    hostMemRead a s = .refused .badRegisterAccess := if_pos h

/-- Settles O33: an access that is not 32-bit and aligned is refused by the register port, one that is one byte wide by
the memory port where the address is in the register block. -/
theorem badRegisterAccessRefused : Obligations.BadRegisterAccessRefused := by
  refine fun s offset size v a b rest => ⟨fun hbad hq => ?_, fun hbad hq => ?_, fun h1 h2 hq => ?_⟩
  · rw [step_hostOp hq]
    exact hostRegWrite_refused (goodAccess_eq_false hbad) v _
  · rw [step_hostOp hq]
    exact hostRegRead_refused (goodAccess_eq_false hbad) _
  · have hin : inRegisterBlock s.cfg a.toNat = true := inRegisterBlock_iff.2 ⟨h1, h2⟩
    rcases hq with hq | hq
    · rw [step_hostOp hq]
      exact hostMemWrite_refused (s := { s with hostQ := rest }) hin b
    · rw [step_hostOp hq]
      exact hostMemRead_refused (s := { s with hostQ := rest }) hin

/-! ### The check steps -/

/-- Either check step checks the windows before anything else. -/
theorem engineTurn_checks {s : State} (h : s.fsm = .encCheck ∨ s.fsm = .decCheck) :
    ∃ k, engineTurn exec s = checkWindows s k := by
  unfold engineTurn
  rcases h with h | h <;> rw [h] <;> exact ⟨_, rfl⟩

theorem checkWindows_illegal {s : State} (h : windowsIllegal s.op = true) (k : Answer) :
    checkWindows s k = .next (raise .addressError s) := if_pos h

theorem checkWindows_overRegisters {s : State} (h : windowsIllegal s.op = false) (ho : windowsOverRegisters s = true)
    (k : Answer) : checkWindows s k = .refused .windowOverRegisters := by
  rw [checkWindows, h, ho]
  rfl

/-- Settles O34: the conditions of rule R61 are the first test of either check step. -/
theorem windowLegality : Obligations.WindowLegality := by
  intro s hq hf hbad
  obtain ⟨k, hk⟩ := engineTurn_checks hf
  rw [step_engine hq, hk, checkWindows_illegal (windowsIllegal_iff.2 hbad)]

theorem overRegisters_iff {p : Config.Params} {base len : Word} :
    overRegisters p base len = true ↔ len.toNat > 0 ∧ base.toNat < p.engineBase.toNat + 256 ∧
      p.engineBase.toNat < base.toNat + len.toNat :=
  decide_eq_true_iff

/-- Settles O35: legal windows pass the first test of either check step, and the second refuses them. -/
theorem windowOverRegistersRefused : Obligations.WindowOverRegistersRefused := by
  intro s base len hq hf hlegal hwin hlen hbelow habove
  obtain ⟨k, hk⟩ := engineTurn_checks hf
  have hover : overRegisters s.cfg base len = true := overRegisters_iff.2 ⟨hlen, hbelow, habove⟩
  have hover' : windowsOverRegisters s = true := by
    rw [windowsOverRegisters, Bool.or_eq_true]
    rcases hwin with ⟨rfl, rfl⟩ | ⟨rfl, rfl⟩
    · exact .inl hover
    · exact .inr hover
  rw [step_engine hq, hk, checkWindows_overRegisters hlegal hover']

/-! ### The host's accesses to memory -/

/-- A host write outside the register block (rules R60, R75). -/
theorem step_memWrite {s : State} {a : Word} {b : Byte} {rest : List HostOp} (hq : s.hostQ = .memWrite a b :: rest)
    (ha : a.toNat < s.cfg.engineBase.toNat ∨ s.cfg.engineBase.toNat + 256 ≤ a.toNat) :
    step s = .next { s with
      hostQ := rest
      mem := Memory.write s.mem a.toNat b
      inTaint := s.inTaint || (s.busy && inSrcWindow s a.toNat)
      outTaint := s.outTaint || (s.busy && inDstWindow s a.toNat) } := by
  rw [step_hostOp hq, hostTurn, hostMemWrite, not_inRegisterBlock ha]
  rfl

/-- A host read outside the register block that keeps the host's duty (rules R60, R75). -/
theorem step_memRead {s : State} {a : Word} {rest : List HostOp} (hq : s.hostQ = .memRead a :: rest)
    (ha : a.toNat < s.cfg.engineBase.toNat ∨ s.cfg.engineBase.toNat + 256 ≤ a.toNat)
    (hd : (s.busy && inDstWindow s a.toNat) = false) :
    step s = .next { s with hostQ := rest, rdata := (Memory.read s.mem a.toNat).zeroExtend 32 } := by
  rw [step_hostOp hq, hostTurn, hostMemRead, not_inRegisterBlock ha]
  exact if_neg (Bool.eq_false_iff.1 hd)

/-- A host read of the output window during BUSY (rule R75). -/
theorem step_memRead_output {s : State} {a : Word} {rest : List HostOp} (hq : s.hostQ = .memRead a :: rest)
    (ha : a.toNat < s.cfg.engineBase.toNat ∨ s.cfg.engineBase.toNat + 256 ≤ a.toNat)
    (hd : (s.busy && inDstWindow s a.toNat) = true) :
    step s = .next { s with
      hostQ := rest, rdata := (Config.freeByte s.draws).zeroExtend 32, draws := s.draws + 1, outTaint := true } := by
  rw [step_hostOp hq, hostTurn, hostMemRead, not_inRegisterBlock ha]
  exact if_pos hd

/-- Settles O48: while the engine is not BUSY an access breaks no duty. -/
theorem hostMemoryAccess : Obligations.HostMemoryAccess := by
  intro s a b rest hm hb ha
  refine ⟨fun hq => ⟨_, step_memWrite hq ha, ?_, fun x => Memory.read_write hm a.toNat b x⟩,
    fun hq => ⟨_, step_memRead hq ha (by rw [hb]; rfl), ?_⟩⟩
  · rw [hb, Bool.false_and, Bool.false_and, Bool.or_false, Bool.or_false]
  · rw [BitVec.ofNat_toNat]

/-- A read of an input window the host has written during BUSY gives a free value (rule R75). -/
theorem readIn_tainted {s : State} {off : Nat} (ht : s.inTaint = true) (hb : s.cfg.busFaults = false)
    (ha : s.op.srcBase.toNat + off < 2 ^ 32) :
    readIn off s = .ok (Config.freeByte s.draws) { s with draws := s.draws + 1 } := by
  rw [readIn, if_neg (show ¬Config.addressSpace ≤ _ from Nat.not_le.2 ha), busAnswer_quiet hb,
    Acc.bind_ok, srcByte, if_pos ht]

theorem inSrcWindow_iff {s : State} {a : Nat} :
    inSrcWindow s a = true ↔ s.op.srcBase.toNat ≤ a ∧ a < s.op.srcBase.toNat + s.op.srcLen.toNat :=
  decide_eq_true_iff

theorem inDstWindow_iff {s : State} {a : Nat} :
    inDstWindow s a = true ↔ s.op.dstBase.toNat ≤ a ∧ a < s.op.dstBase.toNat + s.op.dstCap.toNat :=
  decide_eq_true_iff

/-- Settles O49: during BUSY an access to a window sets its mark, and a marked input window is read as free values. -/
theorem brokenHostDuty : Obligations.BrokenHostDuty := by
  intro s a b rest hb ha
  refine ⟨fun h1 h2 hq => ?_, fun h1 h2 hq => ?_, fun h1 h2 hq => ?_⟩
  · have hmark : (s.inTaint || (s.busy && inSrcWindow s a.toNat)) = true := by
      rw [hb, inSrcWindow_iff.2 ⟨h1, h2⟩, Bool.true_and, Bool.or_true]
    exact ⟨_, step_memWrite hq ha, hmark, fun off hf ho => readIn_tainted hmark hf ho⟩
  · exact step_memRead_output hq ha (by rw [hb, inDstWindow_iff.2 ⟨h1, h2⟩, Bool.true_and])
  · have hmark : (s.outTaint || (s.busy && inDstWindow s a.toNat)) = true := by
      rw [hb, inDstWindow_iff.2 ⟨h1, h2⟩, Bool.true_and, Bool.or_true]
    exact ⟨_, step_memWrite hq ha, hmark⟩

end Sys2Proof.Machine
end

section
/-! PROOFS. The encoding: the tag byte and the fields of a chunk (O2), decoding what is encoded (O3), encoding what is
decoded (O4), what the chunk decoder rejects (O5), the words written out (O1) and the expansion of RUNS (O7). -/

namespace Sys2Proof

/-! ### Fields as numbers (rule R109) -/

theorem field_eq_div_mod (v : Byte) (lo n : Nat) : field v lo n = v.toNat / 2 ^ lo % 2 ^ n := by
  rw [field, BitVec.extractLsb'_toNat, Nat.shiftRight_eq_div_pow]

theorem slotField_eq_ofNat (t : Byte) : slotField t = Fin.ofNat 64 t.toNat := by
  apply Fin.ext
  rw [slotField, field_eq_div_mod]
  simp only [Fin.val_ofNat]
  omega

/-! ### The chunk of each range of the tag byte (rule R103) -/

theorem ne_rawTags {t : Byte} (h : t.toNat < 0xFE) : t ≠ 0xFE ∧ t ≠ 0xFF :=
  ⟨fun he => absurd h (by rw [he]; decide), fun he => absurd h (by rw [he]; decide)⟩

theorem decodeChunk_indexTag {t : Byte} (h : t.toNat ≤ 0x3F) (rest : List Byte) :
    decodeChunk (t :: rest) = .ok (.index (Fin.ofNat 64 t.toNat), rest) := by
  obtain ⟨hrgb, hrgba⟩ := ne_rawTags (t := t) (by omega)
  have htag : field t 6 2 = 0 := by rw [field_eq_div_mod]; omega
  rw [decodeChunk, if_neg hrgb, if_neg hrgba, if_pos htag, slotField_eq_ofNat]

theorem decodeChunk_diffTag {t : Byte} (hlo : 0x40 ≤ t.toNat) (hhi : t.toNat ≤ 0x7F) (rest : List Byte) :
    decodeChunk (t :: rest) =
      .ok (.diff ((t.toNat / 16 % 4 : Nat) - 2) ((t.toNat / 4 % 4 : Nat) - 2) ((t.toNat % 4 : Nat) - 2), rest) := by
  obtain ⟨hrgb, hrgba⟩ := ne_rawTags (t := t) (by omega)
  have htag : field t 6 2 = 1 := by rw [field_eq_div_mod]; omega
  rw [decodeChunk, if_neg hrgb, if_neg hrgba, if_neg (by omega), if_pos htag, decodeDiff]
  simp [unbias, field_eq_div_mod]

theorem decodeChunk_lumaTag {t : Byte} (hlo : 0x80 ≤ t.toNat) (hhi : t.toNat ≤ 0xBF) (u : Byte) (rest : List Byte) :
    decodeChunk (t :: u :: rest) =
      .ok (.luma ((t.toNat % 64 : Nat) - 32) ((u.toNat / 16 : Nat) - 8) ((u.toNat % 16 : Nat) - 8), rest) := by
  obtain ⟨hrgb, hrgba⟩ := ne_rawTags (t := t) (by omega)
  have htag : field t 6 2 = 2 := by rw [field_eq_div_mod]; omega
  have hhigh : u.toNat / 16 % 16 = u.toNat / 16 := by omega
  rw [decodeChunk, if_neg hrgb, if_neg hrgba, if_neg (by omega), if_neg (by omega), if_pos htag, decodeLuma]
  simp [unbias, field_eq_div_mod, hhigh]

theorem decodeChunk_runTag {t : Byte} (hlo : 0xC0 ≤ t.toNat) (hhi : t.toNat ≤ 0xFD) (rest : List Byte) :
    decodeChunk (t :: rest) = .ok (.run (t.toNat % 64 + 1), rest) := by
  obtain ⟨hrgb, hrgba⟩ := ne_rawTags (t := t) (by omega)
  have htag : field t 6 2 = 3 := by rw [field_eq_div_mod]; omega
  rw [decodeChunk, if_neg hrgb, if_neg hrgba, if_neg (by omega), if_neg (by omega), if_neg (by omega), decodeRun]
  simp [field_eq_div_mod]

theorem decodeChunk_rgbTag (r g b : Byte) (rest : List Byte) :
    decodeChunk (0xFE :: r :: g :: b :: rest) = .ok (.rgb r g b, rest) := rfl

theorem decodeChunk_rgbaTag (r g b a : Byte) (rest : List Byte) :
    decodeChunk (0xFF :: r :: g :: b :: a :: rest) = .ok (.rgba r g b a, rest) := rfl

/-- Settles O2: each range of the statement has its chunk. -/
theorem tagByteSelectsChunk : Obligations.TagByteSelectsChunk := by
  intro t u v x y rest
  split
  · next hindex => exact decodeChunk_indexTag hindex _
  split
  · next hdiff => exact decodeChunk_diffTag (by omega) hdiff _
  split
  · next hluma => exact decodeChunk_lumaTag (by omega) hluma u _
  split
  · next hrun => exact decodeChunk_runTag (by omega) hrun _
  split
  · next hrgb =>
    obtain rfl : t = 0xFE := BitVec.eq_of_toNat_eq hrgb
    exact decodeChunk_rgbTag u v x _
  · obtain rfl : t = 0xFF := BitVec.eq_of_toNat_eq (show t.toNat = 255 by omega)
    exact decodeChunk_rgbaTag u v x y rest

/-! ### Decoding what is encoded -/

/-- Settles O3, with the round trip of each instruction. -/
theorem decodeOfEncode : Obligations.DecodeOfEncode
  | .rgb r g b => Laws.RoundTrip.rgb r g b
  | .rgba r g b a => Laws.RoundTrip.rgba r g b a
  | .index idx => Laws.RoundTrip.index idx
  | .diff dr dg db => Laws.RoundTrip.diff dr dg db
  | .luma dg drg dbg => Laws.RoundTrip.luma dg drg dbg
  | .run len => Laws.RoundTrip.run len
  | .header w h ch cs => Laws.RoundTrip.header w h ch cs
  | .footer => Laws.RoundTrip.footer
  | .startEncode irqEn => Laws.RoundTrip.startEncode irqEn
  | .startDecode irqEn => Laws.RoundTrip.startDecode irqEn
  | .setIrqEn mode irqEn => Laws.RoundTrip.setIrqEn mode irqEn
  | .clearStatus done err => Laws.RoundTrip.clearStatus done err

/-! ### Encoding what is decoded -/

/-- Putting the bias back on a field's operand gives the field (rule R129). -/
theorem biased_unbias {n : Nat} (f : BitVec n) (bias : Nat) : biased n (unbias f.toNat bias) bias = f := by
  rw [biased, unbias, Int.sub_add_cancel, BitVec.ofInt_natCast, BitVec.ofNat_toNat, BitVec.setWidth_eq]

theorem biased_unbias_field (v : Byte) (lo n bias : Nat) :
    biased n (unbias (field v lo n) bias) bias = v.extractLsb' lo n := biased_unbias _ bias

theorem ofNat_field (v : Byte) (lo n : Nat) : BitVec.ofNat n (field v lo n) = v.extractLsb' lo n := by
  rw [field, BitVec.ofNat_toNat, BitVec.setWidth_eq]

/-- A byte is its two tag bits and the six bits below them. -/
theorem tag_append_low {t : Byte} {tag : BitVec 2} (h : field t 6 2 = tag.toNat) : tag ++ t.extractLsb' 0 6 = t := by
  obtain rfl : t.extractLsb' 6 2 = tag := BitVec.eq_of_toNat_eq h
  rw [BitVec.extractLsb'_append_extractLsb'_eq_extractLsb' (by rfl)]
  exact BitVec.extractLsb'_eq_self

theorem indexByte_slotField {t : Byte} (h : field t 6 2 = 0) : indexByte (slotField t) = t := by
  have hslot : (slotField t).val = field t 0 6 := Nat.mod_eq_of_lt (field_lt t 0 6)
  rw [indexByte, hslot, ofNat_field, tag_append_low h]

theorem streamBytes_decodeDiff {t : Byte} (h : field t 6 2 = 1) : streamBytes (decodeDiff t) = [t] := by
  have htag : 0b01#2 = t.extractLsb' 6 2 := BitVec.eq_of_toNat_eq h.symm
  rw [decodeDiff, streamBytes_diff, diffByte, biased_unbias_field, biased_unbias_field, biased_unbias_field, htag,
    BitVec.extractLsb'_append_extractLsb'_eq_extractLsb' (by rfl),
    BitVec.extractLsb'_append_extractLsb'_eq_extractLsb' (by rfl),
    BitVec.extractLsb'_append_extractLsb'_eq_extractLsb' (by rfl)]
  exact congrArg (fun b => [b]) BitVec.extractLsb'_eq_self

theorem lumaByte0_field {t : Byte} (h : field t 6 2 = 2) : lumaByte0 (unbias (field t 0 6) 32) = t := by
  rw [lumaByte0, biased_unbias_field, tag_append_low h]

theorem lumaByte1_field (u : Byte) : lumaByte1 (unbias (field u 4 4) 8) (unbias (field u 0 4) 8) = u := by
  rw [lumaByte1, biased_unbias_field, biased_unbias_field,
    BitVec.extractLsb'_append_extractLsb'_eq_extractLsb' (by rfl)]
  exact BitVec.extractLsb'_eq_self

theorem streamBytes_decodeRun {t : Byte} (h : field t 6 2 = 3) : streamBytes (decodeRun t) = [t] := by
  rw [decodeRun, streamBytes_run, runByte, Nat.add_sub_cancel, ofNat_field, tag_append_low h]

/-- The bytes of a decoded chunk are the bytes that were read. -/
theorem decodeChunk_bytes {bs rest : List Byte} {i : Instr} (h : decodeChunk bs = .ok (i, rest)) :
    streamBytes i ++ rest = bs := by
  cases bs with
  | nil => cases h
  | cons t bs =>
    rw [decodeChunk] at h
    split at h
    · next hrgb =>
      unfold decodeRgb at h
      split at h <;> cases h
      rw [hrgb]
      rfl
    split at h
    · next hrgba =>
      unfold decodeRgba at h
      split at h <;> cases h
      rw [hrgba]
      rfl
    split at h
    · next hindex =>
      cases h
      rw [streamBytes_index, indexByte_slotField hindex, List.singleton_append]
    split at h
    · next hdiff =>
      cases h
      rw [streamBytes_decodeDiff hdiff, List.singleton_append]
    split at h
    · next hluma =>
      unfold decodeLuma at h
      split at h <;> cases h
      rw [streamBytes_luma, lumaByte0_field hluma, lumaByte1_field]
      rfl
    · next hindex hdiff hluma =>
      cases h
      have hrun : field t 6 2 = 3 := by
        have := field_lt t 6 2
        omega
      rw [streamBytes_decodeRun hrun, List.singleton_append]

theorem decodeHeaderFields_bytes {bs rest : List Byte} {i : Instr} (h : decodeHeaderFields bs = .ok (i, rest)) :
    ∃ w ht ch cs, i = .header w ht ch cs ∧ be32Bytes w ++ be32Bytes ht ++ [ch, cs] ++ rest = bs := by
  unfold decodeHeaderFields at h
  split at h <;> cases h
  refine ⟨_, _, _, _, rfl, ?_⟩
  rw [be32Bytes_be32, be32Bytes_be32]
  rfl

theorem decodeHeader_wellFormed_bytes {bs rest : List Byte} {i : Instr} (h : decodeHeader bs = .ok (i, rest)) :
    i.WellFormed ∧ streamBytes i ++ rest = bs := by
  rw [decodeHeader] at h
  split at h
  · cases h
  split at h
  · next hmagic =>
    obtain ⟨w, ht, ch, cs, rfl, hfields⟩ := decodeHeaderFields_bytes h
    refine ⟨rfl, ?_⟩
    calc streamBytes (.header w ht ch cs) ++ rest
        = Config.magic ++ (be32Bytes w ++ be32Bytes ht ++ [ch, cs] ++ rest) := by
          simp only [streamBytes_header, headerBytes, List.append_assoc]
      _ = bs.take 4 ++ bs.drop 4 := by rw [hfields, hmagic]
      _ = bs := List.take_append_drop 4 bs
  · cases h

theorem decodeFooter_wellFormed_bytes {bs rest : List Byte} {i : Instr} (h : decodeFooter bs = .ok (i, rest)) :
    i.WellFormed ∧ streamBytes i ++ rest = bs := by
  rw [decodeFooter] at h
  split at h
  · cases h
  split at h <;> cases h
  next hfooter =>
  exact ⟨rfl, by rw [streamBytes_footer, ← hfooter, List.take_append_drop]⟩

/-- Settles O4, with what each of the three stream decoders answers. -/
theorem encodeOfDecode : Obligations.EncodeOfDecode := by
  rintro bs rest i (hchunk | hheader | hfooter)
  · exact ⟨decodeChunk_wellFormed hchunk, decodeChunk_bytes hchunk⟩
  · exact decodeHeader_wellFormed_bytes hheader
  · exact decodeFooter_wellFormed_bytes hfooter

/-! ### What the chunk decoder rejects -/

/-- Settles O5: a chunk whose bytes are all there decodes, one cut short is rejected. -/
theorem onlyMissingBytesRejectAChunk : Obligations.OnlyMissingBytesRejectAChunk := by
  refine fun bs e => ⟨fun h => ?_, ?_⟩
  · cases bs with
    | nil =>
      cases h
      exact ⟨rfl, .inl rfl⟩
    | cons t rest =>
      by_cases hcut : rest.length + 1 < chunkLength t
      · rw [decodeChunk_short hcut] at h
        cases h
        exact ⟨rfl, .inr ⟨t, rest, rfl, hcut⟩⟩
      · obtain ⟨i, hi, -⟩ := decodeChunk_take (t := t) (rest := rest) (by omega)
        rw [hi] at h
        cases h
  · rintro ⟨rfl, rfl | ⟨t, rest, rfl, hcut⟩⟩
    · rfl
    · exact decodeChunk_short hcut

/-! ### Words written out, and RUNS -/

/-- Settles O1: each of the twelve words is closed, so the decoder computes its instruction. -/
theorem writtenOutWordsDecode : Obligations.WrittenOutWordsDecode :=
  ⟨rfl, rfl, rfl, rfl, rfl, rfl, rfl, rfl, rfl, rfl, rfl, rfl⟩

/-- What RUNS leaves for its last chunk is a run length (rule R108). -/
theorem inRunRange_lastRun {n : Nat} (h : 1 ≤ n) : inRunRange (n - 62 * ((n - 1) / 62)) :=
  ⟨by omega, show _ ≤ 62 by omega⟩

theorem expandRuns_wellFormed {n : Nat} (h : 1 ≤ n) {i : Instr} (hi : i ∈ expandRuns n) : i.WellFormed := by
  rw [expandRuns, List.mem_append, List.mem_replicate, List.mem_singleton] at hi
  rcases hi with ⟨-, rfl⟩ | rfl
  · exact decide_eq_true (show inRunRange 62 by decide)
  · exact decide_eq_true (inRunRange_lastRun h)

/-- Settles O7: the chunks before the last are RUN 62, and the last takes what is left. -/
theorem runsExpansion : Obligations.RunsExpansion := fun _ hn =>
  ⟨rfl, (inRunRange_lastRun hn).1, (inRunRange_lastRun hn).2, fun _ => expandRuns_wellFormed hn⟩

end Sys2Proof
end

section
/-! PROOFS. The step that runs a host command (O11): a register write at the head of the queue, and one to CTRL or
STATUS in the same cycle as an engine step. -/

namespace Sys2Proof.Machine

/-- A 32-bit write at an aligned offset that decodes to a command is the command (rule R230). -/
theorem hostRegWrite_command {offset : BitVec 8} {v : Word} {i : Instr} (ha : offset.toNat % 4 = 0)
    (hd : decodeRegWrite offset v = .ok i) (s : State) : hostRegWrite exec offset .word v s = exec i s := by
  have hgood : goodAccess offset .word = true := decide_eq_true ⟨rfl, ha⟩
  rw [hostRegWrite, if_pos hgood, hd]

/-- A same-cycle write takes the turn, and is ordered after the engine's step (rule R270). -/
theorem step_cycleWrite {s u : State} {reg : CommandReg} {v : Word} {rest : List HostOp}
    (hq : s.hostQ = .cycleWrite reg v :: rest) (hu : engineTurn exec { s with hostQ := rest } = .next u) :
    step s = hostRegWrite exec (commandOffset reg) .word (cycleValue reg { s with hostQ := rest } u v) u := by
  rw [step_hostOp hq, hostTurn, hu, hostCycleWrite]

/-- Settles O11: the command is what the value written decodes to, which for a same-cycle write to STATUS is the value
without the bits of the flags the engine's step raised. -/
theorem stepRunsHostCommand : Obligations.StepRunsHostCommand := by
  refine ⟨fun s offset v rest i hq ha hd => ?_, fun s u v rest hu => ⟨fun i hq hd => ?_, fun hq => ?_⟩⟩
  · rw [step_hostOp hq]
    exact hostRegWrite_command ha hd _
  · rw [step_cycleWrite hq hu]
    exact hostRegWrite_command rfl hd u
  · rw [step_cycleWrite hq hu, commandOffset, cycleValue, hostRegWrite_status, keepRaised_done, keepRaised_err]
    rfl

end Sys2Proof.Machine
end

section
/-! PROOFS. The shared primitives: the hash at any width (O8), the predictor's round trip (O9) and the biased fields
(O6). -/

namespace Sys2Proof

/-! ### Biased fields (rule R129) -/

/-- An operand whose sum with the bias fits `n` bits has that sum as its field. -/
theorem biased_toNat {n bias : Nat} {d : Int} (hlo : 0 ≤ d + bias) (hhi : d + bias < 2 ^ n) :
    ((biased n d bias).toNat : Int) = d + bias := by
  rw [biased, BitVec.toNat_ofInt, Int.toNat_of_nonneg (Int.emod_nonneg _ (by simp))]
  exact Int.emod_eq_of_lt hlo (mod_cast hhi)

/-- Such an operand goes into its field and comes back. -/
theorem biased_roundTrip {n bias : Nat} {d : Int} (hlo : 0 ≤ d + bias) (hhi : d + bias < 2 ^ n) :
    ((biased n d bias).toNat : Int) = d + bias ∧ unbias (biased n d bias).toNat bias = d :=
  ⟨biased_toNat hlo hhi, by rw [unbias, biased_toNat hlo hhi, Int.add_sub_cancel]⟩

/-- The operand of any field is in the range that starts the bias below 0 and has `2 ^ n` numbers, and goes back into
that field. -/
theorem unbias_roundTrip {n : Nat} (f : BitVec n) (bias : Nat) :
    -(bias : Int) ≤ unbias f.toNat bias ∧ unbias f.toNat bias ≤ 2 ^ n - bias - 1 ∧
      biased n (unbias f.toNat bias) bias = f := by
  have hf : (f.toNat : Int) < 2 ^ n := mod_cast f.isLt
  refine ⟨?_, ?_, biased_unbias f bias⟩ <;>
  · rw [unbias]
    omega

/-- The low six bits of a RUN byte are the length less one (rule R100). -/
theorem field_runByte (len : Nat) : field (runByte len) 0 6 = (len - 1) % 64 := by
  have hlow : (runByte len).extractLsb' 0 6 = BitVec.ofNat 6 (len - 1) := BitVec.extractLsb'_append_eq_right
  rw [field, hlow, BitVec.toNat_ofNat]

/-- Settles O6: the range of each operand fills its field. -/
theorem biasedFieldsAreBijections : Obligations.BiasedFieldsAreBijections := by
  refine ⟨fun d hlo hhi => ?diff, fun d hlo hhi => ?luma, fun d hlo hhi => ?secondary, fun len hlo hhi => ?run,
    fun f => ?diffField, fun f => ?lumaField, fun f => ?secondaryField, fun f hf => ?runField⟩
  case diff => exact biased_roundTrip (by omega) (by omega)
  case luma => exact biased_roundTrip (by omega) (by omega)
  case secondary => exact biased_roundTrip (by omega) (by omega)
  case run =>
    rw [field_runByte]
    omega
  case diffField => exact unbias_roundTrip f 2
  case lumaField => exact unbias_roundTrip f 32
  case secondaryField => exact unbias_roundTrip f 8
  case runField =>
    rw [field_runByte]
    omega

namespace Machine

/-! ### The hash (rules R122, R123) -/

/-- Wrapping at `k` bits keeps the value mod 64, for 64 divides `2 ^ k`. -/
theorem toNat_ofNat_mod_64 {k : Nat} (hk : 6 ≤ k) (n : Nat) : (BitVec.ofNat k n).toNat % 64 = n % 64 := by
  rw [BitVec.toNat_ofNat]
  exact Nat.mod_mod_of_dvd n (pow_dvd_pow 2 hk)

/-- Settles O8: the wrapped sum of the products is the exact sum, wrapped once. -/
theorem hashAtAnyWidth : Obligations.HashAtAnyWidth := by
  intro k p hk
  simp only [← BitVec.ofNat_mul, ← BitVec.ofNat_add]
  rw [toNat_ofNat_mod_64 hk]
  rfl

/-! ### The predictor (rules R126, R130) -/

/-- Rule R126 asks for one number only, the model's: under WRAP8 no two signed bytes are congruent mod 256. -/
theorem delta_eq_of_isDelta {m : Config.DeltaMode} {c q : Byte} {d : Int} (h : IsDelta m c q d) : delta m c q = d := by
  cases m with
  | wide => exact h.symm
  | wrap8 =>
    obtain ⟨hlo, hhi, hmod⟩ := h
    rw [delta, BitVec.toInt_eq_toNat_cond, BitVec.toNat_sub]
    omega

/-- Settles O9: the deltas are the encoder's, and adding them to PREV undoes the subtraction. -/
theorem predictorRoundTrip : Obligations.PredictorRoundTrip := by
  intro m p prev dr dg db hr hg hb
  obtain rfl := delta_eq_of_isDelta hr
  obtain rfl := delta_eq_of_isDelta hg
  obtain rfl := delta_eq_of_isDelta hb
  exact ⟨rfl, rfl, rfl, fun ha _ => diffPixel_delta ha, fun ha _ => lumaPixel_delta ha⟩

end Machine

end Sys2Proof
end

section
/-! PROOFS. The encoder's choice of a chunk (O40, O42): one lemma for each place in the order of rule R167. -/

namespace Sys2Proof.Machine

/-! ### The order of the choice (rules R159 to R165, R167) -/

theorem chooseChunk_stored {p : Pixel} {s : State} (h : s.cache.get (pixelHash p) = p) :
    chooseChunk p s = .index (pixelHash p) := if_pos h

theorem chooseChunk_notStored {p : Pixel} {s : State} (h : s.cache.get (pixelHash p) ≠ p) :
    chooseChunk p s = deltaChunk s.cfg.deltaMode s.prev p := if_neg h

section
variable {m : Config.DeltaMode} {prev p : Pixel}

theorem deltaChunk_rgba (ha : p.a ≠ prev.a) : deltaChunk m prev p = .rgba p.r p.g p.b p.a := if_neg ha

theorem deltaChunk_diff (ha : p.a = prev.a)
    (hd : diffOk (delta m p.r prev.r) (delta m p.g prev.g) (delta m p.b prev.b) = true) :
    deltaChunk m prev p = .diff (delta m p.r prev.r) (delta m p.g prev.g) (delta m p.b prev.b) :=
  (if_pos ha).trans (if_pos hd)

theorem deltaChunk_luma (ha : p.a = prev.a)
    (hd : diffOk (delta m p.r prev.r) (delta m p.g prev.g) (delta m p.b prev.b) ≠ true)
    (hl : lumaOk (delta m p.r prev.r) (delta m p.g prev.g) (delta m p.b prev.b) = true) :
    deltaChunk m prev p = .luma (delta m p.g prev.g) (delta m p.r prev.r - delta m p.g prev.g)
      (delta m p.b prev.b - delta m p.g prev.g) :=
  (if_pos ha).trans ((if_neg hd).trans (if_pos hl))

theorem deltaChunk_rgb (ha : p.a = prev.a)
    (hd : diffOk (delta m p.r prev.r) (delta m p.g prev.g) (delta m p.b prev.b) ≠ true)
    (hl : lumaOk (delta m p.r prev.r) (delta m p.g prev.g) (delta m p.b prev.b) ≠ true) :
    deltaChunk m prev p = .rgb p.r p.g p.b :=
  (if_pos ha).trans ((if_neg hd).trans (if_neg hl))

end

theorem diffOk_iff {dr dg db : Int} :
    diffOk dr dg db = true ↔ inDiffRange dr ∧ inDiffRange dg ∧ inDiffRange db := decide_eq_true_iff

theorem lumaOk_iff {dr dg db : Int} :
    lumaOk dr dg db = true ↔ inLumaRange dg ∧ inSecondaryRange (dr - dg) ∧ inSecondaryRange (db - dg) :=
  decide_eq_true_iff

/-- Settles O40: the deltas are the model's, and each place in the order has its lemma. -/
theorem encoderChoosesByPriority : Obligations.EncoderChoosesByPriority := by
  intro s p dr dg db hr hg hb
  obtain rfl := delta_eq_of_isDelta hr
  obtain rfl := delta_eq_of_isDelta hg
  obtain rfl := delta_eq_of_isDelta hb
  refine ⟨chooseChunk_stored, fun hslot => ?_⟩
  rw [chooseChunk_notStored hslot, ← diffOk_iff, ← lumaOk_iff]
  exact ⟨deltaChunk_rgba, fun ha => ⟨deltaChunk_diff ha, fun hd => ⟨deltaChunk_luma ha hd, deltaChunk_rgb ha hd⟩⟩⟩

/-! ### Three channels -/

/-- RGBA is chosen for a change of alpha only. -/
theorem chooseChunk_ne_rgba {p : Pixel} {s : State} (ha : p.a = s.prev.a) (r g b a : Byte) :
    chooseChunk p s ≠ .rgba r g b a := by
  by_cases hslot : s.cache.get (pixelHash p) = p
  · rw [chooseChunk_stored hslot]
    nofun
  · rw [chooseChunk_notStored hslot, deltaChunk, if_pos ha]
    split
    · nofun
    · split <;> nofun

/-- A fetch changes the counter of draws only, and with three channels gives an opaque pixel (rule R121). -/
theorem fetchPixel_ok {s t : State} {p : Pixel} (h : fetchPixel s = .ok p t) :
    t = accessed s s.mem t.draws s.reach ∧ (s.op.ch = 3 → p.a = 255) := by
  obtain ⟨bs, s1, hread, hpixel⟩ := Acc.bind_eq_ok.1 h
  obtain ⟨hs1, hlen, -⟩ := readBytes_ok hread
  cases hpixel
  exact ⟨hs1, fun hch => pixelOfBytes_alpha (by rw [hlen, hch]; rfl)⟩

/-- Settles O42: with three channels the fetched pixel and PREV are both opaque. -/
theorem threeChannelsNeverEmitRgba : Obligations.ThreeChannelsNeverEmitRgba := by
  intro s s1 p r g b a hI hf hch hfetch _
  have hph := hI.phase
  rw [PhaseOk, hf] at hph
  obtain ⟨hE, -⟩ := hph
  obtain ⟨hs1, hopaque⟩ := fetchPixel_ok hfetch
  refine chooseChunk_ne_rgba ?_ r g b a
  rw [hs1, accessed_prev, hE.opaqueAlpha hch, hopaque hch]

end Sys2Proof.Machine
end

section
/-! PROOFS. The encode steps (O36, O37, O38, O41). After its checks each step is one sequence of writes at the output
cursor and one change of the state; where the platform answers and the window has room, the writes complete and the
bytes are emitted. -/

namespace Sys2Proof.Machine

/-! ### Emission at the output cursor -/

theorem word_add_ofNat (x : Word) (n : Nat) : x + BitVec.ofNat 32 n = BitVec.ofNat 32 (x.toNat + n) := by
  rw [BitVec.ofNat_add, BitVec.ofNat_toNat, BitVec.setWidth_eq]

theorem RoomFor.mono {s : State} {m n : Nat} (h : RoomFor s n) (hmn : m ≤ n) : RoomFor s m :=
  ⟨(Nat.add_le_add_left hmn _).trans h.1, h.2⟩

/-- The output cursor does not wrap while the window has room. -/
theorem RoomFor.cursor_lt {s : State} {n : Nat} (h : RoomFor s n) : s.op.outPos.toNat + n < 2 ^ 32 :=
  h.1.trans_lt s.op.dstCap.isLt

theorem RoomFor.inSpace {s : State} {n : Nat} (h : RoomFor s n) :
    s.op.dstBase.toNat + s.op.outPos.toNat + n ≤ Config.addressSpace := by
  obtain ⟨hcap, hspace⟩ := h
  omega

/-- Answered writes at the output cursor complete where the window has room, and their bytes are emitted once the cursor
has moved past them. -/
theorem writeBytes_emitted {bs : List Byte} {s : State} (hm : Memory.wf s.mem) (ha : AccessesAnswered s bs.length)
    (hr : RoomFor s bs.length) : ∃ m d r,
      (∀ k, (writeBytes bs s.op.outPos.toNat s).finish k = k () (accessed s m d r)) ∧
      ∀ t, t.mem = m → t.op.outPos = s.op.outPos + BitVec.ofNat 32 bs.length → Emitted s t bs := by
  refine ⟨Memory.store bs (s.op.dstBase.toNat + s.op.outPos.toNat) s.mem, drawsAfter s bs.length,
    reachAfter s.reach s.op.outPos.toNat bs.length, fun k => ?_, fun t hmem hpos => ⟨?_, fun i hi => ?_, fun a hx => ?_⟩⟩
  · rw [writeBytes_of_answered ha hr.inSpace, Acc.finish_ok]
  · rw [hpos, word_add hr.cursor_lt]
  · rw [hmem, Memory.read_store_same bs hm hr.inSpace hi]
  · rw [hmem, Memory.read_store_other bs s.mem hx]

/-! ### The check step -/

theorem checkWindows_passes {s : State} (h : windowsIllegal s.op = false) (ho : windowsOverRegisters s = false)
    (k : Answer) : checkWindows s k = k := by
  rw [checkWindows, h, ho]
  rfl

section
variable {op : Latches}

theorem encodeError_dims (h : dimsOk op.w op.h ≠ true) : encodeError op = some .invalidDimensions := by
  simp [encodeError, h]

theorem encodeError_channels (hd : dimsOk op.w op.h = true) (h : channelsOk op.ch ≠ true) :
    encodeError op = some .invalidChannelCount := by
  simp [encodeError, hd, h]

theorem encodeError_size (hd : dimsOk op.w op.h = true) (hc : channelsOk op.ch = true)
    (h : op.srcLen.toNat ≠ op.npix.toNat * op.ch.toNat) : encodeError op = some .bufferSizeMismatch := by
  simp [encodeError, hd, hc, h]

theorem encodeError_overflow (hd : dimsOk op.w op.h = true) (hc : channelsOk op.ch = true)
    (hs : op.srcLen.toNat = op.npix.toNat * op.ch.toNat)
    (h : op.dstCap.toNat < 22 + op.npix.toNat * (op.ch.toNat + 1)) : encodeError op = some .outputOverflow := by
  simp [encodeError, hd, hc, hs, h]

theorem encodeError_none (hd : dimsOk op.w op.h = true) (hc : channelsOk op.ch = true)
    (hs : op.srcLen.toNat = op.npix.toNat * op.ch.toNat)
    (h : 22 + op.npix.toNat * (op.ch.toNat + 1) ≤ op.dstCap.toNat) : encodeError op = none := by
  simp [encodeError, hd, hc, hs, h]

end

/-- Behind legal windows the check step ends with what `encodeError` finds. -/
theorem encCheck_error {s : State} {e : ErrKind} (hw : windowsIllegal s.op = false) (ho : windowsOverRegisters s = false)
    (he : encodeError s.op = some e) : encCheck s = .next (raise e s) := by
  rw [encCheck, checkWindows_passes hw ho, he]

theorem encCheck_passes {s : State} (hw : windowsIllegal s.op = false) (ho : windowsOverRegisters s = false)
    (he : encodeError s.op = none) :
    encCheck s = .next { initCodec s with op := { s.op with outPos := 0 }, fsm := .encHdr } := by
  rw [encCheck, checkWindows_passes hw ho, he]

/-- Settles O36: the first of the checks that fails is the one `encodeError` finds. -/
theorem encodeChecksInOrder : Obligations.EncodeChecksInOrder := by
  intro s hq hf hw ho
  have hstep : step s = encCheck s := by rw [step_engine hq, engineTurn, hf]
  rw [hstep, ← dimsOk_iff, ← channelsOk_iff]
  exact ⟨fun hd => encCheck_error hw ho (encodeError_dims hd), fun hd =>
    ⟨fun hc => encCheck_error hw ho (encodeError_channels hd hc), fun hc =>
      ⟨fun hs => encCheck_error hw ho (encodeError_size hd hc hs), fun hs =>
        ⟨fun hcap => encCheck_error hw ho (encodeError_overflow hd hc hs hcap),
          fun hcap => encCheck_passes hw ho (encodeError_none hd hc hs hcap)⟩⟩⟩⟩

/-! ### The header and the footer -/

/-- A word's bytes, most significant first, are its quotients by powers of 256 (rule R67). -/
theorem be32Bytes_eq_div (v : Word) : be32Bytes v =
    [BitVec.ofNat 8 (v.toNat / 2 ^ 24), BitVec.ofNat 8 (v.toNat / 2 ^ 16), BitVec.ofNat 8 (v.toNat / 2 ^ 8),
      BitVec.ofNat 8 v.toNat] := by
  simp only [be32Bytes, BitVec.extractLsb', Nat.shiftRight_eq_div_pow, pow_zero, Nat.div_one]

/-- Settles O37: the header's 14 bytes are written at the cursor, which moves past them. -/
theorem encodeHeaderStep : Obligations.EncodeHeaderStep := by
  intro s hq hf hm ha hr
  obtain ⟨m, d, r, hwrite, hemit⟩ := writeBytes_emitted (bs := headerBytes s.op.w s.op.h s.op.ch s.op.cs) hm ha hr
  refine ⟨{ advanceOut 14 (accessed s m d r) with fsm := .encPix }, ?_, ?_, ?_⟩
  · rw [step_engine hq, engineTurn, hf]
    exact (encHeader_eq hr.cursor_lt).trans (hwrite _)
  · rw [← word_add_ofNat]
    rfl
  · rw [← be32Bytes_eq_div, ← be32Bytes_eq_div]
    exact hemit _ rfl rfl

/-- Completion keeps memory where the host left the output window alone. -/
theorem complete_untouched {s : State} (h : s.outTaint = false) (n : Word) :
    complete n s = closeOperation { flagsDone s with outLen := n } := by
  rw [complete, settleOutput, h]
  rfl

/-- Settles O41: the footer's 8 bytes are written at the cursor, and completion takes the cursor as the length. -/
theorem encodeFooterStep : Obligations.EncodeFooterStep := by
  intro s hq hf hm ha hr hout
  obtain ⟨m, d, r, hwrite, hemit⟩ := writeBytes_emitted (bs := Config.footer) hm ha hr
  refine ⟨complete (advanceOut 8 (accessed s m d r)).op.outPos (advanceOut 8 (accessed s m d r)), ?_, ?_⟩
  · rw [step_engine hq, engineTurn, hf]
    exact (encFooter_eq hr.cursor_lt).trans (hwrite _)
  · rw [complete_untouched (s := advanceOut 8 (accessed s m d r)) hout, ← word_add_ofNat]
    exact ⟨rfl, hemit _ rfl rfl⟩

/-! ### One pixel -/

/-- With a run of at most 61, RUN goes on exactly where no RUN chunk is due: below 62 and before the last pixel. -/
theorem pixelDone_run {p : Pixel} {s : State} (hrun : s.run.toNat ≤ 61) (hpix : s.op.pix.toNat < s.op.npix.toNat) :
    (pixelDone p (isLastPixel s) s).run =
      if p = s.prev ∧ s.run.toNat + 1 < 62 ∧ s.op.pix.toNat + 1 < s.op.npix.toNat then s.run + 1 else 0 := by
  have hlast : isLastPixel s = false ↔ s.op.pix.toNat + 1 < s.op.npix.toNat := by
    rw [isLastPixel, decide_eq_false_iff_not]
    omega
  have hmax : s.run.toNat + 1 ≠ 62 ↔ s.run.toNat + 1 < 62 := by omega
  simp only [← hlast, ← hmax]
  rfl

/-- Settles O38: the pixel in memory is encoded, its chunks' bytes are written at the cursor, and the state after the
pixel is `pixelDone` with the cursors of rule R30. -/
theorem encodePixelStep : Obligations.EncodePixelStep := by
  intro s hq hf hm hreads hroom hch hpix hmax hinput hrun
  have hlen := pixelChunks_length (pixelAt s s.op.pix.toNat) (isLastPixel s) s
  obtain ⟨m, d, r, hwrite, hemit⟩ :=
    writeBytes_emitted hm (accessesAnswered_of_noFaults hreads.noFaults _) (hroom.mono hlen)
  have hwindow : s.op.ch.toNat * s.op.pix.toNat + s.op.ch.toNat ≤ s.op.srcLen.toNat := by
    rw [← Nat.mul_succ, Nat.mul_comm]
    exact (Nat.mul_le_mul_right _ hpix).trans hinput
  have hsucc : s.op.pix + 1 = BitVec.ofNat 32 (s.op.pix.toNat + 1) := word_add_ofNat s.op.pix 1
  have hsuccNat : (s.op.pix + 1).toNat = s.op.pix.toNat + 1 := word_succ (by omega)
  refine ⟨afterPixel (pixelDone (pixelAt s s.op.pix.toNat) (isLastPixel s) (accessed s m d r)), ?_, ?_, hemit _ rfl rfl⟩
  · rw [step_engine hq, engineTurn, hf]
    exact (encPixel_memory hreads hch hrun hroom.cursor_lt hwindow).trans (hwrite _)
  · rw [← pixelDone_run hrun hpix, ← hsucc]
    simp only [← hsuccNat]
    rfl

end Sys2Proof.Machine
end

section
/-! PROOFS. The decode steps where reads give memory: the step that runs a stream instruction (O10) and the streams the
decoder turns away (O12). Each step is said once, as its checks and the decoder applied to the bytes of the window. -/

namespace Sys2Proof.Machine

/-! ### The bytes of the input window -/

theorem srcBytes_take (s : State) (off : Nat) {k n : Nat} (h : k ≤ n) :
    (srcBytes s off n).take k = srcBytes s off k := by
  rw [srcBytes, srcBytes, ← List.map_take, List.take_range, Nat.min_eq_left h]

theorem srcBytes_append (s : State) (off k n : Nat) :
    srcBytes s off k ++ srcBytes s (off + k) n = srcBytes s off (k + n) := by
  simp [srcBytes, List.range_add, Nat.add_assoc]

/-! ### DEC_CHECK (rules R191, R192) -/

section
variable {run : Instr → State → Answer} {s : State}

theorem decCheck_short (hw : windowsIllegal s.op = false) (ho : windowsOverRegisters s = false)
    (h : s.op.srcLen.toNat < 22) : decCheck run s = .next (raise .truncatedStream s) :=
  (checkWindows_passes hw ho _).trans (if_pos h)

theorem decCheck_memory (hm : ReadsMemory s) (hw : windowsIllegal s.op = false) (ho : windowsOverRegisters s = false)
    (h : 22 ≤ s.op.srcLen.toNat) :
    decCheck run s = if srcBytes s 0 4 ≠ Config.magic then .next (raise .badMagic s)
      else runDecoded run .badMagic (decodeHeader (srcBytes s 0 14)) s := by
  have hlen : ¬s.op.srcLen.toNat < Config.headerLen + Config.footerLen := Nat.not_lt.2 h
  rw [decCheck, checkWindows_passes hw ho, if_neg hlen, readBytes_memory hm (by omega), Acc.finish_ok,
    readBytes_memory hm (by omega), Acc.finish_ok, srcBytes_append]

theorem magic_of_decodeHeader {bs rest : List Byte} {i : Instr} (h : decodeHeader bs = .ok (i, rest)) :
    bs.take 4 = Config.magic := by
  rw [decodeHeader] at h
  split at h
  · cases h
  split at h
  · assumption
  · cases h

/-- The header of a stream that passes the checks is run. -/
theorem decCheck_runs (hm : ReadsMemory s) (hw : windowsIllegal s.op = false) (ho : windowsOverRegisters s = false)
    (h : 22 ≤ s.op.srcLen.toNat) {i : Instr} {rest : List Byte} (hd : decodeHeader (srcBytes s 0 14) = .ok (i, rest)) :
    decCheck run s = run i s := by
  have hmagic := magic_of_decodeHeader hd
  rw [srcBytes_take s 0 (by omega)] at hmagic
  rw [decCheck_memory hm hw ho h, if_neg (not_not.2 hmagic), hd, runDecoded]

/-! ### DEC_CHUNK (rules R196, R210) -/

theorem decChunk_noTag (h : s.op.srcLen.toNat < s.op.inPos.toNat + 1) :
    decChunk run s = .next (raise .truncatedStream s) := if_pos h

theorem decChunk_memory (hm : ReadsMemory s) (h : s.op.inPos.toNat + 1 ≤ s.op.srcLen.toNat) {t : Byte}
    (ht : Memory.read s.mem (s.op.srcBase.toNat + s.op.inPos.toNat) = t) :
    decChunk run s =
      if s.op.inPos.toNat + chunkLength t > s.op.srcLen.toNat then .next (raise .truncatedStream s)
      else runDecoded run .truncatedStream
        (decodeChunk (t :: srcBytes s (s.op.inPos.toNat + 1) (chunkLength t - 1))) s := by
  have hpos := (chunkLength_pos t).1
  rw [decChunk, if_neg (Nat.not_lt.2 h), readIn_memory hm h, Acc.finish_ok, ht]
  split
  · rfl
  · rw [readBytes_memory hm (by omega), Acc.finish_ok]

/-- A chunk that decodes has its bytes, and decodes the same from them alone. -/
theorem decodeChunk_needs {t : Byte} {bs rest : List Byte} {i : Instr} (h : decodeChunk (t :: bs) = .ok (i, rest)) :
    chunkLength t ≤ bs.length + 1 ∧ decodeChunk (t :: bs.take (chunkLength t - 1)) = .ok (i, []) := by
  have hlen : chunkLength t ≤ bs.length + 1 := Nat.le_of_not_lt fun hcut => by
    rw [decodeChunk_short hcut] at h
    cases h
  obtain ⟨j, hall, hown⟩ := decodeChunk_take (t := t) (rest := bs) (by omega)
  rw [hall] at h
  cases h
  exact ⟨hlen, hown⟩

/-- The chunk at the cursor is run, whatever bytes follow it. -/
theorem decChunk_runs (hm : ReadsMemory s) {i : Instr} {rest : List Byte}
    (hd : decodeChunk (srcBytes s s.op.inPos.toNat (s.op.srcLen.toNat - s.op.inPos.toNat)) = .ok (i, rest)) :
    decChunk run s = run i s := by
  cases hleft : s.op.srcLen.toNat - s.op.inPos.toNat with
  | zero =>
    rw [hleft] at hd
    cases hd
  | succ n =>
    rw [hleft, srcBytes_succ] at hd
    obtain ⟨hlen, hown⟩ := decodeChunk_needs hd
    rw [srcBytes_length] at hlen
    rw [srcBytes_take s _ (by omega)] at hown
    rw [decChunk_memory hm (by omega) rfl, if_neg (by omega), hown, runDecoded]

/-! ### DEC_FTR (rule R214) -/

theorem decFooter_short (h : s.op.srcLen.toNat < s.op.inPos.toNat + 8) :
    decFooter run s = .next (raise .truncatedStream s) := if_pos h

theorem decFooter_memory (hm : ReadsMemory s) (h : s.op.inPos.toNat + 8 ≤ s.op.srcLen.toNat) :
    decFooter run s = runDecoded run .badFooter (decodeFooter (srcBytes s s.op.inPos.toNat 8)) s := by
  have hlen : ¬s.op.inPos.toNat + Config.footerLen > s.op.srcLen.toNat := Nat.not_lt.2 h
  rw [decFooter, if_neg hlen, readBytes_memory hm (n := Config.footerLen) h, Acc.finish_ok, Config.footerLen]

theorem decodeFooter_bad {bs : List Byte} (hl : bs.length = 8) (h : bs ≠ Config.footer) :
    decodeFooter bs = .error .badFooter := by
  have hlen : ¬bs.length < Config.footerLen := Nat.not_lt.2 hl.ge
  have htake : bs.take Config.footerLen = bs := List.take_of_length_le hl.le
  rw [decodeFooter, if_neg hlen, htake, if_neg h]

/-- The footer at the cursor is run. -/
theorem decFooter_runs (hm : ReadsMemory s) (h : s.op.inPos.toNat + 8 ≤ s.op.srcLen.toNat) {i : Instr}
    {rest : List Byte} (hd : decodeFooter (srcBytes s s.op.inPos.toNat 8) = .ok (i, rest)) :
    decFooter run s = run i s := by
  rw [decFooter_memory hm h, hd, runDecoded]

theorem decFooter_bad (hm : ReadsMemory s) (h : s.op.inPos.toNat + 8 ≤ s.op.srcLen.toNat)
    (hbad : srcBytes s s.op.inPos.toNat 8 ≠ Config.footer) : decFooter run s = .next (raise .badFooter s) := by
  rw [decFooter_memory hm h, decodeFooter_bad (srcBytes_length _ _ _) hbad, runDecoded]

end

/-! ### The statements -/

section
variable {s : State} (hq : s.hostQ = [])
include hq

theorem step_decCheck (hf : s.fsm = .decCheck) : step s = decCheck exec s := by
  rw [step_engine hq, engineTurn, hf]

theorem step_decChunk (hf : s.fsm = .decChunk) : step s = decChunk exec s := by
  rw [step_engine hq, engineTurn, hf]

theorem step_decFooter (hf : s.fsm = .decFtr) : step s = decFooter exec s := by
  rw [step_engine hq, engineTurn, hf]

end

/-- Settles O10: in each control state of a decode the step runs what the decoder answers for the bytes at its place. -/
theorem stepRunsStreamInstruction : Obligations.StepRunsStreamInstruction := fun _ _ _ hq hm =>
  ⟨fun hf hd => (step_decChunk hq hf).trans (decChunk_runs hm hd),
    fun hf hw ho hl hd => (step_decCheck hq hf).trans (decCheck_runs hm hw ho hl hd),
    fun hf hl hd => (step_decFooter hq hf).trans (decFooter_runs hm hl hd)⟩

/-- Settles O12: each clause is one of the checks of a decode step. -/
theorem decoderRejectsBadStreams : Obligations.DecoderRejectsBadStreams := by
  refine fun s hq hm => ⟨fun hf hw ho hl => ?short, fun hf hw ho hl hbad => ?magic, fun hf hl => ?tag,
    fun hf hl hcut => ?payload, fun hf hl => ?footer, fun hf hl hbad => ?badFooter⟩
  case short => exact (step_decCheck hq hf).trans (decCheck_short hw ho hl)
  case magic => exact (step_decCheck hq hf).trans ((decCheck_memory hm hw ho hl).trans (if_pos hbad))
  case tag => exact (step_decChunk hq hf).trans (decChunk_noTag hl)
  case payload => exact (step_decChunk hq hf).trans ((decChunk_memory hm hl rfl).trans (if_pos hcut))
  case footer => exact (step_decFooter hq hf).trans (decFooter_short hl)
  case badFooter => exact (step_decFooter hq hf).trans (decFooter_bad hm hl hbad)

end Sys2Proof.Machine
end

section
/-! PROOFS. The six chunks (O13 to O19). Each hands its pixel and count to the tail of DECODE_CHUNK, whose effect is
said once. -/

namespace Sys2Proof.Machine

/-! ### The tail of DECODE_CHUNK -/

/-- Where it is ready, a chunk completes and has its effect. -/
theorem decodeTail_effect {s : State} {len cnt : Nat} (p : Pixel) (h : ChunkReady s len cnt) :
    ∃ t, decodeTail len p cnt s = .next t ∧ ChunkEffect s t len p cnt := by
  obtain ⟨t, ht, heffect, -⟩ := decodeTail_of_ready p h
  exact ⟨t, ht, heffect⟩

/-- A chunk whose bytes are not all there is cut short (rule R210). -/
theorem decodeTail_short {s : State} {len : Nat} (h : s.op.srcLen.toNat < s.op.inPos.toNat + len) (p : Pixel)
    (cnt : Nat) : decodeTail len p cnt s = .next (raise .truncatedStream s) := if_pos h

/-! ### Raw pixels -/

/-- Settles O13: RGB is a chunk of 4 bytes for one pixel with PREV's alpha. -/
theorem rgbChunk : Obligations.RgbChunk :=
  ⟨decodeChunk_rgbTag, fun _ _ _ _ => ⟨decodeTail_effect _, fun h => decodeTail_short h _ 1⟩⟩

/-- Settles O14: RGBA is a chunk of 5 bytes for one pixel. -/
theorem rgbaChunk : Obligations.RgbaChunk :=
  ⟨decodeChunk_rgbaTag, fun _ _ _ _ _ => ⟨decodeTail_effect _, fun h => decodeTail_short h _ 1⟩⟩

/-! ### Cached and repeated pixels -/

/-- Settles O15: INDEX is a chunk of 1 byte for the slot's pixel. -/
theorem indexChunk : Obligations.IndexChunk :=
  ⟨fun _ rest ht => decodeChunk_indexTag ht rest, fun _ _ => decodeTail_effect _⟩

/-- Settles O18: RUN is a chunk of 1 byte for `len` copies of PREV, and the tail drops the excess. -/
theorem runChunk : Obligations.RunChunk :=
  ⟨fun _ rest hlo hhi => decodeChunk_runTag hlo hhi rest, fun _ _ => decodeTail_effect _⟩

/-- Settles O19: the RUN stores PREV in the slot that holds it. -/
theorem runLeavesCacheUnchanged : Obligations.RunLeavesCacheUnchanged := by
  intro s len hcodec hready
  obtain ⟨t, ht, heffect⟩ := decodeTail_effect s.prev hready
  refine ⟨t, ht, ?_, ?_⟩ <;> rw [heffect.fields]
  exact cache_set_own hcodec.own

/-! ### Pixels predicted from PREV -/

/-- Settles O16: DIFF is a chunk of 1 byte for PREV moved by its deltas. -/
theorem diffChunk : Obligations.DiffChunk := by
  refine ⟨fun _ rest hlo hhi => decodeChunk_diffTag hlo hhi rest, fun s dr dg db hready => ?_⟩
  obtain ⟨t, ht, heffect⟩ := decodeTail_effect (diffPixel s.prev dr dg db) hready
  exact ⟨t, _, ht, heffect, add8_toNat _ _, add8_toNat _ _, add8_toNat _ _, rfl⟩

/-- Settles O17: LUMA is a chunk of 2 bytes for PREV moved by the green delta and what red and blue add to it. -/
theorem lumaChunk : Obligations.LumaChunk := by
  refine ⟨fun _ u rest hlo hhi => decodeChunk_lumaTag hlo hhi u rest,
    fun s dg drg dbg => ⟨fun hready => ?_, fun h => decodeTail_short h _ 1⟩⟩
  obtain ⟨t, ht, heffect⟩ := decodeTail_effect (lumaPixel s.prev dg drg dbg) hready
  refine ⟨t, _, ht, heffect, ?_, add8_toNat _ _, ?_, rfl⟩ <;> rw [Int.add_assoc] <;> exact add8_toNat _ _

end Sys2Proof.Machine
end

section
/-! PROOFS. The channel count of a decode (O20). A chunk that ends without an error has made all its writes, and what
they leave of the state besides memory does not depend on how many bytes a pixel has. -/

namespace Sys2Proof.Machine

/-- WRITE_PIXELS that completed: the pixels are counted, and memory aside nothing else has changed. -/
theorem writePixels_ok {p : Pixel} {n : Nat} {s t : State} {u : Unit} (h : writePixels p n s = .ok u t) :
    ∃ m d r, t = accessed (advancePix n s) m d r := by
  induction n generalizing s with
  | zero =>
    cases h
    exact ⟨t.mem, t.draws, t.reach, by rw [advancePix_zero]; rfl⟩
  | succ n ih =>
    rw [writePixels_succ] at h
    obtain ⟨u1, s1, h1, h2⟩ := Acc.bind_eq_ok.1 h
    obtain ⟨m, d, r, rfl⟩ := ih h2
    refine ⟨m, d, r, ?_⟩
    rw [advancePix_advancePix, Nat.add_comm 1, (writeBytes_ok h1).2]
    rfl

theorem ne_raise_of_noError {t : State} (he : t.err = false) (e : ErrKind) (s : State) : t ≠ raise e s := fun ht => by
  rw [ht, raise_err] at he
  cases he

/-- A chunk that ends without an error leaves the state after the chunk. -/
theorem decodeTail_noError {len cnt : Nat} {p : Pixel} {s t : State} (h : decodeTail len p cnt s = .next t)
    (he : t.err = false) : ∃ m d r, t = chunkDone len p cnt (accessed s m d r) := by
  unfold decodeTail at h
  split at h
  · exact (ne_raise_of_noError he _ _ (Host.Outcome.next.inj h).symm).elim
  · rcases Acc.finish_eq_next.1 h with ⟨u, s1, hwrite, hend⟩ | ⟨e, s1, -, ht⟩
    · obtain ⟨m, d, r, rfl⟩ := writePixels_ok hwrite
      exact ⟨m, d, r, (Host.Outcome.next.inj hend).symm⟩
    · exact (ne_raise_of_noError he _ _ ht).elim

/-- `s` decoding to another channel count. -/
def withChannels (ch : Byte) (s : State) : State := { s with op := { s.op with ch := ch } }

/-- The length, the pixel and the count of a chunk do not depend on the channel count. -/
theorem exec_chunk_withChannels {i : Instr} (hi : isChunk i = true) (s : State) :
    ∃ len p cnt, ∀ ch, exec i (withChannels ch s) = decodeTail len p cnt (withChannels ch s) := by
  cases i with
  | rgb r g b => exact ⟨4, { r := r, g := g, b := b, a := s.prev.a }, 1, fun _ => rfl⟩
  | rgba r g b a => exact ⟨5, { r := r, g := g, b := b, a := a }, 1, fun _ => rfl⟩
  | index k => exact ⟨1, s.cache.get k, 1, fun _ => rfl⟩
  | diff dr dg db => exact ⟨1, diffPixel s.prev dr dg db, 1, fun _ => rfl⟩
  | luma dg drg dbg => exact ⟨2, lumaPixel s.prev dg drg dbg, 1, fun _ => rfl⟩
  | run len => exact ⟨1, s.prev, len, fun _ => rfl⟩
  | _ => cases hi

/-- Settles O20: both chunks leave the state after the same length, pixel and count, from states that differ in the
channel count only. -/
theorem channelCountChangesOnlyOutput : Obligations.ChannelCountChangesOnlyOutput := by
  intro s t t' i bs rest hd h h' he he' hs
  obtain ⟨len, p, cnt, hexec⟩ := exec_chunk_withChannels (decodeChunk_isChunk hd) s
  obtain ⟨m, d, r, rfl⟩ := decodeTail_noError ((hexec 3).symm.trans h) (he.trans hs)
  obtain ⟨m', d', r', rfl⟩ := decodeTail_noError ((hexec 4).symm.trans h') (he'.trans hs)
  exact ⟨rfl, rfl, rfl, rfl⟩

end Sys2Proof.Machine
end

section
/-! PROOFS. The header and the footer of a decode (O21 to O24). -/

namespace Sys2Proof.Machine

/-! ### The header -/

section
variable {w h : Word} {ch : Byte} {cap : Word}

theorem headerError_dims (hd : dimsOk w h ≠ true) : headerError w h ch cap = some .invalidDimensions := by
  simp [headerError, hd]

theorem headerError_channels (hd : dimsOk w h = true) (hc : channelsOk ch ≠ true) :
    headerError w h ch cap = some .invalidChannelCount := by
  simp [headerError, hd, hc]

theorem headerError_overflow (hd : dimsOk w h = true) (hc : channelsOk ch = true)
    (ho : cap.toNat < w.toNat * h.toNat * ch.toNat) : headerError w h ch cap = some .outputOverflow := by
  simp [headerError, hd, hc, pixelCount_toNat, ho]

theorem headerError_none (hd : dimsOk w h = true) (hc : channelsOk ch = true)
    (ho : w.toNat * h.toNat * ch.toNat ≤ cap.toNat) : headerError w h ch cap = none := by
  simp [headerError, hd, hc, pixelCount_toNat, ho]

end

theorem execHeader_error {w h : Word} {ch : Byte} {s : State} {e : ErrKind}
    (he : headerError w h ch s.op.dstCap = some e) (cs : Byte) : execHeader w h ch cs s = .next (raise e s) := by
  rw [execHeader, he]

theorem execHeader_passes {w h : Word} {ch : Byte} {s : State} (he : headerError w h ch s.op.dstCap = none)
    (cs : Byte) : execHeader w h ch cs s =
      .next { initCodec s with op := headerLatches w h ch cs s.op, fsm := .decChunk } := by
  rw [execHeader, he]

/-- Settles O21: no check of the header fails. -/
theorem headerAccepted : Obligations.HeaderAccepted := by
  intro s w h ch cs hw hh hn hc ho
  rw [← pixelCount_eq_ofNat]
  exact execHeader_passes (headerError_none (dimsOk_iff.2 ⟨hw, hh, hn⟩) (channelsOk_iff.2 hc) ho) cs

/-- Settles O22: the first of the checks that fails is the one `headerError` finds. -/
theorem headerRejected : Obligations.HeaderRejected := by
  intro s w h ch cs
  simp only [← dimsOk_iff, ← channelsOk_iff]
  exact ⟨fun hd => execHeader_error (headerError_dims hd) cs,
    fun hd hc => execHeader_error (headerError_channels hd hc) cs,
    fun hd hc ho => execHeader_error (headerError_overflow hd hc ho) cs⟩

/-! ### The footer -/

theorem execFooter_short {s : State} (h : s.op.srcLen.toNat < s.op.inPos.toNat + 8) :
    execFooter s = .next (raise .truncatedStream s) := if_pos h

theorem execFooter_notLast {s : State} (h : s.op.inPos.toNat + 8 < s.op.srcLen.toNat) :
    execFooter s = .next (raise .badFooter s) :=
  (if_neg (Nat.not_lt.2 h.le)).trans (if_pos h.ne)

theorem execFooter_last {s : State} (h : s.op.inPos.toNat + 8 = s.op.srcLen.toNat) :
    execFooter s = .next (complete (decodedLength s) (writeResult s)) :=
  (if_neg (Nat.not_lt.2 h.le)).trans (if_neg (not_not.2 h))

/-- Completion, written out: memory and the counter of draws are those of the settled output window. -/
theorem complete_fields (n : Word) (s : State) : complete n s = { s with
    outLen := n, busy := false, done := true, errCode := 0, fsm := .idle
    mem := (complete n s).mem, draws := (complete n s).draws, reach := 0, inTaint := false, outTaint := false } := by
  unfold complete settleOutput
  split <;> rfl

/-- Settles O23: the decode completes with the result registers written. -/
theorem footerCompletes : Obligations.FooterCompletes := fun s h =>
  ⟨complete (decodedLength s) (writeResult s), execFooter_last h, complete_fields _ (writeResult s),
    fun hout => by rw [complete_untouched (s := writeResult s) hout]; rfl,
    complete_agreesOutside _ (writeResult s)⟩

/-- Settles O24: fewer than 8 bytes are left, or more. -/
theorem footerRejected : Obligations.FooterRejected := fun _ => ⟨execFooter_short, execFooter_notLast⟩

end Sys2Proof.Machine
end

section
/-! PROOFS. ENC_DELTA_MODE in a decode (O56). A decode step is the same step among other host registers and with another
ENC_DELTA_MODE, and it changes neither. -/

namespace Sys2Proof.Machine

/-- `s` on a platform with another ENC_DELTA_MODE. -/
def withDeltaMode (m : Config.DeltaMode) (s : State) : State := { s with cfg := { s.cfg with deltaMode := m } }

theorem withDeltaMode_eq_among (m : Config.DeltaMode) (s : State) :
    withDeltaMode m s = among (withDeltaMode m s) s := rfl

/-- The check of the header and a chunk are the same step with any ENC_DELTA_MODE. -/
theorem engineTurn_among_decode {s : State} (hf : s.fsm = .decCheck ∨ s.fsm = .decChunk) (u : State) :
    engineTurn exec (among u s) = mapNext (among u) (engineTurn exec s) := by
  unfold engineTurn
  rw [show (among u s).fsm = s.fsm from rfl]
  rcases hf with hf | hf <;> rw [hf]
  · exact decCheck_among u s
  · exact decChunk_among u s

/-- A state that is its own engine among the registers of `s` differs in ENC_DELTA_MODE only from its engine among the
registers of `s` with another mode. -/
theorem among_withDeltaMode {s t : State} (h : t = among s t) (m : Config.DeltaMode) :
    among (withDeltaMode m s) t = withDeltaMode m t := by
  rw [h]
  rfl

theorem amongResult_withDeltaMode {s t : State} (h : t = amongResult s t) (m : Config.DeltaMode) :
    amongResult (withDeltaMode m s) t = withDeltaMode m t := by
  unfold amongResult at h ⊢
  split
  · next hdone =>
    rw [if_pos hdone] at h
    rw [h]
    rfl
  · next hdone =>
    rw [if_neg hdone] at h
    exact among_withDeltaMode h m

/-- Settles O56: each decode step passes the mode through, and keeps all else that it does not read. -/
theorem deltaModeDoesNotAffectDecoder : Obligations.DeltaModeDoesNotAffectDecoder := by
  intro s m hf
  show engineTurn exec (withDeltaMode m s) = mapNext (withDeltaMode m) (engineTurn exec s)
  rw [withDeltaMode_eq_among]
  rcases or_assoc.2 hf with hf | hf
  · rw [engineTurn_among_decode hf]
    exact mapNext_congr fun t ht => among_withDeltaMode (eq_of_mapNext (engineTurn_among_decode hf s) ht) m
  · rw [engineTurn_amongResult _ hf]
    exact mapNext_congr fun t ht => amongResult_withDeltaMode (eq_of_mapNext (engineTurn_amongResult s hf) ht) m

end Sys2Proof.Machine
end

section
/-! PROOFS. Host commands (O25, O26, O27, O28), writes to the other registers (O30) and what a running engine shows the
host (O32). -/

namespace Sys2Proof.Machine

/-! ### START (rules R231, R232) -/

/-- START while not BUSY is the register update of rule R231. -/
theorem writeStart_idle {s : State} (h : s.busy = false) (mode : Mode) (q : Bool) :
    writeStart mode q s = .next (startOperation mode q s) := by
  rw [writeStart, h]
  rfl

/-- START while BUSY changes IRQ_EN only (rule R232). -/
theorem writeStart_busy {s : State} (h : s.busy = true) (mode : Mode) (q : Bool) :
    writeStart mode q s = .next { s with irqEn := q } := by
  rw [writeStart, if_pos h]

/-- Settles O25: START starts the operation, whose pixel count is the product of WIDTH and HEIGHT. -/
theorem startLatchesConfiguration : Obligations.StartLatchesConfiguration := by
  refine fun s irqEn hb => ⟨(writeStart_idle hb .encode irqEn).trans ?_, writeStart_idle hb .decode irqEn⟩
  rw [← pixelCount_eq_ofNat]
  rfl

theorem decodeCtrl_start {v : Word} (h : v.getLsbD 0 = true) :
    decodeCtrl v = if v.getLsbD 1 = true then .startDecode (v.getLsbD 2) else .startEncode (v.getLsbD 2) :=
  if_pos h

/-- Settles O26: bit 0 makes the value a START, which while BUSY changes IRQ_EN only. -/
theorem startWhileBusyIgnored : Obligations.StartWhileBusyIgnored :=
  ⟨fun v h => (decodeRegWrite_ctrl v).trans (congrArg Except.ok (decodeCtrl_start h)),
    fun _ irqEn hb => ⟨writeStart_busy hb .encode irqEn, writeStart_busy hb .decode irqEn⟩⟩

/-! ### SET_IRQ_EN and CLEAR_STATUS (rules R234, R235) -/

theorem decodeCtrl_setIrqEn {v : Word} (h : v.getLsbD 0 = false) :
    decodeCtrl v = .setIrqEn (if v.getLsbD 1 = true then .decode else .encode) (v.getLsbD 2) :=
  if_neg (Bool.eq_false_iff.1 h)

/-- Settles O27: with bit 0 clear the value is a SET_IRQ_EN, which keeps DONE and ERR, so the interrupt level follows
IRQ_EN. -/
theorem setIrqEnCommand : Obligations.SetIrqEnCommand :=
  ⟨fun v h => (decodeRegWrite_ctrl v).trans (congrArg Except.ok (decodeCtrl_setIrqEn h)),
    fun _ _ _ => ⟨_, rfl, rfl, rfl⟩⟩

theorem and_not_eq_ite (a d : Bool) : (a && !d) = if d = true then false else a := by
  cases d
  · exact Bool.and_true a
  · exact Bool.and_false a

/-- CLEAR_STATUS clears each flag whose bit is 1 (rule R234). -/
theorem flagsClear_fields (d r : Bool) (s : State) : flagsClear d r s =
    { s with done := if d = true then false else s.done, err := if r = true then false else s.err } := by
  rw [flagsClear, and_not_eq_ite, and_not_eq_ite]

/-- Settles O28: bits 1 and 2 of the value make it a CLEAR_STATUS of these flags, which keeps IRQ_EN. -/
theorem clearStatusCommand : Obligations.ClearStatusCommand := fun s v =>
  ⟨_, decodeRegWrite_status v, rfl, flagsClear_fields (v.getLsbD 1) (v.getLsbD 2) s, rfl⟩

/-! ### Writes to the other registers (rule R237) -/

/-- A 32-bit aligned write to a register other than CTRL and STATUS takes the turn. -/
theorem step_configWrite {s : State} {offset : BitVec 8} {v : Word} {rest : List HostOp}
    (hq : s.hostQ = .regWrite offset .word v :: rest) (ha : offset.toNat % 4 = 0) (hctrl : offset.toNat ≠ 0x04)
    (hstatus : offset.toNat ≠ 0x08) : step s = .next (writeConfig offset v { s with hostQ := rest }) := by
  have hgood : goodAccess offset .word = true := decide_eq_true ⟨rfl, ha⟩
  have hother : decodeRegWrite offset v = .error .notACommand :=
    decodeRegWrite_other v (fun h => hctrl (by rw [h]; rfl)) (fun h => hstatus (by rw [h]; rfl))
  rw [step_hostOp hq, hostTurn, hostRegWrite, if_pos hgood, hother]

theorem writeConfig_busy {s : State} (hb : s.busy = true) (offset : BitVec 8) (v : Word) : writeConfig offset v s = s :=
  if_pos hb

/-- ID, ERROR, OUT_LEN and the reserved offsets ignore a write. -/
theorem writeConfig_readOnly {offset : BitVec 8}
    (h : offset.toNat = 0x00 ∨ offset.toNat = 0x0C ∨ offset.toNat = 0x2C ∨ 0x30 ≤ offset.toNat) (v : Word) (s : State) :
    writeConfig offset v s = s := by
  unfold writeConfig
  split
  · rfl
  · split
    case h_8 => rfl
    all_goals omega

/-- A write while not BUSY at the offset `k`. That the engine is not BUSY is written into the state, so that the write
computes where `k` is a numeral. -/
theorem writeConfig_idle {s : State} (hb : s.busy = false) {offset : BitVec 8} {k : Nat} (hk : offset.toNat = k)
    (v : Word) : writeConfig offset v s =
      { writeConfig (BitVec.ofNat 8 k) v { s with busy := false } with busy := s.busy } := by
  have hself : { s with busy := false } = s := by rw [← hb]
  rw [hself, ← hk, BitVec.ofNat_toNat, BitVec.setWidth_eq, ← (writeConfig_leaves offset v s).busy]

theorem lowByte_eq_ofNat (v : Word) : v.extractLsb' 0 8 = BitVec.ofNat 8 v.toNat := rfl

theorem secondByte_eq_ofNat (v : Word) : v.extractLsb' 8 8 = BitVec.ofNat 8 (v.toNat / 256) :=
  congrArg (BitVec.ofNat 8) (Nat.shiftRight_eq_div_pow v.toNat 8)

/-- Settles O30: while not BUSY the write computes at each offset of a register that can be written. -/
theorem configurationWrites : Obligations.ConfigurationWrites := by
  intro s offset v rest hq ha hctrl hstatus
  rw [step_configWrite hq ha hctrl hstatus, ← lowByte_eq_ofNat, ← secondByte_eq_ofNat]
  have write {k : Nat} (hb : s.busy = false) (hk : offset.toNat = k) :=
    congrArg (Host.Outcome.next : State → Answer) (writeConfig_idle (s := { s with hostQ := rest }) hb hk v)
  exact ⟨fun hb => congrArg _ (writeConfig_busy (s := { s with hostQ := rest }) hb offset v),
    write, write, write, write, write, write, write,
    fun _ h => congrArg _ (writeConfig_readOnly h v _)⟩

/-! ### What a running engine shows (rule R236) -/

/-- Settles O32: while BUSY the invariant has DONE, ERR, ERROR.CODE and OUT_LEN at 0. -/
theorem readsWhileBusy : Obligations.ReadsWhileBusy := by
  intro s hI hb
  have hcode : s.errCode = 0 := hI.codeOk.1 (.inl hb)
  refine ⟨?_, ?_, hI.outLen_zero hb⟩
  · show statusWord s = 1
    rw [statusWord, hb, hI.done_false hb, hI.err_false hb]
    rfl
  · show s.errCode.zeroExtend 32 = 0
    rw [hcode]
    rfl

end Sys2Proof.Machine
end

section
/-! PROOFS. How an operation ends (O57). An engine step of a running operation goes on, or ends it with `raise` or
`complete`, which report ERR or DONE (rules R233, R266). Of the host's actions only RST ends an operation. -/

namespace Sys2Proof.Machine

/-- The operation of `t` is running, or its end is reported in DONE or ERR. -/
def RunsOrReports (t : State) : Prop := t.busy = true ∨ t.done = true ∨ t.err = true

theorem raise_reports (e : ErrKind) (s : State) : RunsOrReports (raise e s) := .inr (.inr rfl)

theorem complete_reports (n : Word) (s : State) : RunsOrReports (complete n s) := .inr (.inl rfl)

/-! ### Sequencing -/

/-- A step that begins with accesses runs or reports if what follows completed accesses does. -/
theorem Acc.finish_runsOrReports {α : Type} {x : Acc α} {k : α → State → Answer} {t : State}
    (h : x.finish k = .next t) (hk : ∀ a s, x = .ok a s → k a s = .next t → RunsOrReports t) : RunsOrReports t := by
  rcases Acc.finish_eq_next.1 h with ⟨a, s, hx, ht⟩ | ⟨e, s, -, rfl⟩
  · exact hk a s hx ht
  · exact raise_reports e s

theorem readIn_busy {off : Nat} {s t : State} {b : Byte} (h : readIn off s = .ok b t) : t.busy = s.busy := by
  rw [(readIn_ok h).1, accessed_busy]

theorem readBytes_busy {n off : Nat} {s t : State} {bs : List Byte} (h : readBytes n off s = .ok bs t) :
    t.busy = s.busy := by
  rw [(readBytes_ok h).1, accessed_busy]

theorem writeBytes_busy {bs : List Byte} {off : Nat} {s t : State} {u : Unit} (h : writeBytes bs off s = .ok u t) :
    t.busy = s.busy := by
  rw [(writeBytes_ok h).2, accessed_busy]

theorem checkWindows_runsOrReports {s t : State} {k : Answer} (h : checkWindows s k = .next t)
    (hk : k = .next t → RunsOrReports t) : RunsOrReports t := by
  unfold checkWindows at h
  split at h
  · cases h
    exact raise_reports _ s
  · split at h
    · cases h
    · exact hk h

theorem runDecoded_runsOrReports {run : Instr → State → Answer} {e : ErrKind} {x : Except DecodeError (Instr × List Byte)}
    {s t : State} (h : runDecoded run e x s = .next t)
    (hk : ∀ i rest, x = .ok (i, rest) → run i s = .next t → RunsOrReports t) : RunsOrReports t := by
  cases x with
  | ok y => exact hk y.1 y.2 rfl h
  | error d =>
    cases h
    exact raise_reports e s

/-! ### The encode steps -/

theorem encCheck_runsOrReports {s t : State} (hb : s.busy = true) (h : encCheck s = .next t) : RunsOrReports t := by
  refine checkWindows_runsOrReports h fun hk => ?_
  cases he : encodeError s.op with
  | some e =>
    rw [he] at hk
    cases hk
    exact raise_reports e s
  | none =>
    rw [he] at hk
    cases hk
    exact .inl hb

theorem encHeader_runsOrReports {s t : State} (hI : Inv s) (hf : s.fsm = .encHdr) (h : encHeader s = .next t) :
    RunsOrReports t := by
  have hph := hI.phase
  rw [PhaseOk, hf] at hph
  obtain ⟨-, -, ho, -⟩ := hph
  rw [encHeader_eq (by rw [ho]; decide)] at h
  refine Acc.finish_runsOrReports h fun u s1 hw ht => ?_
  cases ht
  exact .inl ((writeBytes_busy hw).trans (hI.busy_of hf nofun))

theorem encPixel_runsOrReports {s t : State} (hI : Inv s) (hf : s.fsm = .encPix) (h : encPixel s = .next t) :
    RunsOrReports t := by
  have hph := hI.phase
  rw [PhaseOk, hf] at hph
  obtain ⟨hE, hlt, hrun, -, -, ho⟩ := hph
  rw [encPixel_eq hrun (hE.cursor_room hlt (le_of_add_le_left ho))] at h
  refine Acc.finish_runsOrReports h fun bs s1 hr h1 => ?_
  refine Acc.finish_runsOrReports h1 fun u s2 hw ht => ?_
  cases ht
  exact .inl ((writeBytes_busy hw).trans ((readBytes_busy hr).trans (hI.busy_of hf nofun)))

theorem encFooter_reports {s t : State} (h : encFooter s = .next t) : RunsOrReports t := by
  refine Acc.finish_runsOrReports h fun u s1 _ ht => ?_
  cases ht
  exact complete_reports _ s1

/-! ### The decode steps -/

theorem execHeader_runsOrReports {s t : State} {w ht : Word} {ch cs : Byte} (hb : s.busy = true)
    (h : execHeader w ht ch cs s = .next t) : RunsOrReports t := by
  unfold execHeader at h
  split at h <;> cases h
  · exact raise_reports _ s
  · exact .inl hb

theorem decCheck_runsOrReports {s t : State} (hb : s.busy = true) (h : decCheck exec s = .next t) :
    RunsOrReports t := by
  refine checkWindows_runsOrReports h fun hk => ?_
  split at hk
  · cases hk
    exact raise_reports _ s
  refine Acc.finish_runsOrReports hk fun m s1 h1 hk1 => ?_
  split at hk1
  · cases hk1
    exact raise_reports _ s1
  refine Acc.finish_runsOrReports hk1 fun bs s2 h2 hk2 => ?_
  refine runDecoded_runsOrReports hk2 fun i rest hd hx => ?_
  obtain ⟨w, ht, ch, cs, rfl⟩ := decodeHeader_ok hd
  exact execHeader_runsOrReports ((readBytes_busy h2).trans ((readBytes_busy h1).trans hb)) hx

theorem chunkDone_busy (len : Nat) (p : Pixel) (cnt : Nat) (s : State) : (chunkDone len p cnt s).busy = s.busy := rfl

theorem decodeTail_runsOrReports {len cnt : Nat} {p : Pixel} {s t : State} (hb : s.busy = true)
    (h : decodeTail len p cnt s = .next t) : RunsOrReports t := by
  cases he : t.err with
  | true => exact .inr (.inr he)
  | false =>
    obtain ⟨m, d, r, ht⟩ := decodeTail_noError h he
    exact .inl (by rw [ht, chunkDone_busy, accessed_busy, hb])

theorem decChunk_runsOrReports {s t : State} (hb : s.busy = true) (h : decChunk exec s = .next t) :
    RunsOrReports t := by
  unfold decChunk at h
  split at h
  · cases h
    exact raise_reports _ s
  refine Acc.finish_runsOrReports h fun tag s1 h1 hk1 => ?_
  split at hk1
  · cases hk1
    exact raise_reports _ s1
  refine Acc.finish_runsOrReports hk1 fun bs s2 h2 hk2 => ?_
  refine runDecoded_runsOrReports hk2 fun i rest hd hx => ?_
  obtain ⟨len, p, cnt, -, htail⟩ := exec_chunk hd s2
  rw [htail] at hx
  exact decodeTail_runsOrReports ((readBytes_busy h2).trans ((readIn_busy h1).trans hb)) hx

theorem execFooter_reports {s t : State} (h : execFooter s = .next t) : RunsOrReports t := by
  unfold execFooter at h
  split at h
  · cases h
    exact raise_reports _ s
  · split at h <;> cases h
    · exact raise_reports _ s
    · exact complete_reports _ _

theorem decFooter_reports {s t : State} (h : decFooter exec s = .next t) : RunsOrReports t := by
  unfold decFooter at h
  split at h
  · cases h
    exact raise_reports _ s
  refine Acc.finish_runsOrReports h fun bs s1 _ hk => ?_
  refine runDecoded_runsOrReports hk fun i rest hd hx => ?_
  rw [decodeFooter_ok hd] at hx
  exact execFooter_reports hx

/-- An engine step of a running operation goes on or reports the end. -/
theorem engineTurn_runsOrReports {s t : State} (hI : Inv s) (hb : s.busy = true) (h : engineTurn exec s = .next t) :
    RunsOrReports t := by
  unfold engineTurn at h
  cases hf : s.fsm <;> rw [hf] at h
  case idle => exact absurd hf (hI.busyIff.1 hb)
  case encCheck => exact encCheck_runsOrReports hb h
  case encHdr => exact encHeader_runsOrReports hI hf h
  case encPix => exact encPixel_runsOrReports hI hf h
  case encFtr => exact encFooter_reports h
  case decCheck => exact decCheck_runsOrReports hb h
  case decChunk => exact decChunk_runsOrReports hb h
  case decFtr => exact decFooter_reports h

/-! ### The host's actions -/

theorem writeStart_running {s t : State} {mode : Mode} {q : Bool} (h : writeStart mode q s = .next t) :
    t.busy = true := by
  cases hb : s.busy with
  | true =>
    rw [writeStart_busy hb] at h
    cases h
    exact hb
  | false =>
    rw [writeStart_idle hb] at h
    cases h
    rfl

/-- A write to CTRL leaves an operation running, or the flags as they are. -/
theorem exec_decodeCtrl_flags {s t : State} {v : Word} (h : exec (decodeCtrl v) s = .next t) :
    t.busy = true ∨ (t.busy = s.busy ∧ t.done = s.done ∧ t.err = s.err) := by
  unfold decodeCtrl at h
  split at h
  · split at h
    · exact .inl (writeStart_running (mode := .decode) h)
    · exact .inl (writeStart_running (mode := .encode) h)
  · cases h
    exact .inr ⟨rfl, rfl, rfl⟩

/-- No register write ends an operation. -/
theorem hostRegWrite_busy {s t : State} {offset : BitVec 8} {size : AccessSize} {v : Word} (hb : s.busy = true)
    (h : hostRegWrite exec offset size v s = .next t) : t.busy = true := by
  unfold hostRegWrite at h
  split at h
  · by_cases hc : offset = ctrlOffset
    · rw [hc, decodeRegWrite_ctrl] at h
      exact (exec_decodeCtrl_flags h).elim id fun ⟨hbusy, _⟩ => hbusy.trans hb
    · by_cases hs : offset = statusOffset
      · rw [hs, decodeRegWrite_status] at h
        cases h
        exact hb
      · rw [decodeRegWrite_other v hc hs] at h
        cases h
        exact (writeConfig_leaves offset v s).busy.trans hb
  · cases h

theorem hostRegRead_busy {s t : State} {offset : BitVec 8} {size : AccessSize}
    (h : hostRegRead offset size s = .next t) : t.busy = s.busy := by
  unfold hostRegRead at h
  split at h <;> cases h
  rfl

theorem hostMemWrite_busy {s t : State} {addr : Word} {v : Byte} (h : hostMemWrite addr v s = .next t) :
    t.busy = s.busy := by
  unfold hostMemWrite at h
  split at h <;> cases h
  rfl

theorem hostMemRead_busy {s t : State} {addr : Word} (h : hostMemRead addr s = .next t) : t.busy = s.busy := by
  unfold hostMemRead at h
  split at h
  · cases h
  · split at h <;> cases h <;> rfl

/-- During an operation a write to STATUS in the same cycle as an engine step clears nothing: no flag was up before the
step, and the flags the step raised are kept (rule R270). -/
theorem hostCycleWrite_status_busy {s : State} (hI : Inv s) (hb : s.busy = true) (v : Word) (u : State) :
    hostCycleWrite exec .status v s (.next u) = .next u := by
  simp only [hostCycleWrite_status, hI.done_false hb, hI.err_false hb, Bool.and_false, Bool.not_false, Bool.and_true]

/-- A write in the same cycle as an engine step leaves what that step reported, or starts the next operation. -/
theorem hostCycleWrite_runsOrReports {s t : State} {reg : CommandReg} {v : Word} (hI : Inv s) (hb : s.busy = true)
    (h : hostCycleWrite exec reg v s (engineTurn exec s) = .next t) : RunsOrReports t := by
  cases hu : engineTurn exec s with
  | next u =>
    have hru := engineTurn_runsOrReports hI hb hu
    rw [hu] at h
    cases reg with
    | status =>
      rw [hostCycleWrite_status_busy hI hb] at h
      cases h
      exact hru
    | ctrl =>
      rcases exec_decodeCtrl_flags h with hrun | ⟨hbusy, hdone, herr⟩
      · exact .inl hrun
      · rw [RunsOrReports, hbusy, hdone, herr]
        exact hru
  | fault f =>
    rw [hu] at h
    cases h
  | refused r =>
    rw [hu] at h
    cases h

/-- A host action in a running operation lets it run, reports its end, or is RST. -/
theorem hostTurn_runsOrReports {s t : State} {op : HostOp} (hI : Inv s) (hb : s.busy = true)
    (h : hostTurn exec op s = .next t) : RunsOrReports t ∨ op = .rst := by
  cases op with
  | engineTurn => exact .inl (engineTurn_runsOrReports hI hb h)
  | regWrite offset size v => exact .inl (.inl (hostRegWrite_busy hb h))
  | cycleWrite reg v => exact .inl (hostCycleWrite_runsOrReports hI hb h)
  | regRead offset size => exact .inl (.inl ((hostRegRead_busy h).trans hb))
  | memWrite addr v => exact .inl (.inl ((hostMemWrite_busy h).trans hb))
  | memRead addr => exact .inl (.inl ((hostMemRead_busy h).trans hb))
  | rst => exact .inr rfl

/-! ### The statement -/

theorem step_runsOrReports {s t : State} (hI : Inv s) (hb : s.busy = true) (h : step s = .next t) :
    RunsOrReports t ∨ ∃ rest, s.hostQ = .rst :: rest := by
  cases hq : s.hostQ with
  | nil =>
    rw [step_engine hq] at h
    exact .inl (engineTurn_runsOrReports hI hb h)
  | cons op rest =>
    rw [step_hostOp hq] at h
    exact (hostTurn_runsOrReports (hI.setQueue rest) hb h).imp_right fun hop => ⟨rest, by rw [hop]⟩

/-- What is reported at the end of an operation: DONE alone, or ERR alone and no output. -/
theorem RunsOrReports.report {t : State} (h : RunsOrReports t) (hI : Inv t) (hb : t.busy = false) :
    (t.done = true ∧ t.err = false) ∨ (t.err = true ∧ t.done = false ∧ t.outLen = 0) := by
  obtain ⟨-, -, hone⟩ := hI.exclusive
  rcases h with hrun | hdone | herr
  · rw [hb] at hrun
    cases hrun
  · rw [hdone, Bool.true_and] at hone
    exact .inl ⟨hdone, hone⟩
  · rw [herr, Bool.and_true] at hone
    exact .inr ⟨herr, hone, hI.noResult (.inr herr)⟩

/-- Settles O57: a step that is not RST runs on or reports, and the invariant of the next state lets it report one end
only. -/
theorem onlyCompletionErrorOrResetEndsBusy : Obligations.OnlyCompletionErrorOrResetEndsBusy := by
  refine fun s t hI hb h => ⟨fun hend => ?_, fun v rest hq => ?_⟩
  · rcases step_runsOrReports hI hb h with hr | hrst
    · rcases hr.report (stepKeepsInvariant s t hI h) hend with hdone | herr
      · exact .inl hdone
      · exact .inr (.inl herr)
    · exact .inr (.inr hrst)
  · rw [step_hostOp hq, hostTurn] at h
    cases hu : engineTurn exec { s with hostQ := rest } with
    | next u =>
      rwa [hu, hostCycleWrite_status_busy (hI.setQueue rest) hb] at h
    | fault f =>
      rw [hu] at h
      cases h
    | refused r =>
      rw [hu] at h
      cases h

end Sys2Proof.Machine
end

section
/-! PROOFS. Errors: what error termination writes (O44), how a bus error ends an access (O45), and what an operation that
ends with an error reports (O58). -/

namespace Sys2Proof.Machine

/-! ### Error termination (rules R261, R266) -/

/-- Settles O44: besides the registers it writes, `raise` gives free values to the unspecified part of the output window
only. -/
theorem errorTermination : Obligations.ErrorTermination := by
  refine fun s e => ⟨?code, rfl, fun hm => raise_wf hm e, fun a ha => ?memory⟩
  case code => cases e <;> rfl
  case memory =>
    rw [raise_mem]
    exact scrambleOutput_read_other _ (unspecifiedOutput s) s (ha.imp_right .inl)

/-! ### Bus errors (rule R267) -/

/-- A read inside the address space where the platform may answer with a bus error. -/
theorem readIn_busFaults {s : State} {off : Nat} (hb : s.cfg.busFaults = true) (ha : s.op.srcBase.toNat + off < 2 ^ 32) :
    readIn off s =
      if Config.busError s.draws = true then .raised .busError { s with draws := s.draws + 1 }
      else srcByte (s.op.srcBase.toNat + off) { s with draws := s.draws + 1 } := by
  have hspace : ¬Config.addressSpace ≤ s.op.srcBase.toNat + off := Nat.not_le.2 ha
  rw [readIn, if_neg hspace, busAnswer, if_pos hb]
  split <;> rfl

/-- A write inside the address space where the platform may answer with a bus error. -/
theorem writeOut_busFaults {s : State} {off : Nat} (hb : s.cfg.busFaults = true)
    (ha : s.op.dstBase.toNat + off < 2 ^ 32) (v : Byte) :
    writeOut off v s =
      if Config.busError s.draws = true then
        .raised .busError { s with draws := s.draws + 1, reach := max s.reach (off + 1) }
      else .ok () { s with
        mem := Memory.write s.mem (s.op.dstBase.toNat + off) v
        draws := s.draws + 1, reach := max s.reach (off + 1) } := by
  have hspace : ¬Config.addressSpace ≤ s.op.dstBase.toNat + off := Nat.not_le.2 ha
  rw [writeOut_eq, if_neg hspace, if_pos hb]
  rfl

/-- While the host keeps its duty a read of the input window gives the byte in memory (rule R75). -/
theorem srcByte_dutyKept {s : State} (ht : s.inTaint = false) (a : Nat) :
    srcByte a s = .ok (Memory.read s.mem a) s := if_neg (Bool.eq_false_iff.1 ht)

/-- A chunk step whose tag read is answered with a bus error ends the operation. -/
theorem decChunk_tagBusError {s : State} (hb : s.cfg.busFaults = true) (htag : s.op.inPos.toNat < s.op.srcLen.toNat)
    (hspace : s.op.srcBase.toNat + s.op.srcLen.toNat ≤ 2 ^ 32) (he : Config.busError s.draws = true)
    (run : Instr → State → Answer) :
    decChunk run s = .next (raise .busError { s with draws := s.draws + 1 }) := by
  rw [decChunk, if_neg (Nat.not_lt.2 htag), readIn_busFaults hb (by omega), if_pos he, Acc.finish_raised]

/-- Settles O45: the platform's answer decides each access, and a raised access ends the step that made it. -/
theorem busErrorEndsTheAccess : Obligations.BusErrorEndsTheAccess := by
  refine fun s off v hb => ⟨fun ha ht => ?read, fun ha => writeOut_busFaults hb ha v, fun hq hf htag hspace => ?tag⟩
  case read => rw [readIn_busFaults hb ha, srcByte_dutyKept (s := { s with draws := s.draws + 1 }) ht]
  case tag =>
    cases he : Config.busError s.draws with
    | true => exact .inl ((step_decChunk hq hf).trans (decChunk_tagBusError hb htag hspace he exec))
    | false => exact .inr rfl

/-! ### The result registers of an operation that ends with an error (rules R216, R266) -/

/-- WIDTH, HEIGHT and FORMAT are the same in `s` and `t`. -/
structure SameResult (s t : State) : Prop where
  width : t.width = s.width
  height : t.height = s.height
  channels : t.channels = s.channels
  colorspace : t.colorspace = s.colorspace

theorem SameResult.trans {s t u : State} (h : SameResult s t) (h' : SameResult t u) : SameResult s u :=
  ⟨h'.width.trans h.width, h'.height.trans h.height, h'.channels.trans h.channels, h'.colorspace.trans h.colorspace⟩

theorem sameResult_of_among {s t : State} (h : t = among s t) : SameResult s t := by
  rw [h]
  exact ⟨rfl, rfl, rfl, rfl⟩

/-- While ERR is 1 no operation runs and none has completed (rule R23). -/
theorem Inv.flags_of_err {s : State} (hI : Inv s) (he : s.err = true) : s.busy = false ∧ s.done = false := by
  obtain ⟨-, hbusy, hdone⟩ := hI.exclusive
  rw [he, Bool.and_true] at hbusy hdone
  exact ⟨hbusy, hdone⟩

/-- Of the engine's steps only the completion of a decode writes the result registers. -/
theorem engineTurn_sameResult {s t : State} (h : engineTurn exec s = .next t) (hd : t.done = false) :
    SameResult s t := by
  by_cases hf : s.fsm = .decFtr
  · have hself := eq_of_mapNext (engineTurn_amongResult s hf) h
    rw [amongResult, if_neg (Bool.eq_false_iff.1 hd)] at hself
    exact sameResult_of_among hself
  · exact sameResult_of_among (eq_of_mapNext (engineTurn_among hf rfl) h)

theorem writeStart_sameResult {s t : State} {mode : Mode} {q : Bool} (h : writeStart mode q s = .next t) :
    SameResult s t := by
  unfold writeStart at h
  split at h <;> cases h <;> exact ⟨rfl, rfl, rfl, rfl⟩

/-- A write to CTRL keeps the result registers. -/
theorem exec_decodeCtrl_sameResult {s t : State} {v : Word} (h : exec (decodeCtrl v) s = .next t) :
    SameResult s t := by
  unfold decodeCtrl at h
  split at h
  · split at h
    · exact writeStart_sameResult (mode := .decode) h
    · exact writeStart_sameResult (mode := .encode) h
  · cases h
    exact ⟨rfl, rfl, rfl, rfl⟩

/-- A write in the same cycle as the engine step that ends with an error keeps the result registers as that step did. -/
theorem hostCycleWrite_sameResult {s t : State} {reg : CommandReg} {v : Word} (hI : Inv s) (hb : s.busy = true)
    (h : hostCycleWrite exec reg v s (engineTurn exec s) = .next t) (he : t.err = true) : SameResult s t := by
  have hIt : Inv t := hostCycleWrite_inv hI h
  cases hu : engineTurn exec s <;> rw [hu] at h
  case next u =>
    have hIu : Inv u := engineTurn_inv hI hu
    cases reg with
    | status =>
      rw [hostCycleWrite_status_busy hI hb] at h
      cases h
      exact engineTurn_sameResult hu (hIt.flags_of_err he).2
    | ctrl =>
      rcases exec_decodeCtrl_flags h with hrun | ⟨-, -, herr⟩
      · rw [hIt.err_false hrun] at he
        cases he
      · have hdone : u.done = false := (hIu.flags_of_err (herr.symm.trans he)).2
        exact (engineTurn_sameResult hu hdone).trans (exec_decodeCtrl_sameResult h)
  case fault | refused => cases h

/-- In a running operation, an action of the host after which ERR is 1 lets the engine end it; the others leave the
operation running, or reset the machine. -/
theorem hostTurn_sameResult {s t : State} {op : HostOp} (hI : Inv s) (hb : s.busy = true)
    (h : hostTurn exec op s = .next t) (he : t.err = true) : SameResult s t := by
  have hIt : Inv t := hostTurn_inv hI h
  have hend : t.busy ≠ true := Bool.eq_false_iff.1 (hIt.flags_of_err he).1
  cases op with
  | engineTurn => exact engineTurn_sameResult h (hIt.flags_of_err he).2
  | regWrite offset size v => exact absurd (hostRegWrite_busy hb h) hend
  | cycleWrite reg v => exact hostCycleWrite_sameResult hI hb h he
  | regRead offset size => exact absurd ((hostRegRead_busy h).trans hb) hend
  | memWrite addr v => exact absurd ((hostMemWrite_busy h).trans hb) hend
  | memRead addr => exact absurd ((hostMemRead_busy h).trans hb) hend
  | rst =>
    cases h
    cases he

theorem step_sameResult {s t : State} (hI : Inv s) (hb : s.busy = true) (h : step s = .next t) (he : t.err = true) :
    SameResult s t := by
  cases hq : s.hostQ with
  | nil =>
    rw [step_engine hq] at h
    exact engineTurn_sameResult h ((engineTurn_inv hI h).flags_of_err he).2
  | cons op rest =>
    rw [step_hostOp hq] at h
    obtain ⟨hw, hh, hch, hcs⟩ := hostTurn_sameResult (hI.setQueue rest) hb h he
    exact ⟨hw, hh, hch, hcs⟩

/-- Settles O58: the invariant of the next state gives the flags, the code and OUT_LEN; the result registers are kept by
the step. -/
theorem errorsKeepResultRegisters : Obligations.ErrorsKeepResultRegisters := by
  intro s t hI hb h he
  have hIt : Inv t := stepKeepsInvariant s t hI h
  have hbusy : t.busy = false := (hIt.flags_of_err he).1
  have hidle : t.fsm = .idle := not_not.1 fun hf => Bool.eq_false_iff.1 hbusy (hIt.busyIff.2 hf)
  have hcode : t.errCode.toNat ≠ 0 := fun h0 => hIt.codeOk.2 he (BitVec.eq_of_toNat_eq h0)
  obtain ⟨hw, hh, hch, hcs⟩ := step_sameResult hI hb h he
  exact ⟨hidle, hbusy, Nat.pos_of_ne_zero hcode, hIt.code, hIt.noResult (.inr he), hw, hh, hch, hcs⟩

end Sys2Proof.Machine
end

section
/-! PROOFS. How long a decode runs (O60). A chunk step that does not end the operation has decoded at least one pixel,
and the footer step ends it, so the pixels left bound the steps (rules R197, R297). -/

namespace Sys2Proof.Machine

/-! ### Runs -/

/-- A run begins with a step. -/
theorem run_succ_of_step {M : Host.Core} {s t : M.State} (h : M.step s = .next t) (n : Nat) :
    M.run (n + 1) s = M.run n t := by
  rw [Host.Core.run, h]

theorem core_run_succ {s t : State} (h : step s = .next t) (n : Nat) :
    Sys2Proof.core.run (n + 1) s = Sys2Proof.core.run n t := run_succ_of_step (M := Sys2Proof.core) h n

/-- An answer that is no fault and no refusal is a next state. -/
theorem exists_next {x : Answer} (hf : ∀ f, x ≠ .fault f) (hr : ∀ r, x ≠ .refused r) : ∃ t, x = .next t := by
  cases x with
  | next t => exact ⟨t, rfl⟩
  | fault f => exact absurd rfl (hf f)
  | refused r => exact absurd rfl (hr r)

/-! ### A decode behind its checks is not refused -/

theorem Acc.finish_not_refused {α : Type} {x : Acc α} {k : α → State → Answer} {r : Refusal}
    (hk : ∀ a s, k a s ≠ .refused r) : x.finish k ≠ .refused r := fun h => by
  obtain ⟨a, s, -, hend⟩ := Acc.finish_eq_refused.1 h
  exact hk a s hend

theorem runDecoded_not_refused {run : Instr → State → Answer} {e : ErrKind} {x : Except DecodeError (Instr × List Byte)}
    {s : State} {r : Refusal} (h : ∀ i rest, x = .ok (i, rest) → run i s ≠ .refused r) :
    runDecoded run e x s ≠ .refused r := by
  rcases x with _ | ⟨i, rest⟩
  · nofun
  · exact h i rest rfl

theorem decodeTail_not_refused (len : Nat) (p : Pixel) (cnt : Nat) (s : State) (r : Refusal) :
    decodeTail len p cnt s ≠ .refused r := by
  unfold decodeTail
  split
  · nofun
  · exact Acc.finish_not_refused fun _ _ => nofun

theorem decChunk_not_refused (s : State) (r : Refusal) : decChunk exec s ≠ .refused r := by
  unfold decChunk
  split
  · nofun
  refine Acc.finish_not_refused fun tag s1 => ?_
  split
  · nofun
  refine Acc.finish_not_refused fun bs s2 => runDecoded_not_refused fun i rest hd => ?_
  obtain ⟨len, p, cnt, -, htail⟩ := exec_chunk hd s2
  rw [htail]
  exact decodeTail_not_refused len p cnt s2 r

theorem execFooter_not_refused (s : State) (r : Refusal) : execFooter s ≠ .refused r := by
  unfold execFooter
  split
  · nofun
  · split <;> nofun

theorem decFooter_not_refused (s : State) (r : Refusal) : decFooter exec s ≠ .refused r := by
  unfold decFooter
  split
  · nofun
  refine Acc.finish_not_refused fun bs s1 => runDecoded_not_refused fun i rest hd => ?_
  rw [decodeFooter_ok hd]
  exact execFooter_not_refused s1 r

/-! ### A chunk decodes at least one pixel -/

/-- The accesses of a step that ends without an error completed. -/
theorem Acc.finish_noError {α : Type} {x : Acc α} {k : α → State → Answer} {t : State} (h : x.finish k = .next t)
    (he : t.err = false) : ∃ a s, x = .ok a s ∧ k a s = .next t := by
  rcases Acc.finish_eq_next.1 h with hok | ⟨e, s, -, ht⟩
  · exact hok
  · exact (ne_raise_of_noError he e s ht).elim

/-- A well-formed chunk stands for at least one pixel (rules R107, R204). -/
theorem exec_chunk_count {i : Instr} (hi : isChunk i = true) (hw : i.WellFormed) (s : State) :
    ∃ len p cnt, 1 ≤ cnt ∧ exec i s = decodeTail len p cnt s := by
  cases i with
  | rgb r g b => exact ⟨4, { r := r, g := g, b := b, a := s.prev.a }, 1, le_rfl, rfl⟩
  | rgba r g b a => exact ⟨5, { r := r, g := g, b := b, a := a }, 1, le_rfl, rfl⟩
  | index k => exact ⟨1, s.cache.get k, 1, le_rfl, rfl⟩
  | diff dr dg db => exact ⟨1, diffPixel s.prev dr dg db, 1, le_rfl, rfl⟩
  | luma dg drg dbg => exact ⟨2, lumaPixel s.prev dg drg dbg, 1, le_rfl, rfl⟩
  | run len => exact ⟨1, s.prev, len, (of_decide_eq_true hw).1, rfl⟩
  | _ => cases hi

/-- A chunk step that ends without an error leaves the state after a chunk of at least one pixel. -/
theorem decChunk_noError {s t : State} (h : decChunk exec s = .next t) (he : t.err = false) :
    ∃ len p cnt m d r, 1 ≤ cnt ∧ t = chunkDone len p cnt (accessed s m d r) := by
  unfold decChunk at h
  split at h
  · exact (ne_raise_of_noError he _ _ (Host.Outcome.next.inj h).symm).elim
  obtain ⟨tag, s1, hread, h⟩ := Acc.finish_noError h he
  split at h
  · exact (ne_raise_of_noError he _ _ (Host.Outcome.next.inj h).symm).elim
  obtain ⟨bs, s2, hreads, h⟩ := Acc.finish_noError h he
  rw [(readBytes_ok hreads).1, (readIn_ok hread).1, accessed_accessed] at h
  unfold runDecoded at h
  split at h
  · next i rest hd =>
    obtain ⟨len, p, cnt, hcnt, htail⟩ := exec_chunk_count (decodeChunk_isChunk hd) (decodeChunk_wellFormed hd)
      (accessed s s.mem s2.draws s.reach)
    obtain ⟨m, d, r, ht⟩ := decodeTail_noError (htail.symm.trans h) he
    exact ⟨len, p, cnt, m, d, r, hcnt, ht⟩
  · exact (ne_raise_of_noError he _ _ (Host.Outcome.next.inj h).symm).elim

/-- A chunk of at least one pixel leaves fewer pixels to decode. -/
theorem chunkDone_pixelsLeft {s : State} (len : Nat) (p : Pixel) {cnt : Nat} (m : Memory) (d r : Nat) (hcnt : 1 ≤ cnt)
    (hn : s.op.npix.toNat ≤ Config.pixelsMax) (hp : s.op.pix.toNat < s.op.npix.toNat) :
    pixelsLeft (chunkDone len p cnt (accessed s m d r)) < pixelsLeft s := by
  rw [chunkDone_fields p cnt m d r hn hp.le]
  show s.op.npix.toNat - (BitVec.ofNat 32 (min (s.op.pix.toNat + cnt) s.op.npix.toNat)).toNat <
    s.op.npix.toNat - s.op.pix.toNat
  rw [Config.pixelsMax] at hn
  rw [BitVec.toNat_ofNat, Nat.mod_eq_of_lt (by omega)]
  omega

theorem chunkDone_hostQ (len : Nat) (p : Pixel) (cnt : Nat) (s : State) : (chunkDone len p cnt s).hostQ = s.hostQ :=
  (afterChunk_hostQ _).trans rfl

theorem chunkDone_fsm (len : Nat) (p : Pixel) (cnt : Nat) (s : State) :
    (chunkDone len p cnt s).fsm = .decChunk ∨ (chunkDone len p cnt s).fsm = .decFtr :=
  ite_eq_or_eq _ _ _

/-! ### The footer step ends the operation -/

theorem execFooter_idle {s t : State} (h : execFooter s = .next t) : t.busy = false := by
  unfold execFooter at h
  split at h
  · cases h
    rfl
  · split at h <;> cases h <;> rfl

theorem decFooter_idle {s t : State} (h : decFooter exec s = .next t) : t.busy = false := by
  unfold decFooter at h
  split at h
  · cases h
    rfl
  rcases Acc.finish_eq_next.1 h with ⟨bs, s1, -, hrun⟩ | ⟨e, s1, -, rfl⟩
  · unfold runDecoded at hrun
    split at hrun
    · next hd =>
      rw [decodeFooter_ok hd] at hrun
      exact execFooter_idle hrun
    · cases hrun
      rfl
  · rfl

/-! ### One step of a decode that the host leaves alone -/

/-- The operation has ended and its end is reported. -/
def Ended (t : State) : Prop := t.busy = false ∧ (t.done = true ∨ t.err = true)

/-- A decode behind its checks, with a host that leaves it alone. -/
structure Decoding (s : State) : Prop where
  inv : Inv s
  alone : s.hostQ = []
  phase : s.fsm = .decChunk ∨ s.fsm = .decFtr

theorem Decoding.busy {s : State} (h : Decoding s) : s.busy = true := by
  rcases h.phase with hf | hf <;> exact h.inv.busy_of hf nofun

theorem Decoding.answers {s : State} (h : Decoding s) : ∃ t, engineTurn exec s = .next t := by
  refine exists_next (engineTurn_not_fault h.inv.phase) fun r => ?_
  rcases h.phase with hf | hf <;> rw [engineTurn, hf]
  · exact decChunk_not_refused s r
  · exact decFooter_not_refused s r

/-- A chunk step that ends without an error goes on decoding with fewer pixels left. -/
theorem Decoding.advance {s t : State} (h : Decoding s) (hf : s.fsm = .decChunk) (ht : decChunk exec s = .next t)
    (hI : Inv t) (he : t.err = false) : Decoding t ∧ pixelsLeft t < pixelsLeft s := by
  have hph := h.inv.phase
  rw [PhaseOk, hf] at hph
  obtain ⟨hD, hlt⟩ := hph
  obtain ⟨-, hmax, -⟩ := hD.checked.bounds
  obtain ⟨len, p, cnt, m, d, r, hcnt, rfl⟩ := decChunk_noError ht he
  exact ⟨⟨hI, (chunkDone_hostQ len p cnt _).trans h.alone, chunkDone_fsm len p cnt _⟩,
    chunkDone_pixelsLeft len p m d r hcnt hmax hlt⟩

theorem Decoding.step {s : State} (h : Decoding s) :
    ∃ t, step s = .next t ∧ (Ended t ∨ Decoding t ∧ pixelsLeft t < pixelsLeft s) := by
  obtain ⟨t, ht⟩ := h.answers
  have hI : Inv t := engineTurn_inv h.inv ht
  refine ⟨t, (step_engine h.alone).trans ht, ?_⟩
  cases hb : t.busy with
  | false =>
    have hreport := (engineTurn_runsOrReports h.inv h.busy ht).resolve_left (by rw [hb]; nofun)
    exact .inl ⟨hb, hreport⟩
  | true =>
    rcases h.phase with hf | hf <;> rw [engineTurn, hf] at ht
    · exact .inr (h.advance hf ht hI (hI.err_false hb))
    · rw [decFooter_idle ht] at hb
      cases hb

/-! ### The statement -/

/-- A decode ends within one step for each of the `k` pixels left at most, and one for the footer. -/
theorem Decoding.ends {k : Nat} {s : State} (h : Decoding s) (hk : pixelsLeft s ≤ k) :
    ∃ n t, n ≤ k + 1 ∧ Sys2Proof.core.run n s = .next t ∧ Ended t := by
  induction k generalizing s with
  | zero =>
    obtain ⟨t, ht, hend | ⟨-, hless⟩⟩ := h.step
    · exact ⟨1, t, le_rfl, core_run_succ ht 0, hend⟩
    · omega
  | succ k ih =>
    obtain ⟨t, ht, hend | ⟨hnext, hless⟩⟩ := h.step
    · exact ⟨1, t, by omega, core_run_succ ht 0, hend⟩
    · obtain ⟨n, u, hn, hrun, hend⟩ := ih hnext (by omega)
      exact ⟨n + 1, u, by omega, (core_run_succ ht n).trans hrun, hend⟩

/-- Settles O60: by induction on the pixels left, of which every chunk step decodes one or ends the operation. -/
theorem decodeEndsWithinStepBound : Obligations.DecodeEndsWithinStepBound := fun _ hI hf hq =>
  Decoding.ends ⟨hI, hq, .inl hf⟩ le_rfl

end Sys2Proof.Machine
end

section
/-! PROOFS. How long an encode runs (O59). Without bus errors no access ends the operation, so each step leads to the
next control state of rule R297, and the steps left are fixed by the control state and the pixels left. -/

namespace Sys2Proof.Machine

/-! ### Reads without bus errors -/

theorem readIn_quiet {s : State} (hc : s.cfg.busFaults = false) (off : Nat) (e : ErrKind) (t : State) :
    readIn off s ≠ .raised e t := fun h => by
  rw [readIn, busAnswer_quiet hc, Acc.bind_ok, srcByte] at h
  split at h
  · cases h
  · split at h <;> cases h

theorem readBytes_quiet {s : State} (hc : s.cfg.busFaults = false) (n off : Nat) (e : ErrKind) (t : State) :
    readBytes n off s ≠ .raised e t := by
  induction n generalizing off s with
  | zero => nofun
  | succ n ih =>
    intro h
    rcases Acc.bind_eq_raised.1 h with h | ⟨b, s1, h1, h⟩
    · exact readIn_quiet hc off e t h
    have hc1 : s1.cfg.busFaults = false := by rw [(readIn_ok h1).1, accessed_cfg, hc]
    rcases Acc.bind_eq_raised.1 h with h | ⟨bs, s2, -, h⟩
    · exact ih hc1 _ h
    · cases h

/-- Reads inside the address space complete, with the bytes in memory or, after the host broke its duty, with free
values. -/
theorem readBytes_completes {s : State} {n off : Nat} (hc : s.cfg.busFaults = false)
    (ha : s.op.srcBase.toNat + off + n ≤ 2 ^ 32) :
    ∃ bs d, readBytes n off s = .ok bs (accessed s s.mem d s.reach) := by
  cases h : readBytes n off s with
  | ok bs t => exact ⟨bs, t.draws, by rw [← (readBytes_ok h).1]⟩
  | raised e t => exact absurd h (readBytes_quiet hc n off e t)
  | fault f => exact absurd h (readBytes_not_fault ha f)

/-! ### The encode steps without bus errors -/

/-- The room that the checks leave at the output cursor (rules R153, R168). -/
theorem EncodeOk.roomFor {s : State} (h : EncodeOk s) {n : Nat}
    (hn : s.op.outPos.toNat + n ≤ 22 + s.op.npix.toNat * (s.op.ch.toNat + 1)) : RoomFor s n := by
  obtain ⟨-, -, -, -, -, hspace⟩ := h.checked.bounds
  exact ⟨hn.trans h.output, hspace⟩

/-- Writes that end a step complete where the window has room and there are no bus errors. -/
theorem writeBytes_finish_completes {bs : List Byte} {s : State} (hm : Memory.wf s.mem)
    (hc : s.cfg.busFaults = false) (hr : RoomFor s bs.length) (k : Unit → State → Answer) :
    ∃ m d r, (writeBytes bs s.op.outPos.toNat s).finish k = k () (accessed s m d r) := by
  obtain ⟨m, d, r, hwrite, -⟩ := writeBytes_emitted hm (accessesAnswered_of_noFaults hc _) hr
  exact ⟨m, d, r, hwrite k⟩

section
variable {s : State} (hI : Inv s) (hc : s.cfg.busFaults = false)
include hI hc

theorem encHeader_completes (hf : s.fsm = .encHdr) :
    ∃ m d r, encHeader s = .next { advanceOut 14 (accessed s m d r) with fsm := .encPix } := by
  have hph := hI.phase
  rw [PhaseOk, hf] at hph
  obtain ⟨hE, -, ho, -⟩ := hph
  have hpos : s.op.outPos.toNat = 0 := by rw [ho]; rfl
  rw [encHeader_eq (by omega)]
  exact writeBytes_finish_completes hI.mem hc (hE.roomFor (by rw [headerBytes_length]; omega)) _

theorem encPixel_completes (hf : s.fsm = .encPix) :
    ∃ p m d r, encPixel s = .next (afterPixel (pixelDone p (isLastPixel s) (accessed s m d r))) := by
  have hph := hI.phase
  rw [PhaseOk, hf] at hph
  obtain ⟨hE, hlt, hrun, -, -, hout⟩ := hph
  have ho := le_of_add_le_left hout
  obtain ⟨-, -, -, -, hsrc, -⟩ := hE.checked.bounds
  have hin := hE.pixel_inWindow hlt
  obtain ⟨bs, d, hread⟩ := readBytes_completes (off := s.op.ch.toNat * s.op.pix.toNat) (n := s.op.ch.toNat) hc
    (by omega)
  rw [encPixel_eq hrun (hE.cursor_room hlt ho), hread, Acc.finish_ok]
  have hlen := pixelChunks_length (pixelOfBytes bs) (isLastPixel s) s
  have hmul : s.op.pix.toNat * (s.op.ch.toNat + 1) ≤ s.op.npix.toNat * (s.op.ch.toNat + 1) :=
    Nat.mul_le_mul_right _ hlt.le
  obtain ⟨m, d', r, hwrite⟩ := writeBytes_finish_completes (s := accessed s s.mem d s.reach) hI.mem hc
    (hE.roomFor (s := s) (n := (bytesOfChunks (pixelChunks (pixelOfBytes bs) (isLastPixel s) s)).length) (by omega)) _
  exact ⟨pixelOfBytes bs, m, d', r, hwrite⟩

theorem encFooter_completes (hf : s.fsm = .encFtr) : ∃ n t, encFooter s = .next (complete n t) ∧
    t.hostQ = s.hostQ ∧ t.cfg = s.cfg := by
  have hph := hI.phase
  rw [PhaseOk, hf] at hph
  obtain ⟨hE, -, -, -, ho⟩ := hph
  have hroom : RoomFor s 8 := hE.roomFor (by omega)
  obtain ⟨m, d, r, hwrite⟩ := writeBytes_finish_completes (bs := Config.footer) hI.mem hc hroom
    fun _ t => .next (complete (advanceOut 8 t).op.outPos (advanceOut 8 t))
  exact ⟨_, _, (encFooter_eq hroom.cursor_lt).trans hwrite, rfl, rfl⟩

end

/-! ### One step of an encode that the host leaves alone -/

section
variable {s : State}

theorem engineTurn_encCheck (hf : s.fsm = .encCheck) : engineTurn exec s = encCheck s := by rw [engineTurn, hf]

theorem engineTurn_encHdr (hf : s.fsm = .encHdr) : engineTurn exec s = encHeader s := by rw [engineTurn, hf]

theorem engineTurn_encPix (hf : s.fsm = .encPix) : engineTurn exec s = encPixel s := by rw [engineTurn, hf]

theorem engineTurn_encFtr (hf : s.fsm = .encFtr) : engineTurn exec s = encFooter s := by rw [engineTurn, hf]

end

/-- The steps an encode still takes (rule R297). -/
def encodeStepsLeft (s : State) : Nat :=
  match s.fsm with
  | .encCheck => s.op.npix.toNat + 3
  | .encHdr => s.op.npix.toNat + 2
  | .encPix => pixelsLeft s + 1
  | .encFtr => 1
  | _ => 0

section
variable {s : State}

theorem encodeStepsLeft_encCheck (h : s.fsm = .encCheck) : encodeStepsLeft s = s.op.npix.toNat + 3 := by
  rw [encodeStepsLeft, h]

theorem encodeStepsLeft_encHdr (h : s.fsm = .encHdr) : encodeStepsLeft s = s.op.npix.toNat + 2 := by
  rw [encodeStepsLeft, h]

theorem encodeStepsLeft_encPix (h : s.fsm = .encPix) : encodeStepsLeft s = pixelsLeft s + 1 := by
  rw [encodeStepsLeft, h]

theorem encodeStepsLeft_encFtr (h : s.fsm = .encFtr) : encodeStepsLeft s = 1 := by
  rw [encodeStepsLeft, h]

theorem encodeStepsLeft_idle (h : s.fsm = .idle) : encodeStepsLeft s = 0 := by
  rw [encodeStepsLeft, h]

end

/-- A pixel step leaves one step fewer. -/
theorem afterPixel_stepsLeft {s : State} (p : Pixel) (last : Bool) (m : Memory) (d r : Nat)
    (hlt : s.op.pix.toNat < s.op.npix.toNat) (hmax : s.op.npix.toNat ≤ 400000000) :
    encodeStepsLeft (afterPixel (pixelDone p last (accessed s m d r))) = pixelsLeft s := by
  have hpix : (s.op.pix + 1).toNat = s.op.pix.toNat + 1 := word_succ (by omega)
  have hfsm : (afterPixel (pixelDone p last (accessed s m d r))).fsm =
      if s.op.pix.toNat + 1 < s.op.npix.toNat then .encPix else .encFtr := by
    rw [afterPixel_fsm, ← hpix]
    rfl
  have hleft : pixelsLeft (afterPixel (pixelDone p last (accessed s m d r))) =
      s.op.npix.toNat - (s.op.pix.toNat + 1) := by
    rw [← hpix]
    rfl
  rw [pixelsLeft]
  split at hfsm
  · rw [encodeStepsLeft_encPix hfsm, hleft]
    omega
  · rw [encodeStepsLeft_encFtr hfsm]
    omega

/-- An encode whose checks pass, without bus errors and with a host that leaves it alone, up to its completion. -/
structure Encoding (s : State) : Prop where
  inv : Inv s
  alone : s.hostQ = []
  quiet : s.cfg.busFaults = false
  passes : s.fsm = .encCheck → windowsIllegal s.op = false ∧ windowsOverRegisters s = false ∧ encodeError s.op = none
  completed : encodeStepsLeft s = 0 → s.done = true

theorem Encoding.busy {s : State} (h : Encoding s) (hn : encodeStepsLeft s ≠ 0) : s.busy = true :=
  h.inv.busyIff.2 fun hf => hn (encodeStepsLeft_idle hf)

/-- An encode with no step left has ended with DONE alone. -/
theorem Encoding.ended {s : State} (h : Encoding s) (hn : encodeStepsLeft s = 0) :
    s.busy = false ∧ s.done = true ∧ s.err = false := by
  have hdone := h.completed hn
  obtain ⟨hbusy, -, herr⟩ := h.inv.exclusive
  rw [hdone, Bool.and_true] at hbusy
  rw [hdone, Bool.true_and] at herr
  exact ⟨hbusy, hdone, herr⟩

/-- The engine's step from `s` leaves `t`, an encode behind its checks with one step fewer left, or its completion. -/
structure EncodeTurn (s t : State) : Prop where
  answer : engineTurn exec s = .next t
  queue : t.hostQ = s.hostQ
  platform : t.cfg = s.cfg
  checked : t.fsm ≠ .encCheck
  fewer : encodeStepsLeft s = encodeStepsLeft t + 1
  completed : encodeStepsLeft t = 0 → t.done = true

section
variable {s : State} (h : Encoding s)
include h

theorem Encoding.turn_encCheck (hf : s.fsm = .encCheck) : ∃ t, EncodeTurn s t := by
  obtain ⟨hw, ho, he⟩ := h.passes hf
  have hleft : encodeStepsLeft { initCodec s with op := { s.op with outPos := 0 }, fsm := .encHdr } =
      s.op.npix.toNat + 2 := encodeStepsLeft_encHdr rfl
  exact ⟨_, (engineTurn_encCheck hf).trans (encCheck_passes hw ho he), rfl, rfl, nofun,
    (encodeStepsLeft_encCheck hf).trans (congrArg Nat.succ hleft).symm, fun h0 => by omega⟩

theorem Encoding.turn_encHdr (hf : s.fsm = .encHdr) : ∃ t, EncodeTurn s t := by
  have hph := h.inv.phase
  rw [PhaseOk, hf] at hph
  obtain ⟨-, -, -, hpix, -⟩ := hph
  obtain ⟨m, d, r, hstep⟩ := encHeader_completes h.inv h.quiet hf
  have hleft : encodeStepsLeft { advanceOut 14 (accessed s m d r) with fsm := .encPix } = s.op.npix.toNat + 1 := by
    rw [encodeStepsLeft_encPix rfl]
    show s.op.npix.toNat - s.op.pix.toNat + 1 = _
    rw [hpix]
    rfl
  exact ⟨_, (engineTurn_encHdr hf).trans hstep, rfl, rfl, nofun,
    (encodeStepsLeft_encHdr hf).trans (congrArg Nat.succ hleft).symm, fun h0 => by omega⟩

theorem Encoding.turn_encPix (hf : s.fsm = .encPix) : ∃ t, EncodeTurn s t := by
  have hph := h.inv.phase
  rw [PhaseOk, hf] at hph
  obtain ⟨hE, hlt, -⟩ := hph
  obtain ⟨-, hmax, -⟩ := hE.checked.bounds
  obtain ⟨p, m, d, r, hstep⟩ := encPixel_completes h.inv h.quiet hf
  have hleft := afterPixel_stepsLeft p (isLastPixel s) m d r hlt hmax
  have hmore : pixelsLeft s ≠ 0 := Nat.sub_ne_zero_of_lt hlt
  refine ⟨_, (engineTurn_encPix hf).trans hstep, afterPixel_hostQ _, afterPixel_cfg _, ?_,
    (encodeStepsLeft_encPix hf).trans (congrArg Nat.succ hleft).symm, fun h0 => absurd (hleft.symm.trans h0) hmore⟩
  rw [afterPixel_fsm]
  split <;> nofun

theorem Encoding.turn_encFtr (hf : s.fsm = .encFtr) : ∃ t, EncodeTurn s t := by
  obtain ⟨n, u, hstep, hqueue, hcfg⟩ := encFooter_completes h.inv h.quiet hf
  have hleft : encodeStepsLeft (complete n u) = 0 := encodeStepsLeft_idle (complete_fsm n u)
  exact ⟨_, (engineTurn_encFtr hf).trans hstep, (complete_hostQ n u).trans hqueue, (complete_cfg n u).trans hcfg,
    (by rw [complete_fsm]; nofun), (encodeStepsLeft_encFtr hf).trans (congrArg Nat.succ hleft).symm,
    fun _ => complete_done n u⟩

theorem Encoding.turn (hn : encodeStepsLeft s ≠ 0) : ∃ t, EncodeTurn s t := by
  cases hf : s.fsm with
  | encCheck => exact h.turn_encCheck hf
  | encHdr => exact h.turn_encHdr hf
  | encPix => exact h.turn_encPix hf
  | encFtr => exact h.turn_encFtr hf
  | _ =>
    rw [encodeStepsLeft, hf] at hn
    exact absurd rfl hn

theorem Encoding.step {n : Nat} (hn : encodeStepsLeft s = n + 1) :
    ∃ t, step s = .next t ∧ Encoding t ∧ encodeStepsLeft t = n := by
  obtain ⟨t, ht⟩ := h.turn (by omega)
  exact ⟨t, (step_engine h.alone).trans ht.answer,
    ⟨engineTurn_inv h.inv ht.answer, ht.queue.trans h.alone, (congrArg _ ht.platform).trans h.quiet,
      fun hf => absurd hf ht.checked, ht.completed⟩,
    Nat.succ.inj (ht.fewer.symm.trans hn)⟩

end

/-- An encode with at least `k` steps left is after `k` steps an encode with `k` steps fewer left. -/
theorem Encoding.run {s : State} {k n : Nat} (h : Encoding s) (hn : encodeStepsLeft s = n + k) :
    ∃ t, Sys2Proof.core.run k s = .next t ∧ Encoding t ∧ encodeStepsLeft t = n := by
  induction k generalizing s with
  | zero => exact ⟨s, rfl, h, hn⟩
  | succ k ih =>
    obtain ⟨t, hstep, hnext, hleft⟩ := h.step hn
    obtain ⟨u, hrun, hu⟩ := ih hnext hleft
    exact ⟨u, (core_run_succ hstep k).trans hrun, hu⟩

/-! ### The statement -/

/-- Settles O59: the check step has npix + 3 steps left, the encode is BUSY while one is left, and DONE when none is. -/
theorem encodeTakesPixelsPlusThreeSteps : Obligations.EncodeTakesPixelsPlusThreeSteps := by
  intro s hI hf hq hc hw ho he
  have hleft := encodeStepsLeft_encCheck hf
  have hs : Encoding s := ⟨hI, hq, hc, fun _ => ⟨hw, ho, he⟩, fun h0 => by omega⟩
  refine ⟨fun k _ hk => ?_, ?_⟩
  · obtain ⟨t, hrun, ht, hn⟩ := hs.run (k := k) (n := s.op.npix.toNat + 3 - k) (by omega)
    exact ⟨t, hrun, ht.busy (by omega)⟩
  · obtain ⟨t, hrun, ht, hn⟩ := hs.run (k := s.op.npix.toNat + 3) (n := 0) (by omega)
    exact ⟨t, hrun, ht.ended hn⟩

end Sys2Proof.Machine
end

section
/-! PROOFS. Reset (O46, O47). The state after reset and the state after RST are one state, an engine in reset, but for
what reset leaves to the platform and the host (rule R290). RST in BUSY gives free values to the output window only
(rules R291, R292). -/

namespace Sys2Proof.Machine

/-! ### The state of an engine in reset -/

/-- An engine in reset, whatever the parameters, memory, and the model's record of the host and the free values are. -/
def inReset (c : Config.Params) (m : Memory) (q : List HostOp) (v : Word) (d : Nat) : State :=
  { State.reset with cfg := c, mem := m, hostQ := q, rdata := v, draws := d }

theorem reset_eq_inReset : State.reset =
    inReset State.reset.cfg State.reset.mem State.reset.hostQ State.reset.rdata State.reset.draws := rfl

theorem hostReset_eq_inReset (s : State) :
    hostReset s = inReset s.cfg (resetOutput s).mem s.hostQ s.rdata (resetOutput s).draws := rfl

theorem formatWord_zero : ((0 : Byte) ++ (0 : Byte)).zeroExtend 32 = (0 : Word) :=
  BitVec.eq_of_toNat_eq (formatWord_toNat 0 0)

section
variable (c : Config.Params) (m : Memory) (q : List HostOp) (v : Word) (d : Nat)

theorem ctrlWord_inReset : ctrlWord (inReset c m q v d) = 0 := BitVec.eq_of_toNat_eq (ctrlWord_toNat _)

theorem statusWord_inReset : statusWord (inReset c m q v d) = 0 := BitVec.eq_of_toNat_eq (statusWord_toNat _)

/-- ID reads its constant, and every other register 0 (rules R21, R290). -/
theorem readReg_inReset (offset : BitVec 8) :
    readReg offset (inReset c m q v d) = if offset.toNat = 0 then 0x716F6966 else 0 := by
  unfold readReg
  split
  case h_1 h => exact (if_pos h).symm
  case h_2 h => exact (ctrlWord_inReset c m q v d).trans (if_neg (by omega)).symm
  case h_3 h => exact (statusWord_inReset c m q v d).trans (if_neg (by omega)).symm
  case h_7 h => exact formatWord_zero.trans (if_neg (by omega)).symm
  all_goals exact (if_neg (by omega)).symm

end

/-! ### RST -/

theorem step_rst {s : State} {rest : List HostOp} (hq : s.hostQ = .rst :: rest) :
    step s = .next (hostReset { s with hostQ := rest }) := step_hostOp hq

/-- With no operation running RST changes no memory. -/
theorem resetOutput_idle {s : State} (hb : s.busy = false) : (resetOutput s).mem = s.mem := by
  rw [resetOutput, if_neg (Bool.eq_false_iff.1 hb)]

/-- RST changes no byte outside the output window, and none of the input window (rules R291, R292). -/
theorem resetOutput_read_other {s : State} {a : Nat}
    (ha : a < s.op.dstBase.toNat ∨ s.op.dstBase.toNat + s.op.dstCap.toNat ≤ a ∨ inSrcWindow s a = true) :
    Memory.read (resetOutput s).mem a = Memory.read s.mem a := by
  unfold resetOutput
  split
  · exact scrambleOutput_read_other _ _ s ha
  · rfl

/-! ### The statements -/

/-- Settles O46: both states are an engine in reset, whose fields have their reset values. -/
theorem resetValues : Obligations.ResetValues := by
  intro s hs
  have hreset : ∃ c m q v d, s = inReset c m q v d := by
    rcases hs with rfl | ⟨s0, rest, hq, h⟩
    · exact ⟨_, _, _, _, _, reset_eq_inReset⟩
    · rw [step_rst hq] at h
      exact ⟨_, _, _, _, _, (Host.Outcome.next.inj h).symm.trans (hostReset_eq_inReset _)⟩
  obtain ⟨c, m, q, v, d, rfl⟩ := hreset
  exact ⟨readReg_inReset c m q v d,
    rfl, rfl, rfl, rfl, rfl, rfl, rfl, rfl, rfl, rfl, rfl, rfl, rfl, rfl, rfl, rfl, rfl⟩

/-- Settles O47: RST leaves an engine in reset, and of memory it changes what `resetOutput` does. -/
theorem resetEvent : Obligations.ResetEvent := fun s rest hq =>
  ⟨hostReset { s with hostQ := rest }, step_rst hq, hostReset_eq_inReset _,
    fun hb => resetOutput_idle (s := { s with hostQ := rest }) hb,
    fun _ ha => resetOutput_read_other (ha.imp_right (Or.imp_right inSrcWindow_iff.2))⟩

end Sys2Proof.Machine
end
